-- ==== Sys2Proof/Word.lean ====
section
/-! DEFINITION. The word types of the block (rules R15, R18 and R19 of spec/00_scope.md). Bit 0 is the least significant bit; `v.extractLsb' lo n` is the spec's
`v[lo + n - 1 : lo]`, and `a ++ b` puts `a` in the high bits. -/

namespace Sys2Proof

/-- A byte of the buffer memory. -/
abbrev Byte := BitVec 8

/-- A 32-bit word: a host register, a record word, a command word. -/
abbrev Word := BitVec 32

/-- A counter, maximum, period field or wall-clock value (`CNT_W` = 64, rule R15). -/
abbrev U64 := BitVec 64

/-- A 13-bit packet identifier (rules R16 and R111). -/
abbrev Pid := BitVec 13

/-- A 42-bit PCR value in 27 MHz ticks (rule R113). -/
abbrev Pcr := BitVec 42

end Sys2Proof
end

