-- ==== Sys2Proof/Config.lean ====
section
/-! DEFINITION. What is fixed for one block (the implementation parameters of rules R6 to R17), and the
free values: which agent moves next and what the wall-clock input shows, wherever the state's own list of
turns does not say (U8, U9 and U10 of spec/93_implementation_defined.md). -/

namespace Sys2Proof

/-- `TS_PACKET_SIZE` (rule R6). -/
def tsPacketSize : Nat := 188

/-- `SYNC_BYTE` (rule R7). -/
def syncByte : Byte := 0x47#8

/-- `NULL_PID` (rule R8). -/
def nullPid : Pid := 0x1FFF#13

/-- `SYNC_CONFIRM_OFFSETS` (rule R9). -/
def syncConfirmOffsets : List Nat := [188, 376, 564, 752]

/-- `PCR_TICKS_PER_MS` (rule R10). -/
def pcrTicksPerMs : Nat := 27000

/-- `PCR_HZ` (rule R11). -/
def pcrHz : Nat := 27000000

/-- `NUM_PIDS` (rule R16). -/
def numPids : Nat := 8192

/-- The parameters the spec leaves to the implementation and U13 makes arguments of a model: `BUF_MAX`
(rule R12), `EVT_DEPTH` (rule R14) and `WALL_HZ` (rule R11). `REC_MAX` follows from `BUF_MAX` (rule R13). -/
structure Config where
  bufMax   : Nat
  evtDepth : Nat
  wallHz   : Nat
deriving DecidableEq, Repr

/-- The defaults the rest of the spec uses (rules R11, R12 and R14). -/
def Config.default : Config where
  bufMax   := 65536
  evtDepth := 16
  wallHz   := 10000000

/-- `REC_MAX` = floor(`BUF_MAX` / 188) (rule R13). -/
def Config.recMax (c : Config) : Nat := c.bufMax / tsPacketSize

/-- The ranges rules R11 to R14 set. -/
abbrev Config.Valid (c : Config) : Prop :=
  188 ≤ c.bufMax ∧ c.bufMax ≤ 2 ^ 24 ∧ c.recMax ≤ 4096 ∧
  1 ≤ c.evtDepth ∧ c.evtDepth ≤ 255 ∧ 1 ≤ c.wallHz

/-- Who takes a step: the agents of rule R68, each sweep swap under the PID it swaps (rule R314), and the
reset input of rule R390. -/
inductive Agent where
  /-- HOST: the next register, buffer or record port access. -/
  | host
  /-- ENGINE: the next step of the command in progress. -/
  | engine
  /-- SWEEPER: the swap of one pending PID. -/
  | sweeper (p : Pid)
  /-- TICK_SRC: a pulse on the TICK pin. -/
  | tickSrc
  /-- The reset input is pulsed. -/
  | reset
deriving DecidableEq, Repr, Inhabited

/-- One step's share of the outside world: the agent that moves, and the value on the WALL input while it
does (rule R66). -/
structure Turn where
  agent : Agent
  wall  : U64
deriving DecidableEq, Repr

/-- FREE VALUE (log entry 2): the agent that moves in the `n`-th step for which the state names none. "Any
enabled step of any agent may be the next one" (rule R68). -/
opaque Config.freeAgent : Nat → Agent

/-- FREE VALUE (log entry 3): the wall-clock sample of the `n`-th step for which the state names none: a
draw, with "no law" that "ties one sample to another" (rule R66). -/
opaque Config.freeWall : Nat → U64

/-- `REG_BASE`, `BUF_BASE` and `REC_BASE`: where a platform puts the three ports in its own address map. Left
open, and no rule reads them (rule R80, D56; log entry 20). -/
opaque Config.regBase : Nat

@[inherit_doc Config.regBase] opaque Config.bufBase : Nat

@[inherit_doc Config.regBase] opaque Config.recBase : Nat

end Sys2Proof
end

