-- ==== Sys2Proof/Machine/State.lean ====
section
/-! DEFINITION. Everything the spec gives the block to hold (spec/10_state.md), what stops it, and the state
right after reset. Registers are held field by field, as rules R32, R33 and R38 name them; their reserved bits
read 0 and ignore writes (rule R43), so nothing is held for them. Machine/Flags.lean packs the words a host
reads. The last six fields of `State` are the model's own: the outside world, as data. -/

namespace Sys2Proof.Machine

/-- CTRL.PCR_MODE: the three legal values (rules R32 and R196). -/
inductive PcrMode where
  /-- 0, SOURCE_EXT_LSB: extension bit 0 is never set. -/
  | sourceExtLsb
  /-- 1, STANDARD. -/
  | standard
  /-- 2, SOURCE_BASE_LSB: base bit 0 is never set. -/
  | sourceBaseLsb
deriving DecidableEq, Repr

/-- STATUS.FRAME_STATUS (rule R33): 0 to 3 in this order. -/
inductive FrameStatus where
  | noFrame | ok | noSync | framingError
deriving DecidableEq, Repr

/-- ERR_INFO.ERR_CODE (rule R352): 0 to 4 in this order. Codes 5 to 15 are "never produced" (U3). -/
inductive FrameErr where
  | noError | afSize | ptsDtsFlag | tsCode | tsMarker
deriving DecidableEq, Repr

/-- ERR_INFO (rule R38). -/
structure ErrInfo where
  unitOffset : BitVec 24
  code       : FrameErr
  /-- ERR_TS: the failing timestamp is the DTS. -/
  dts        : Bool
deriving DecidableEq, Repr

/-- One metric entry `M[p]` (rules R46 to R59). -/
structure Metric where
  observed     : Bool
  pkt          : U64
  tei          : U64
  ccerr        : U64
  ccValid      : Bool
  lastCc       : BitVec 4
  pcrPresent   : Bool
  lastPcrValid : Bool
  lastPcr      : Pcr
  refValid     : Bool
  refPcr       : Pcr
  refWall      : U64
  winPkt       : U64
  winTei       : U64
  winCcerr     : U64
  winMaxDelta  : U64
  winMaxDrift  : U64
  perPkt       : U64
  perTei       : U64
  perCcerr     : U64
  perDeltaMs   : U64
  perDriftMs   : U64
deriving DecidableEq, Repr

/-- "Every field of every entry is 0 after reset and after CLEAR_SESSION" (rule R62). -/
def Metric.zero : Metric where
  observed     := false
  pkt          := 0
  tei          := 0
  ccerr        := 0
  ccValid      := false
  lastCc       := 0
  pcrPresent   := false
  lastPcrValid := false
  lastPcr      := 0
  refValid     := false
  refPcr       := 0
  refWall      := 0
  winPkt       := 0
  winTei       := 0
  winCcerr     := 0
  winMaxDelta  := 0
  winMaxDrift  := 0
  perPkt       := 0
  perTei       := 0
  perCcerr     := 0
  perDeltaMs   := 0
  perDriftMs   := 0

/-- One access through a host port. A register is named by its word offset, 0 to 15 (rule R30), a buffer byte
by a 24-bit index (rule R81), a record word by slot and word (rule R82). -/
inductive HostAccess where
  | regRead  (word : BitVec 4)
  | regWrite (word : BitVec 4) (v : Word)
  | bufRead  (i : BitVec 24)
  | bufWrite (i : BitVec 24) (b : Byte)
  | recRead  (slot : Nat) (word : BitVec 4)
  | recWrite (slot : Nat) (word : BitVec 4) (v : Word)
deriving DecidableEq, Repr

/-- The state of the block, and of the outside world as far as the next steps need it. -/
structure State where
  /-- The implementation parameters (rules R11 to R14); no step changes them. -/
  cfg         : Config
  /-- CTRL.EVT_EN (rule R32). -/
  evtEn       : Bool
  /-- CTRL.IRQ_EN (rule R32). -/
  irqEn       : Bool
  /-- CTRL.PCR_MODE (rule R32). -/
  pcrMode     : PcrMode
  /-- STATUS.FRAME_STATUS (rule R33). STATUS.BUSY and TICK_PENDING are `cur` and `pending`. -/
  frameStatus : FrameStatus
  /-- STATUS.USAGE_ERR, sticky (rule R33). -/
  usageErr    : Bool
  /-- STATUS.CMD_ERR, sticky (rule R33). -/
  cmdErr      : Bool
  /-- STATUS.TICK_OVERRUN, sticky (rule R33). -/
  tickOverrun : Bool
  /-- BUF_LEN[23:0] (rule R34). -/
  bufLen      : BitVec 24
  /-- RESULT_LO (rule R36). -/
  resultLo    : Word
  /-- RESULT_HI (rule R36). -/
  resultHi    : Word
  /-- REC_COUNT[15:0] (rule R37). -/
  recCount    : BitVec 16
  /-- ERR_INFO (rule R38). -/
  errInfo     : ErrInfo
  /-- Buffer memory `BUF` (rule R63): the bytes written since reset, by index. -/
  buf         : List Host.Cell
  /-- Record memory `REC` (rule R64): the words written since reset; word `w` of slot `k` is at `16 * k + w`. -/
  recs        : List (Nat × Word)
  /-- The metric table `M` (rule R45), by PID: the entries that are not all zero. -/
  metrics     : List (Nat × Metric)
  /-- The event FIFO, oldest first (rule R65). EVT_COUNT is its length (rule R39). -/
  fifo        : List Pid
  /-- `PENDING`, the PIDs a sweep has still to swap (rule R69), in rising order. -/
  pending     : List Nat
  /-- `CUR`, the accepted command word, or none (rule R70). -/
  cur         : Option Word
  /-- `DA_NEXT` (rule R70). -/
  daNext      : BitVec 16
  /-- `DA_END` (rule R70). -/
  daEnd       : BitVec 16
  /-- MODEL'S OWN: the value on the WALL input in this step (rule R66, log entry 3). -/
  wall        : U64
  /-- MODEL'S OWN: the host's accesses that have not taken effect yet, in the order the host issues them
  (rule R90, log entry 5). -/
  hostQueue   : List HostAccess
  /-- MODEL'S OWN: who moves in the next steps, as far as given (log entry 2). -/
  turns       : List Turn
  /-- MODEL'S OWN: how many steps have taken their turn from `Config.freeAgent` and `Config.freeWall`. -/
  freeTurns   : Nat
  /-- MODEL'S OWN: what the host's last read returned, if it has read (log entry 15). -/
  lastRead    : Option Word
deriving DecidableEq, Repr

/-- What stops the block. -/
inductive Fault where
  /-- FRAME, LOCATE or a host read used byte `i` of the buffer memory, which nothing has written since reset
  (rule R63, U1). Safe: no value is invented. -/
  | bufUnwritten (i : Nat)
  /-- ADD_PACKET, DISPATCH, DISPATCH_ALL or a host read used word `word` of record slot `slot`, which nothing
  has written since reset (rule R64, U1). Safe: no value is invented. -/
  | recUnwritten (slot word : Nat)
deriving DecidableEq, Repr

/-- What the model does not run. -/
inductive Refusal where
  /-- Raised by an arm of `exec` whose instruction has no meaning yet. Safe. No arm is left so. -/
  | notModelled (mnemonic : String)
deriving DecidableEq, Repr

/-- One step's outcome. -/
abbrev Out := Host.Outcome State Fault Refusal

/-- The state after reset of a block with parameters `c` (rules R74 and R390). The memories list nothing:
their content is unspecified, and reading it is a fault (rules R63 and R64). The model's own fields start
empty (log entry 14). -/
def State.resetWith (c : Config) : State where
  cfg         := c
  evtEn       := false
  irqEn       := false
  pcrMode     := .sourceExtLsb
  frameStatus := .noFrame
  usageErr    := false
  cmdErr      := false
  tickOverrun := false
  bufLen      := 0
  resultLo    := 0
  resultHi    := 0
  recCount    := 0
  errInfo     := { unitOffset := 0, code := .noError, dts := false }
  buf         := []
  recs        := []
  metrics     := []
  fifo        := []
  pending     := []
  cur         := none
  daNext      := 0
  daEnd       := 0
  wall        := 0
  hostQueue   := []
  turns       := []
  freeTurns   := 0
  lastRead    := none

/-- The machine right after reset, at the spec's default parameters. -/
def State.reset : State := State.resetWith Config.default

end Sys2Proof.Machine
end

