-- ==== Sys2Proof/Machine/Ops.lean ====
section
/-! DEFINITION. The named operations over the memories, the metric table, the pending set, the FIFO and the
result registers, which every meaning is written over. The block has no traps (rule R350): what it does
instead of taking an exception is set a sticky bit, once here for each (rules R355 and R356). -/

namespace Sys2Proof.Machine

/-! ### A memory: a list of cells by strictly rising key -/

/-- The canonical form of a memory: keys strictly rising. Nothing is held at an unlisted key, so no entry can
equal what an unlisted key reads as. -/
abbrev Memory.wf {α : Type} (m : List (Nat × α)) : Prop := m.Pairwise (fun x y => x.1 < y.1)

/-- What a memory holds at key `k`, if anything has been written there. -/
def Memory.read {α : Type} : List (Nat × α) → Nat → Option α
  | [], _ => none
  | (j, v) :: m, k => if j = k then some v else Memory.read m k

/-- Write `v` at key `k`, keeping the keys in order. -/
def Memory.write {α : Type} (k : Nat) (v : α) : List (Nat × α) → List (Nat × α)
  | [] => [(k, v)]
  | (j, u) :: m =>
    if k < j then (k, v) :: (j, u) :: m
    else if k = j then (k, v) :: m
    else (j, u) :: Memory.write k v m

/-- Forget what is held at key `k`. -/
def Memory.erase {α : Type} (k : Nat) (m : List (Nat × α)) : List (Nat × α) := m.filter (fun x => x.1 ≠ k)

/-! ### Buffer and record memory -/

/-- `BUF[i]`, or the fault of reading a byte nothing has written (rules R20 and R63). -/
def readByte (buf : List Host.Cell) (i : Nat) : Except Fault Byte :=
  match Memory.read buf i with
  | some b => .ok b
  | none => .error (.bufUnwritten i)

/-- Where word `w` of slot `k` is held. -/
def recKey (k w : Nat) : Nat := 16 * k + w

/-- `REC[k].Ww`, or the fault of reading a word nothing has written (rules R20 and R64). -/
def readRecWord (recs : List (Nat × Word)) (k w : Nat) : Except Fault Word :=
  match Memory.read recs (recKey k w) with
  | some v => .ok v
  | none => .error (.recUnwritten k w)

/-- Write `ws` into slot `k` from word `w` on. -/
def writeRecWords (k : Nat) : Nat → List Word → List (Nat × Word) → List (Nat × Word)
  | _, [], m => m
  | w, v :: ws, m => writeRecWords k (w + 1) ws (Memory.write (recKey k w) v m)

/-- `for k in 0 .. len-1: REC[k] <- list[k]`, from slot `k` on (rule R180). -/
def commitRecords : Nat → List (List Word) → List (Nat × Word) → List (Nat × Word)
  | _, [], m => m
  | k, r :: rs, m => commitRecords (k + 1) rs (writeRecWords k 0 r m)

/-! ### The metric table -/

/-- `M[p]`: an entry that is not listed is all zero (rule R62). -/
def getMetric (m : List (Nat × Metric)) (p : Nat) : Metric := (Memory.read m p).getD Metric.zero

/-- `M[p] <- e`, holding no entry that is all zero. -/
def putMetric (p : Nat) (e : Metric) (m : List (Nat × Metric)) : List (Nat × Metric) :=
  if e = Metric.zero then Memory.erase p m else Memory.write p e m

/-- The canonical form of the metric table: PIDs strictly rising, and no entry all zero. -/
abbrev Memory.metricsWf (m : List (Nat × Metric)) : Prop := Memory.wf m ∧ ∀ x ∈ m, x.2 ≠ Metric.zero

/-- `M[p]` in state `s`. -/
def State.metric (s : State) (p : Pid) : Metric := getMetric s.metrics p.toNat

/-- `M[p] <- e` (rule R60). -/
def setMetric (p : Pid) (e : Metric) (s : State) : State :=
  { s with metrics := putMetric p.toNat e s.metrics }

/-! ### The pending set -/

/-- The canonical form of a set of PIDs: strictly rising. -/
abbrev pidSetWf (l : List Nat) : Prop := l.Pairwise (· < ·)

/-- Add one PID to a set. -/
def addPid (p : Nat) : List Nat → List Nat
  | [] => [p]
  | q :: l => if p < q then p :: q :: l else if p = q then q :: l else q :: addPid p l

/-- The union of two sets of PIDs. -/
def unionPids (ps l : List Nat) : List Nat := ps.foldr addPid l

/-- `{ p : M[p].observed == 1 }` (rule R312). -/
def observedPids (m : List (Nat × Metric)) : List Nat := (m.filter (fun x => x.2.observed)).map (·.1)

/-- `PENDING <- PENDING \ {p}` (rule R314). -/
def removePending (p : Pid) (s : State) : State := { s with pending := s.pending.filter (· ≠ p.toNat) }

/-! ### Results, events, and the command in progress -/

/-- RESULT_LO <- v[31:0]; RESULT_HI <- v[63:32] (rules R36 and R84). -/
def setResult (v : U64) (s : State) : State :=
  { s with resultLo := v.extractLsb' 0 32, resultHi := v.extractLsb' 32 32 }

/-- Push a PID onto the event FIFO (rule R65). -/
def pushEvent (p : Pid) (s : State) : State := { s with fifo := s.fifo ++ [p] }

/-- The command in progress is done: `CUR` is none again (rule R70). -/
def complete (s : State) : State := { s with cur := none }

/-- The command with word `w` stays in progress (rules R70 and R256). -/
def keepBusy (w : Word) (s : State) : State := { s with cur := some w }

/-- STATUS.BUSY (rule R70). -/
def busy (s : State) : Bool := s.cur.isSome

/-! ### What the block does in place of an exception -/

/-- An illegal command word: "sets the sticky bit STATUS.CMD_ERR <- 1 and changes nothing else" (rule R356). -/
def illegalCommand (s : State) : State := { s with cmdErr := true }

/-- A usage error: "sets the sticky bit STATUS.USAGE_ERR <- 1. It changes nothing else" (rule R355). -/
def usageError (s : State) : State := { s with usageErr := true }

/-- The larger of two values read as unsigned numbers: the spec's `max` (rule R19). -/
def umax (a b : U64) : U64 := if a ≤ b then b else a

/-- Lift a read that can fault into a step's outcome. -/
def orFault {α : Type} (x : Except Fault α) (k : α → Out) : Out :=
  match x with
  | .ok a => k a
  | .error f => .fault f

end Sys2Proof.Machine
end

