-- ==== Sys2Proof/Machine/Flags.lean ====
section
/-! DEFINITION. The registers as words (rules R30 to R43): what a host reads from the fields `State` holds, and
what a write of CTRL, STATUS or BUF_LEN stores. The block has "no arithmetic condition codes" (rule R72): its
flags are the status bits here and the validity bits of a metric entry. -/

namespace Sys2Proof.Machine

/-- PCR_MODE's two bits (rule R32). -/
def pcrModeBits : PcrMode → BitVec 2
  | .sourceExtLsb => 0#2
  | .standard => 1#2
  | .sourceBaseLsb => 2#2

/-- What a write of PCR_MODE stores: "Writing 3 stores 0" (rules R32 and R336). -/
def pcrModeOf (v : BitVec 2) : PcrMode :=
  if v = 1#2 then .standard else if v = 2#2 then .sourceBaseLsb else .sourceExtLsb

/-- FRAME_STATUS's two bits (rule R33). -/
def frameStatusBits : FrameStatus → BitVec 2
  | .noFrame => 0#2
  | .ok => 1#2
  | .noSync => 2#2
  | .framingError => 3#2

/-- ERR_CODE's four bits (rule R352). -/
def frameErrBits : FrameErr → BitVec 4
  | .noError => 0#4
  | .afSize => 1#4
  | .ptsDtsFlag => 2#4
  | .tsCode => 3#4
  | .tsMarker => 4#4

/-- STATUS.TICK_PENDING = (PENDING ≠ ∅) (rule R69). -/
def tickPending (s : State) : Bool := !s.pending.isEmpty

/-- ID (rule R31). -/
def idWord : Word := 0x54534131#32

/-- CTRL as read (rule R32). -/
def ctrlWord (s : State) : Word :=
  0#28 ++ pcrModeBits s.pcrMode ++ BitVec.ofBool s.irqEn ++ BitVec.ofBool s.evtEn

/-- STATUS as read (rule R33). -/
def statusWord (s : State) : Word :=
  0#21 ++ BitVec.ofBool s.tickOverrun ++ BitVec.ofBool s.cmdErr ++ BitVec.ofBool s.usageErr ++ 0#4 ++
    BitVec.ofBool (tickPending s) ++ BitVec.ofBool (busy s) ++ frameStatusBits s.frameStatus

/-- ERR_INFO as read (rule R38). -/
def errInfoWord (e : ErrInfo) : Word :=
  0#3 ++ BitVec.ofBool e.dts ++ frameErrBits e.code ++ e.unitOffset

/-- EVT_COUNT as read (rule R39). -/
def evtCountWord (s : State) : Word := 0#24 ++ BitVec.ofNat 8 s.fifo.length

/-- PARAMS as read (rule R41). -/
def paramsWord (c : Config) : Word := 0#8 ++ BitVec.ofNat 8 c.evtDepth ++ BitVec.ofNat 16 c.recMax

/-- BUF_MAX as read (rule R42). -/
def bufMaxWord (c : Config) : Word := BitVec.ofNat 32 c.bufMax

/-- The IRQ output (rule R361). -/
def irq (s : State) : Bool := s.irqEn && !s.fifo.isEmpty

/-- `CTRL <- v` (rule R336). -/
def writeCtrl (v : Word) (s : State) : State :=
  { s with evtEn := v.getLsbD 0, irqEn := v.getLsbD 1, pcrMode := pcrModeOf (v.extractLsb' 2 2) }

/-- A write of STATUS: "For each of bits 8, 9 and 10, writing 1 clears the bit and writing 0 leaves it"
(rule R337). -/
def writeStatus (v : Word) (s : State) : State :=
  { s with
    usageErr    := s.usageErr && !v.getLsbD 8
    cmdErr      := s.cmdErr && !v.getLsbD 9
    tickOverrun := s.tickOverrun && !v.getLsbD 10 }

/-- `BUF_LEN <- v` stores `min(v[23:0], BUF_MAX)` (rule R34). -/
def writeBufLen (v : Word) (s : State) : State :=
  { s with bufLen := BitVec.ofNat 24 (min (v.extractLsb' 0 24).toNat s.cfg.bufMax) }

end Sys2Proof.Machine
end

