-- ==== Sys2Proof/Machine/HostPort.lean ====
section
/-! DEFINITION. The host's accesses through the register, buffer and record ports, but for the write of CMD,
which runs a command (rules R30 to R44 and R80 to R86). -/

namespace Sys2Proof.Machine

/-- The registers of rule R30, and the reserved offsets. -/
inductive Reg where
  | id | ctrl | status | bufLen | cmd | resultLo | resultHi | recCount | errInfo | evtCount | evtPop | params
  | bufMax | reserved
deriving DecidableEq, Repr

/-- The register at a word offset: byte offset 4 times as large (rule R30). -/
def regAt (word : BitVec 4) : Reg :=
  match word.toNat with
  | 0 => .id
  | 1 => .ctrl
  | 2 => .status
  | 3 => .bufLen
  | 4 => .cmd
  | 5 => .resultLo
  | 6 => .resultHi
  | 7 => .recCount
  | 8 => .errInfo
  | 9 => .evtCount
  | 10 => .evtPop
  | 11 => .params
  | 12 => .bufMax
  | _ => .reserved

/-- What a read of EVT_POP returns (rule R40). -/
def evtPopWord : List Pid → Word
  | [] => 0
  | p :: _ => 1#1 ++ 0#18 ++ p

/-- What a read of a register returns (rules R31 to R43). CMD and the reserved offsets read 0. -/
def regValue (s : State) : Reg → Word
  | .id => idWord
  | .ctrl => ctrlWord s
  | .status => statusWord s
  | .bufLen => 0#8 ++ s.bufLen
  | .cmd => 0
  | .resultLo => s.resultLo
  | .resultHi => s.resultHi
  | .recCount => 0#16 ++ s.recCount
  | .errInfo => errInfoWord s.errInfo
  | .evtCount => evtCountWord s
  | .evtPop => evtPopWord s.fifo
  | .params => paramsWord s.cfg
  | .bufMax => bufMaxWord s.cfg
  | .reserved => 0

/-- A host read returned `v`. -/
def returnRead (v : Word) (s : State) : State := { s with lastRead := some v }

/-- A read of EVT_POP removes the oldest event (rule R40); no other read changes state (rule R86). -/
def popIfEvtPop (r : Reg) (s : State) : State :=
  match r with
  | .evtPop => { s with fifo := s.fifo.drop 1 }
  | _ => s

/-- A register read. -/
def readReg (r : Reg) (s : State) : State := returnRead (regValue s r) (popIfEvtPop r s)

/-- A register write other than of CMD: CTRL, STATUS and BUF_LEN store, every other register ignores it
(rules R30 and R43). -/
def writeReg (r : Reg) (v : Word) (s : State) : State :=
  match r with
  | .ctrl => writeCtrl v s
  | .status => writeStatus v s
  | .bufLen => writeBufLen v s
  | _ => s

/-- A buffer-port read: "If i >= BUF_MAX, ... a read returns 0" (rule R81). -/
def readBuf (i : BitVec 24) (s : State) : Out :=
  if i.toNat < s.cfg.bufMax then
    orFault (readByte s.buf i.toNat) (fun b => .next (returnRead (b.setWidth 32) s))
  else .next (returnRead 0 s)

/-- A buffer-port write: "If i >= BUF_MAX, a write is ignored" (rule R81). -/
def writeBuf (i : BitVec 24) (b : Byte) (s : State) : State :=
  if i.toNat < s.cfg.bufMax then { s with buf := Memory.write i.toNat b s.buf } else s

/-- A record-port read: "If k >= REC_MAX, ... a read returns 0" (rule R82). -/
def readRec (slot : Nat) (word : BitVec 4) (s : State) : Out :=
  if slot < s.cfg.recMax then
    orFault (readRecWord s.recs slot word.toNat) (fun v => .next (returnRead v s))
  else .next (returnRead 0 s)

/-- A record-port write: "If k >= REC_MAX, a write is ignored" (rule R82). -/
def writeRec (slot : Nat) (word : BitVec 4) (v : Word) (s : State) : State :=
  if slot < s.cfg.recMax then { s with recs := Memory.write (recKey slot word.toNat) v s.recs } else s

/-- The accesses that are held while BUSY = 1: writes of CMD, BUF_LEN, the buffer memory and the record memory
(rule R44). -/
def heldWhileBusy : HostAccess → Bool
  | .regRead _ => false
  | .regWrite word _ => regAt word == .cmd || regAt word == .bufLen
  | .bufRead _ => false
  | .bufWrite _ _ => true
  | .recRead _ _ => false
  | .recWrite _ _ _ => true

/-- One host access. A write of CMD issues a command (rule R35), which `run` runs. -/
def hostAccess (run : Word → State → Out) (a : HostAccess) (s : State) : Out :=
  match a with
  | .regRead word => .next (readReg (regAt word) s)
  | .regWrite word v => if regAt word = .cmd then run v s else .next (writeReg (regAt word) v s)
  | .bufRead i => readBuf i s
  | .bufWrite i b => .next (writeBuf i b s)
  | .recRead slot word => readRec slot word s
  | .recWrite slot word v => .next (writeRec slot word v s)

end Sys2Proof.Machine
end

