-- ==== Sys2Proof/Machine/Windowing.lean ====
section
/-! DEFINITION. Period windowing: the request, the per-PID swap, and the WINDOW_TICK command
(spec/44_windowing.md). -/

namespace Sys2Proof.Machine

/-- `WindowRequest()` (rules R312 and R313). -/
def windowRequest (s : State) : State :=
  { s with tickOverrun := s.tickOverrun || !s.pending.isEmpty
           pending := unionPids (observedPids s.metrics) s.pending }

/-- What `Swap(p)` does to the entry (rule R316). -/
def swapMetric (e : Metric) : Metric :=
  { e with
    perPkt := e.winPkt, perTei := e.winTei, perCcerr := e.winCcerr
    perDeltaMs := BitVec.ofNat 64 (e.winMaxDelta.toNat / pcrTicksPerMs)
    perDriftMs := e.winMaxDrift
    winPkt := 0, winTei := 0, winCcerr := 0, winMaxDelta := 0, winMaxDrift := 0 }

/-- `Swap(p)`, then `PENDING <- PENDING \ {p}` (rules R314 and R316). -/
def swapStep (p : Pid) (s : State) : State := removePending p (setMetric p (swapMetric (s.metric p)) s)

/-- WINDOW_TICK (rule R310). -/
def execWindowTick (s : State) : Out := .next (windowRequest s)

end Sys2Proof.Machine
end

