-- ==== Sys2Proof/Machine/Agents.lean ====
section
/-! DEFINITION. Who moves, and what a move of each agent is (rules R21, R68, R87 and R90). Running a command is
`run`, which Machine/Step.lean supplies. An agent that has no enabled step when its turn comes leaves the state
as it is (log entry 4). -/

namespace Sys2Proof.Machine

/-- The turn this step takes: the first the state lists, or a free one. It also puts the turn's wall-clock
value on the WALL input. -/
def takeTurn (s : State) : Agent × State :=
  match s.turns with
  | t :: ts => (t.agent, { s with turns := ts, wall := t.wall })
  | [] =>
    (Config.freeAgent s.freeTurns,
     { s with wall := Config.freeWall s.freeTurns, freeTurns := s.freeTurns + 1 })

/-- The HOST's next access, unless it has none or it is a write that BUSY holds (rules R35, R44 and R403). -/
def hostTurn (run : Word → State → Out) (s : State) : Out :=
  match s.hostQueue with
  | [] => .next s
  | a :: q => if busy s && heldWhileBusy a then .next s else hostAccess run a { s with hostQueue := q }

/-- The ENGINE's next step on the command in progress (rule R70). -/
def engineTurn (run : Word → State → Out) (s : State) : Out :=
  match s.cur with
  | none => .next s
  | some w => run w s

/-- The SWEEPER's swap of PID `p`, which is enabled while `p` is pending (rule R314). -/
def sweeperTurn (p : Pid) (s : State) : State := if p.toNat ∈ s.pending then swapStep p s else s

/-- The reset input: every register, the metric table, the FIFO, `PENDING` and the engine at their reset
values, and the memories unwritten (rules R390, R391 and R393). The outside world goes on. -/
def resetTurn (s : State) : State :=
  { State.resetWith s.cfg with
    wall := s.wall, hostQueue := s.hostQueue, turns := s.turns, freeTurns := s.freeTurns,
    lastRead := s.lastRead }

/-- The step of agent `a`. -/
def agentStep (run : Word → State → Out) (a : Agent) (s : State) : Out :=
  match a with
  | .host => hostTurn run s
  | .engine => engineTurn run s
  | .sweeper p => .next (sweeperTurn p s)
  | .tickSrc => .next (windowRequest s)
  | .reset => .next (resetTurn s)

end Sys2Proof.Machine
end

