-- ==== Sys2Proof/Machine/Locator.lean ====
section
/-! DEFINITION. The Sync Locator and the LOCATE command (spec/40_sync_locator.md). -/

namespace Sys2Proof.Machine

/-- One confirmation: an offset at or past `n` is out of bounds and confirms, any other must hold a sync byte. -/
def confirms (buf : List Host.Cell) (n j : Nat) : Except Fault Bool :=
  if j < n then (do let b ← readByte buf j; return b == syncByte) else .ok true

/-- The confirmation loop of rule R161 at candidate `i`: every offset of `ds` that lies below `n` must hold a
sync byte. Each in-bounds byte is read, as the loop reads it (log entry 10). -/
def syncConfirmed (buf : List Host.Cell) (n i : Nat) : List Nat → Except Fault Bool
  | [] => .ok true
  | d :: ds => do
    let here ← confirms buf n (i + d)
    let rest ← syncConfirmed buf n i ds
    return here && rest

/-- The scan of rule R161: the next `k` candidates from `i` on. "The first index satisfying all in-bounds
checks is returned immediately". -/
def locateFrom (buf : List Host.Cell) (n : Nat) : Nat → Nat → Except Fault (Option Nat)
  | 0, _ => .ok none
  | k + 1, i => do
    let b ← readByte buf i
    if b = syncByte then
      let ok ← syncConfirmed buf n i syncConfirmOffsets
      if ok then return some i else locateFrom buf n k (i + 1)
    else locateFrom buf n k (i + 1)

/-- `Locate(n, start)` (rule R161): `none` is NOT_FOUND. -/
def locate (buf : List Host.Cell) (n start : Nat) : Except Fault (Option Nat) :=
  if n < tsPacketSize then .ok none else locateFrom buf n (n - start) start

/-- The value of RESULT_LO, with RESULT_HI 0, for a locator result (rules R160 and R165). -/
def locateResult : Option Nat → U64
  | none => 0xFFFFFFFF#64
  | some i => BitVec.ofNat 64 i

/-- LOCATE start (rule R160). -/
def execLocate (start : BitVec 24) (s : State) : Out :=
  orFault (locate s.buf s.bufLen.toNat start.toNat) (fun r => .next (setResult (locateResult r) s))

end Sys2Proof.Machine
end

