-- ==== Sys2Proof/Syntax.lean ====
section
/-! DEFINITION. The nine commands of spec/opcode_table.json (rule R151), one constructor each. The operands
are the fields of rule R153, taken straight from their bits. -/

namespace Sys2Proof

/-- The field READ_METRIC reads: the names of rule R332's table. Codes 17 to 31 name no field. -/
inductive MetricField where
  | state | pkt | tei | ccerr
  | perPkt | perTei | perCcerr | perDeltaMs | perDriftMs
  | lastPcr | refPcr | refWall
  | winPkt | winTei | winCcerr | winMaxDelta | winMaxDrift
deriving DecidableEq, Repr

/-- The command words, "the instructions of this spec" (rule R3). -/
inductive Instr where
  /-- NOP (rule R330). -/
  | nop
  /-- LOCATE start (rule R160). -/
  | locate (start : BitVec 24)
  /-- FRAME (rule R180). -/
  | frame
  /-- ADD_PACKET rec, pid (rule R240). -/
  | addPacket (slot : BitVec 12) (pid : Pid)
  /-- DISPATCH rec (rule R258). -/
  | dispatch (slot : BitVec 12)
  /-- DISPATCH_ALL (rule R260). -/
  | dispatchAll
  /-- WINDOW_TICK (rule R310). -/
  | windowTick
  /-- READ_METRIC pid, field (rule R332). -/
  | readMetric (field : MetricField) (pid : Pid)
  /-- CLEAR_SESSION (rule R335). -/
  | clearSession
deriving DecidableEq, Repr

end Sys2Proof
end

