-- ==== Sys2Proof/WellFormed.lean ====
section
/-! DEFINITION. The operand ranges of rule R152 that the syntax does not already enforce. A FIELD code above
16 is not a `MetricField`, so the slot index is the one operand left to check. -/

namespace Sys2Proof

/-- "It is ADD_PACKET or DISPATCH with REC >= REC_MAX" makes a word illegal (rule R152). -/
def slotInRange (c : Config) (slot : BitVec 12) : Bool := slot.toNat < c.recMax

/-- The commands that some legal word of a block with parameters `c` stands for. -/
def Instr.wellFormed (c : Config) : Instr → Bool
  | .nop => true
  | .locate _ => true
  | .frame => true
  | .addPacket slot _ => slotInRange c slot
  | .dispatch slot => slotInRange c slot
  | .dispatchAll => true
  | .windowTick => true
  | .readMetric _ _ => true
  | .clearSession => true

end Sys2Proof
end

