-- ==== Sys2Proof/Decode.lean ====
section
/-! DEFINITION. From a command word to a command, or to the reason it is illegal (rules R150 to R154), and
after it the encoder, written from the same table. The decoder "compares `c & mask` with `match`" row by row
and then checks the operand ranges (rule R154). -/

namespace Sys2Proof

/-- Why a word is no command (rule R152). -/
inductive Reject where
  /-- OPC 0x9 to 0xF. -/
  | reservedOpcode
  /-- OPC 0x0 to 0x8 with a reserved bit set. -/
  | reservedBits
  /-- ADD_PACKET or DISPATCH with REC >= REC_MAX. -/
  | recOutOfRange
  /-- READ_METRIC with FIELD > 16. -/
  | fieldReserved
deriving DecidableEq, Repr

/-- A name for each row of rule R151. -/
inductive Mnemonic where
  | nop | locate | frame | addPacket | dispatch | dispatchAll | windowTick | readMetric | clearSession
deriving DecidableEq, Repr

/-- One row of rule R151: the bits a word must have, and where it must have them. -/
structure OpcodeRow where
  name    : Mnemonic
  pattern : Word
  mask    : Word
deriving DecidableEq, Repr

/-- Rule R151's table, in its order. -/
def opcodeRows : List OpcodeRow :=
  [ ⟨.nop,          0x00000000#32, 0xFFFFFFFF#32⟩,
    ⟨.locate,       0x10000000#32, 0xFF000000#32⟩,
    ⟨.frame,        0x20000000#32, 0xFFFFFFFF#32⟩,
    ⟨.addPacket,    0x30000000#32, 0xF000E000#32⟩,
    ⟨.dispatch,     0x40000000#32, 0xF000FFFF#32⟩,
    ⟨.dispatchAll,  0x50000000#32, 0xFFFFFFFF#32⟩,
    ⟨.windowTick,   0x60000000#32, 0xFFFFFFFF#32⟩,
    ⟨.readMetric,   0x70000000#32, 0xFFE0E000#32⟩,
    ⟨.clearSession, 0x80000000#32, 0xFFFFFFFF#32⟩ ]

/-- Does word `w` have row `r`'s bits? -/
def OpcodeRow.fits (r : OpcodeRow) (w : Word) : Bool := w &&& r.mask == r.pattern

/-- OPC, bits [31:28] (rule R150). -/
def opcOf (w : Word) : BitVec 4 := w.extractLsb' 28 4

/-- START = c[23:0] (rule R153). -/
def startOf (w : Word) : BitVec 24 := w.extractLsb' 0 24

/-- REC = c[27:16] (rule R153). -/
def slotOf (w : Word) : BitVec 12 := w.extractLsb' 16 12

/-- PID = c[12:0] (rule R153). -/
def pidOf (w : Word) : Pid := w.extractLsb' 0 13

/-- FIELD = c[20:16] (rule R153). -/
def fieldOf (w : Word) : BitVec 5 := w.extractLsb' 16 5

/-- Rule R332's field codes, in order: code `n` is the `n`-th entry. -/
def metricFields : List MetricField :=
  [ .state, .pkt, .tei, .ccerr, .perPkt, .perTei, .perCcerr, .perDeltaMs, .perDriftMs,
    .lastPcr, .refPcr, .refWall, .winPkt, .winTei, .winCcerr, .winMaxDelta, .winMaxDrift ]

/-- The field a code names; codes 17 to 31 name none (rule R332). -/
def metricFieldOf (code : BitVec 5) : Option MetricField := metricFields[code.toNat]?

/-- The command with slot operand `slot`, if the slot is in range (rule R152). -/
def checkSlot (c : Config) (slot : BitVec 12) (i : Instr) : Except Reject Instr :=
  if slotInRange c slot then .ok i else .error .recOutOfRange

/-- The operands of a word that fits the row named `m`, and their ranges (rules R152 to R154). -/
def decodeOperands (c : Config) (m : Mnemonic) (w : Word) : Except Reject Instr :=
  match m with
  | .nop => .ok .nop
  | .locate => .ok (.locate (startOf w))
  | .frame => .ok .frame
  | .addPacket => checkSlot c (slotOf w) (.addPacket (slotOf w) (pidOf w))
  | .dispatch => checkSlot c (slotOf w) (.dispatch (slotOf w))
  | .dispatchAll => .ok .dispatchAll
  | .windowTick => .ok .windowTick
  | .readMetric =>
    match metricFieldOf (fieldOf w) with
    | some f => .ok (.readMetric f (pidOf w))
    | none => .error .fieldReserved
  | .clearSession => .ok .clearSession

/-- The decoder (rule R154): total, and it says why a word is illegal. -/
def decode (c : Config) (w : Word) : Except Reject Instr :=
  match opcodeRows.find? (fun r => r.fits w) with
  | some r => decodeOperands c r.name w
  | none => .error (if 9 ≤ (opcOf w).toNat then .reservedOpcode else .reservedBits)

/-- The instruction an opcode-table word of `nbits` bits stands for, at the spec's default parameters. A
command is one 32-bit word and has no byte order of its own (rules R84 and R150). -/
def decodeTableWord (nbits w : Nat) : Option Instr :=
  match decode Config.default (BitVec.ofNat 32 (w % 2 ^ nbits)) with
  | .ok i => some i
  | .error _ => none

/-- The code of a field: rule R332's table read the other way. -/
def metricFieldCode : MetricField → BitVec 5
  | .state => 0#5
  | .pkt => 1#5
  | .tei => 2#5
  | .ccerr => 3#5
  | .perPkt => 4#5
  | .perTei => 5#5
  | .perCcerr => 6#5
  | .perDeltaMs => 7#5
  | .perDriftMs => 8#5
  | .lastPcr => 9#5
  | .refPcr => 10#5
  | .refWall => 11#5
  | .winPkt => 12#5
  | .winTei => 13#5
  | .winCcerr => 14#5
  | .winMaxDelta => 15#5
  | .winMaxDrift => 16#5

/-- The command word of a command: rule R151's bit patterns, field by field, bit 31 first. -/
def encode : Instr → Word
  | .nop => 0x0#4 ++ 0#28
  | .locate start => 0x1#4 ++ 0#4 ++ start
  | .frame => 0x2#4 ++ 0#28
  | .addPacket slot pid => 0x3#4 ++ slot ++ 0#3 ++ pid
  | .dispatch slot => 0x4#4 ++ slot ++ 0#16
  | .dispatchAll => 0x5#4 ++ 0#28
  | .windowTick => 0x6#4 ++ 0#28
  | .readMetric field pid => 0x7#4 ++ 0#7 ++ metricFieldCode field ++ 0#3 ++ pid
  | .clearSession => 0x8#4 ++ 0#28

end Sys2Proof
end

