-- ==== Sys2Proof/Machine/Operands.lean ====
section
/-! DEFINITION. The operand forms of the commands: a record slot, read as the fields rule R141 lists, and a
field of a metric entry, by rule R332's table. -/

namespace Sys2Proof.Machine

/-- The record fields the packet commands read, and no others (rule R141). -/
structure RecView where
  tei        : Bool
  afcPl      : Bool
  cc         : BitVec 4
  pid        : Pid
  afAttached : Bool
  disc       : Bool
  pcrFlag    : Bool
  pcrValid   : Bool
  pcr        : Pcr
deriving DecidableEq, Repr

/-- The fields of rule R141 in the words of a slot, at the bits of rules R131 to R133. -/
def recViewOf (w0 w1 w2 w3 : Word) : RecView where
  tei        := w0.getLsbD 1
  afcPl      := w0.getLsbD 7
  cc         := w0.extractLsb' 8 4
  pid        := w0.extractLsb' 16 13
  afAttached := w0.getLsbD 29
  disc       := w1.getLsbD 15
  pcrFlag    := w1.getLsbD 12
  pcrValid   := w1.getLsbD 16
  pcr        := w3.extractLsb' 0 10 ++ w2

/-- `r <- REC[k]` of rules R240, R258 and R260: the four words that hold rule R141's fields (log entry 11). -/
def readRecord (recs : List (Nat × Word)) (k : Nat) : Except Fault RecView := do
  let w0 ← readRecWord recs k 0
  let w1 ← readRecWord recs k 1
  let w2 ← readRecWord recs k 2
  let w3 ← readRecWord recs k 3
  return recViewOf w0 w1 w2 w3

/-- The buffer bytes that are a record's payload, as first index and count: `BUF[UNIT_OFFSET + PAY_OFF ..]`, from
the record's W9 and W10 (rules R136, R137 and R140). -/
def payloadRange (w9 w10 : Word) : Nat × Nat :=
  ((w9.extractLsb' 0 24).toNat + (w10.extractLsb' 0 8).toNat, (w10.extractLsb' 8 8).toNat)

/-- The buffer bytes that are a record's raw PES header, as first index and count (rule R140). -/
def pesRange (w9 w10 : Word) : Nat × Nat :=
  ((w9.extractLsb' 0 24).toNat + (w10.extractLsb' 16 8).toNat, (w10.extractLsb' 24 8).toNat)

/-- Field 0, STATE, of rule R332: [12:0] PID, [16] observed, [17] pcr_present, [18] cc_valid, [23:20] last_cc,
[24] last_pcr_valid, [25] ref_valid, other bits 0. -/
def stateField (e : Metric) (p : Pid) : U64 :=
  0#38 ++ BitVec.ofBool e.refValid ++ BitVec.ofBool e.lastPcrValid ++ e.lastCc ++ 0#1 ++
    BitVec.ofBool e.ccValid ++ BitVec.ofBool e.pcrPresent ++ BitVec.ofBool e.observed ++ 0#3 ++ p

/-- `Field(e, PID, FIELD)` of rule R332. -/
def metricField (e : Metric) (p : Pid) : MetricField → U64
  | .state => stateField e p
  | .pkt => e.pkt
  | .tei => e.tei
  | .ccerr => e.ccerr
  | .perPkt => e.perPkt
  | .perTei => e.perTei
  | .perCcerr => e.perCcerr
  | .perDeltaMs => e.perDeltaMs
  | .perDriftMs => e.perDriftMs
  | .lastPcr => e.lastPcr.setWidth 64
  | .refPcr => e.refPcr.setWidth 64
  | .refWall => e.refWall
  | .winPkt => e.winPkt
  | .winTei => e.winTei
  | .winCcerr => e.winCcerr
  | .winMaxDelta => e.winMaxDelta
  | .winMaxDrift => e.winMaxDrift

end Sys2Proof.Machine
end

