-- ==== Sys2Proof/Machine/Framer.lean ====
section
/-! DEFINITION. The Packet Framer and the FRAME command (spec/41_packet_framer.md), over the TS unit and the
packet record of spec/30_encoding.md. An absent adaptation field, PES header or payload is absent here, not
zeros (rule R139); `recordWords` gives it the words rules R132 to R137 fix. -/

namespace Sys2Proof.Machine

/-- A decoded adaptation field (rule R132); `pcr` is present when the framer decoded a value (rule R195). -/
structure AfPart where
  fieldSize : Byte
  flags     : Byte
  pcr       : Option Pcr
deriving DecidableEq, Repr

/-- A decoded PES header (rules R134, R135 and R137). -/
structure PesPart where
  startCode : BitVec 16
  hdl       : Byte
  ptsDts    : BitVec 2
  pts       : Option (BitVec 33)
  dts       : Option (BitVec 33)
  off       : Byte
  len       : Byte
deriving DecidableEq, Repr

/-- Where a record's payload lies in its unit (rule R137). -/
structure PayloadPart where
  off : Byte
  len : Byte
deriving DecidableEq, Repr

/-- The decoded form of one unit (rules R24 and R130 to R139). -/
structure UnitRecord where
  syncValid  : Bool
  tei        : Bool
  pusi       : Bool
  prio       : Bool
  sc         : BitVec 2
  afcAf      : Bool
  afcPl      : Bool
  cc         : BitVec 4
  teiHdr     : Bool
  pid        : Pid
  af         : Option AfPart
  pes        : Option PesPart
  payload    : Option PayloadPart
  unitOffset : BitVec 24
deriving DecidableEq, Repr

/-- What ends the decoding of a buffer: a framing-fatal error of the unit at `unit` (rule R216), or the use of
a byte nothing has written. -/
inductive FrameStop where
  | fatal (code : FrameErr) (dts : Bool) (unit : Nat)
  | fault (f : Fault)
deriving DecidableEq, Repr

/-- What the PES probe finds (rules R201 to R210). -/
inductive PesProbe where
  /-- No PES header starts here (rules R201 and R202). -/
  | absent
  /-- The prefix is there, but the header or its timestamps do not fit (rules R203 and R206). -/
  | short
  /-- A PES header (rule R210). -/
  | attached (p : PesPart)
deriving DecidableEq, Repr

/-! ### The words of a record -/

/-- A timestamp as 64 bits: −1 when absent (rules R118 and R135). -/
def timestampBits : Option (BitVec 33) → U64
  | none => BitVec.allOnes 64
  | some t => t.setWidth 64

/-- W0 (rule R131). -/
def recordW0 (r : UnitRecord) : Word :=
  BitVec.ofBool r.payload.isSome ++ BitVec.ofBool r.pes.isSome ++ BitVec.ofBool r.af.isSome ++ r.pid ++ 0#3 ++
    BitVec.ofBool r.teiHdr ++ r.cc ++ BitVec.ofBool r.afcPl ++ BitVec.ofBool r.afcAf ++ r.sc ++
    BitVec.ofBool r.prio ++ BitVec.ofBool r.pusi ++ BitVec.ofBool r.tei ++ BitVec.ofBool r.syncValid

/-- W1 (rule R132). -/
def recordW1 : Option AfPart → Word
  | none => 0
  | some a => 0#15 ++ BitVec.ofBool a.pcr.isSome ++ a.flags ++ a.fieldSize

/-- The PCR of W2 and W3, 0 when the framer decoded none (rule R133). -/
def recordPcr (af : Option AfPart) : Pcr := (af.bind (·.pcr)).getD 0

/-- W4 (rule R134). -/
def recordW4 : Option PesPart → Word
  | none => 0
  | some p => 0#6 ++ p.ptsDts ++ p.hdl ++ p.startCode

/-- W10 (rule R137). -/
def recordW10 (pes : Option PesPart) (pay : Option PayloadPart) : Word :=
  (match pes with | none => 0#16 | some p => p.len ++ p.off) ++
  (match pay with | none => 0#16 | some q => q.len ++ q.off)

/-- The sixteen words of a record slot (rule R130). -/
def recordWords (r : UnitRecord) : List Word :=
  let pts := timestampBits (r.pes.bind (·.pts))
  let dts := timestampBits (r.pes.bind (·.dts))
  [ recordW0 r, recordW1 r.af,
    (recordPcr r.af).extractLsb' 0 32, 0#22 ++ (recordPcr r.af).extractLsb' 32 10,
    recordW4 r.pes,
    pts.extractLsb' 0 32, pts.extractLsb' 32 32, dts.extractLsb' 0 32, dts.extractLsb' 32 32,
    0#8 ++ r.unitOffset, recordW10 r.pes r.payload, 0, 0, 0, 0, 0 ]

/-! ### Decoding one unit -/

/-- `b[j]` of the unit at buffer offset `o` (rule R110). -/
def unitByte (buf : List Host.Cell) (o j : Nat) : Except FrameStop Byte :=
  match readByte buf (o + j) with
  | .ok b => .ok b
  | .error f => .error (.fault f)

/-- The record of the header alone, from the unit's first four bytes (rules R111, R186 and R188). -/
def headerRecord (o : Nat) (b0 b1 b2 b3 : Byte) : UnitRecord where
  syncValid  := b0 == syncByte
  tei        := b1.getLsbD 7
  pusi       := b1.getLsbD 6
  prio       := b1.getLsbD 5
  sc         := b3.extractLsb' 6 2
  afcAf      := b3.getLsbD 5
  afcPl      := b3.getLsbD 4
  cc         := b3.extractLsb' 0 4
  teiHdr     := b1.getLsbD 7
  pid        := b1.extractLsb' 0 5 ++ b2
  af         := none
  pes        := none
  payload    := none
  unitOffset := BitVec.ofNat 24 o

/-- The gate: "AFC_PL = 1 and TEI_HDR = 0 and PID ≠ 0x1FFF" (rule R187). -/
def gated (r : UnitRecord) : Bool := r.afcPl && !r.teiHdr && r.pid != nullPid

/-- `PcrRebuild(p[0..5], mode)` (rule R196), from the layout of rule R113. -/
def pcrRebuild (mode : PcrMode) (p0 p1 p2 p3 p4 p5 : Byte) : Pcr :=
  let base : BitVec 33 := p0 ++ p1 ++ p2 ++ p3 ++ p4.extractLsb' 7 1
  let ext : BitVec 9 := p4.extractLsb' 0 1 ++ p5
  let ext := match mode with | .sourceExtLsb => ext &&& 0x1FE#9 | _ => ext
  let base := match mode with | .sourceBaseLsb => base &&& ~~~1#33 | _ => base
  BitVec.ofNat 42 (base.toNat * 300 + ext.toNat)

/-- The flags byte of an adaptation field of length `l`: absent, and 0, when `l` is 0 (rule R193). -/
def afFlags (buf : List Host.Cell) (o : Nat) (l : Byte) : Except FrameStop Byte :=
  if l.toNat ≥ 1 then unitByte buf o 5 else .ok 0

/-- The PCR of an adaptation field of length `l` with these flags: decoded only if PCR_FLAG = 1 and the six
bytes lie in the field (rule R195). -/
def afPcr (buf : List Host.Cell) (mode : PcrMode) (o : Nat) (l flags : Byte) : Except FrameStop (Option Pcr) :=
  if flags.getLsbD 4 && l.toNat ≥ 7 then do
    let p0 ← unitByte buf o 6
    let p1 ← unitByte buf o 7
    let p2 ← unitByte buf o 8
    let p3 ← unitByte buf o 9
    let p4 ← unitByte buf o 10
    let p5 ← unitByte buf o 11
    return some (pcrRebuild mode p0 p1 p2 p3 p4 p5)
  else .ok none

/-- The adaptation field at byte 4 of a gated unit with AFC_AF = 1 (rules R189 to R196). -/
def decodeAf (buf : List Host.Cell) (mode : PcrMode) (o : Nat) : Except FrameStop AfPart := do
  let l ← unitByte buf o 4
  if l.toNat + 1 ≥ 184 then .error (.fatal .afSize false o)
  else
    let flags ← afFlags buf o l
    let pcr ← afPcr buf mode o l flags
    return { fieldSize := l + 1, flags := flags, pcr := pcr }

/-- The 33-bit value of a timestamp field (rule R116). -/
def timestampValue (t0 t1 t2 t3 t4 : Byte) : BitVec 33 :=
  t0.extractLsb' 1 3 ++ t1 ++ t2.extractLsb' 1 7 ++ t3 ++ t4.extractLsb' 1 7

/-- `Timestamp(t[0..4], code, which)` (rule R209) of the unit at `o`, on the five bytes from `j` on. -/
def timestamp (buf : List Host.Cell) (o j : Nat) (code : BitVec 4) (dts : Bool) :
    Except FrameStop (BitVec 33) := do
  let t0 ← unitByte buf o j
  let t1 ← unitByte buf o (j + 1)
  let t2 ← unitByte buf o (j + 2)
  let t3 ← unitByte buf o (j + 3)
  let t4 ← unitByte buf o (j + 4)
  if t0.extractLsb' 4 4 ≠ code then .error (.fatal .tsCode dts o)
  else if !(t0.getLsbD 0 && t2.getLsbD 0 && t4.getLsbD 0) then .error (.fatal .tsMarker dts o)
  else return timestampValue t0 t1 t2 t3 t4

/-- Is the start-code prefix `00 00 01` at byte `cur` of the unit? Each byte is looked at only if those before
it match, as rule R185's `and` does. -/
def pesPrefix (buf : List Host.Cell) (o cur : Nat) : Except FrameStop Bool := do
  let a ← unitByte buf o cur
  if a ≠ 0x00#8 then .ok false
  else
    let b ← unitByte buf o (cur + 1)
    if b ≠ 0x00#8 then .ok false
    else
      let c ← unitByte buf o (cur + 2)
      return c == 0x01#8

/-- The bytes a PES header with these PTS_DTS_flags needs (rule R206). -/
def pesNeed (f : BitVec 2) : Nat := if f = 0b10#2 then 14 else if f = 0b11#2 then 19 else 9

/-- The PTS that PTS_DTS_flags `f` announce: code `0010` alone, `0011` with a DTS (rules R117 and R207). -/
def ptsField (buf : List Host.Cell) (o cur : Nat) (f : BitVec 2) : Except FrameStop (Option (BitVec 33)) :=
  if f = 0b10#2 then (do let t ← timestamp buf o (cur + 9) 0b0010#4 false; return some t)
  else if f = 0b11#2 then (do let t ← timestamp buf o (cur + 9) 0b0011#4 false; return some t)
  else .ok none

/-- The DTS that PTS_DTS_flags `f` announce (rules R117 and R208). -/
def dtsField (buf : List Host.Cell) (o cur : Nat) (f : BitVec 2) : Except FrameStop (Option (BitVec 33)) :=
  if f = 0b11#2 then (do let t ← timestamp buf o (cur + 14) 0b0001#4 true; return some t) else .ok none

/-- The PES header whose prefix stands at byte `cur`: rules R203 to R213, in rule R218's order. -/
def decodePes (buf : List Host.Cell) (o cur : Nat) : Except FrameStop PesProbe :=
  if 188 - cur < 9 then .ok .short
  else do
    let b7 ← unitByte buf o (cur + 7)
    let hdl ← unitByte buf o (cur + 8)
    let f : BitVec 2 := b7.extractLsb' 6 2
    if f = 0b01#2 then .error (.fatal .ptsDtsFlag false o)
    else if 188 - cur < pesNeed f then .ok .short
    else
      let pts ← ptsField buf o cur f
      let dts ← dtsField buf o cur f
      let sid ← unitByte buf o (cur + 3)
      return .attached
        { startCode := 0x100#16 + sid.setWidth 16, hdl := hdl, ptsDts := f, pts := pts, dts := dts,
          off := BitVec.ofNat 8 cur, len := BitVec.ofNat 8 (min (9 + hdl.toNat) (188 - cur)) }

/-- The PES probe (rule R201), with `cur` the payload cursor (rule R200; 4 ≤ cur ≤ 187 here). -/
def probePes (buf : List Host.Cell) (o cur : Nat) (pusi : Bool) : Except FrameStop PesProbe :=
  if pusi && 188 - cur ≥ 3 then do
    let found ← pesPrefix buf o cur
    if found then decodePes buf o cur else .ok .absent
  else .ok .absent

/-- Step 4: what lies between the cursor and the end of the unit is the payload, and if nothing does the
record is marked transport-error (rules R214 and R215). `cur` may have passed the end (rule R212). -/
def attachPayload (r : UnitRecord) (cur : Nat) : UnitRecord :=
  if cur < 188 then
    { r with payload := some { off := BitVec.ofNat 8 cur, len := BitVec.ofNat 8 (188 - cur) } }
  else { r with tei := true }

/-- What the PES probe adds to a record whose payload cursor stands at `cur`. -/
def attachPes (r : UnitRecord) (cur : Nat) : PesProbe → UnitRecord
  | .absent => attachPayload r cur
  | .short => { r with tei := true }
  | .attached p => attachPayload { r with pes := some p } (cur + 9 + p.hdl.toNat)

/-- Steps 2 to 4 of a gated unit: adaptation field, PES header, payload (rules R189 to R215). -/
def decodeBody (buf : List Host.Cell) (mode : PcrMode) (o : Nat) (r : UnitRecord) :
    Except FrameStop UnitRecord := do
  if r.afcAf then
    let a ← decodeAf buf mode o
    let cur := 4 + a.fieldSize.toNat
    let p ← probePes buf o cur r.pusi
    return attachPes { r with af := some a } cur p
  else
    let p ← probePes buf o 4 r.pusi
    return attachPes r 4 p

/-- `DecodeUnit(o)` (rule R185). -/
def decodeUnit (buf : List Host.Cell) (mode : PcrMode) (o : Nat) : Except FrameStop UnitRecord := do
  let b0 ← unitByte buf o 0
  let b1 ← unitByte buf o 1
  let b2 ← unitByte buf o 2
  let b3 ← unitByte buf o 3
  let r := headerRecord o b0 b1 b2 b3
  if gated r then decodeBody buf mode o r else return r

/-! ### The unit loop and the command -/

/-- Does framing go on at offset `o`? "Framing continues only if the byte at the new offset is inside the
buffer and equals 0x47" (rule R183). -/
def framingGoesOn (buf : List Host.Cell) (n o : Nat) : Except FrameStop Bool :=
  if o < n then (do let b ← unitByte buf o 0; return b == syncByte) else .ok false

/-- The `while` loop of rule R180 from offset `o`, for at most `k` units: the records in order, or what ended
it. `k = n` is always enough, since each round moves `o` on by 188. -/
def frameUnits (buf : List Host.Cell) (mode : PcrMode) (n : Nat) : Nat → Nat → Except FrameStop (List UnitRecord)
  | 0, _ => .ok []
  | k + 1, o =>
    if o + tsPacketSize ≤ n then do
      let r ← decodeUnit buf mode o
      let more ← framingGoesOn buf n (o + tsPacketSize)
      if more then
        let rs ← frameUnits buf mode n k (o + tsPacketSize)
        return r :: rs
      else return [r]
    else .ok []

/-- FRAME found no sync (rule R181). -/
def frameNoSync (s : State) : State := { s with frameStatus := .noSync, recCount := 0 }

/-- FRAME ended in a framing-fatal error of the unit at `o` (rules R184 and R217). -/
def frameFailed (code : FrameErr) (dts : Bool) (o : Nat) (s : State) : State :=
  { s with frameStatus := .framingError, recCount := 0,
           errInfo := { unitOffset := BitVec.ofNat 24 o, code := code, dts := dts } }

/-- FRAME commits the records `rs` (rules R180 and R184). -/
def frameCommit (rs : List UnitRecord) (s : State) : State :=
  { s with frameStatus := .ok, recCount := BitVec.ofNat 16 rs.length,
           recs := commitRecords 0 (rs.map recordWords) s.recs }

/-- FRAME from the located offset on. -/
def frameFrom (o : Nat) (s : State) : Out :=
  match frameUnits s.buf s.pcrMode s.bufLen.toNat s.bufLen.toNat o with
  | .ok rs => .next (frameCommit rs s)
  | .error (.fatal code dts u) => .next (frameFailed code dts u s)
  | .error (.fault f) => .fault f

/-- FRAME (rule R180). -/
def execFrame (s : State) : Out :=
  orFault (locate s.buf s.bufLen.toNat 0) (fun r =>
    match r with
    | none => .next (frameNoSync s)
    | some o => frameFrom o s)

end Sys2Proof.Machine
end

