-- ==== Sys2Proof/Machine/HostCommands.lean ====
section
/-! DEFINITION. NOP, READ_METRIC and CLEAR_SESSION (spec/45_host_commands.md). -/

namespace Sys2Proof.Machine

/-- NOP: "the only command that changes no state" (rule R330). -/
def execNop (s : State) : Out := .next s

/-- READ_METRIC pid, field (rule R332). -/
def execReadMetric (field : MetricField) (pid : Pid) (s : State) : Out :=
  .next (setResult (metricField (s.metric pid) pid field) s)

/-- CLEAR_SESSION (rule R335): every metric entry at its reset value, and nothing pending. -/
def execClearSession (s : State) : Out := .next { s with metrics := [], pending := [] }

end Sys2Proof.Machine
end

