-- ==== Sys2Proof/Machine/PcrMonitor.lean ====
section
/-! DEFINITION. The PCR part of the AddPacket step: wall-clock scaling, eligibility, delta and drift, and the
rebase of the reference pair (spec/43_pcr_monitor.md and rule R254). -/

namespace Sys2Proof.Machine

/-- `Scale(W)`: floor(W * PCR_HZ / WALL_HZ) mod 2^64 (rule R280). -/
def scaleWall (c : Config) (w : U64) : U64 := BitVec.ofNat 64 (w.toNat * pcrHz / c.wallHz)

/-- Did the framer, or the host, give the record a PCR value? The condition of rule R254, and of rule R281 but
for DISC. -/
def hasPcr (r : RecView) : Bool := r.afAttached && r.pcrFlag && r.pcrValid

/-- `Eligible(r)` (rule R281). -/
def eligible (r : RecView) : Bool := hasPcr r && !r.disc

/-- The PCR delta, "unsigned difference" (rule R285). -/
def pcrDelta (pcr lastPcr : Pcr) : U64 := pcr.setWidth 64 - lastPcr.setWidth 64

/-- The drift in whole milliseconds (rules R286 to R288): the wrapped difference of the elapsed wall and PCR
times, read as signed, divided by 27000 toward zero. -/
def pcrDrift (pcr refPcr : Pcr) (ws refWall : U64) : Int :=
  ((ws - refWall) - (pcr.setWidth 64 - refPcr.setWidth 64)).toInt.tdiv (pcrTicksPerMs : Int)

/-- The reference pair is set to this PCR and this scaled wall sample (rules R254 and R283). -/
def setReference (pcr : Pcr) (ws : U64) (e : Metric) : Metric :=
  { e with refValid := true, refPcr := pcr, refWall := ws }

/-- The reference pair is reset (rule R254). -/
def clearReference (e : Metric) : Metric := { e with refValid := false, refPcr := 0, refWall := 0 }

/-- `Rebase(e, r, Ws)` (rule R254). -/
def rebase (r : RecView) (ws : U64) (e : Metric) : Metric :=
  if hasPcr r then setReference r.pcr ws e else clearReference e

/-- The delta of a subsequent PCR enters the window's maximum, if there is an earlier PCR (rule R285). -/
def trackDelta (pcr : Pcr) (e : Metric) : Metric :=
  if e.lastPcrValid then { e with winMaxDelta := umax e.winMaxDelta (pcrDelta pcr e.lastPcr) } else e

/-- The drift magnitude of a subsequent PCR enters the window's maximum (rule R289). -/
def trackDrift (pcr : Pcr) (ws : U64) (e : Metric) : Metric :=
  { e with
    winMaxDrift := umax e.winMaxDrift (BitVec.ofNat 64 (pcrDrift pcr e.refPcr ws e.refWall).natAbs) }

/-- The end of the step, on both branches (rule R290). -/
def recordPcrSeen (pcr : Pcr) (e : Metric) : Metric :=
  { e with lastPcr := pcr, lastPcrValid := true, pcrPresent := true }

/-- `PcrStep(e, pcr, Ws)` (rule R282). -/
def pcrStep (pcr : Pcr) (ws : U64) (e : Metric) : Metric :=
  recordPcrSeen pcr (if e.refValid then trackDrift pcr ws (trackDelta pcr e) else setReference pcr ws e)

end Sys2Proof.Machine
end

