-- ==== Sys2Proof/Machine/Packet.lean ====
section
/-! DEFINITION. The packet path: AddPacket with the continuity-counter check, the hold on a full event FIFO,
and the commands ADD_PACKET, DISPATCH and DISPATCH_ALL (spec/42_continuity.md). -/

namespace Sys2Proof.Machine

/-- The one continuity outcome of a packet (rules R249 to R253 and R363). -/
inductive CcOutcome where
  /-- No comparison is made: the null PID, or no prior packet (rules R249 and R250). -/
  | notChecked
  /-- The counter repeats on a packet with payload: an error (rule R251). -/
  | duplicate
  /-- The counter repeats on a packet without payload: tolerated (rule R251). -/
  | repeated
  /-- The counter is the last one plus 1 mod 16 (rule R252). -/
  | inSequence
  /-- Any other counter (rule R253). -/
  | discontinuity
deriving DecidableEq, Repr

/-- The continuity outcome of record `r` for the entry `e` of PID `p`; the equal test comes first (D26). -/
def ccOutcome (p : Pid) (r : RecView) (e : Metric) : CcOutcome :=
  if p = nullPid || !e.ccValid then .notChecked
  else if r.cc = e.lastCc then (if r.afcPl then .duplicate else .repeated)
  else if r.cc = e.lastCc + 1 then .inSequence
  else .discontinuity

/-- `observed <- 1`, and one more packet (rules R246 and R247). -/
def countPacket (e : Metric) : Metric :=
  { e with observed := true, pkt := e.pkt + 1, winPkt := e.winPkt + 1 }

/-- One more transport-error packet (rule R248). -/
def countTei (e : Metric) : Metric := { e with tei := e.tei + 1, winTei := e.winTei + 1 }

/-- `CcError(e)` (rule R245). -/
def ccError (e : Metric) : Metric := { e with ccerr := e.ccerr + 1, winCcerr := e.winCcerr + 1 }

/-- What a continuity outcome does to the entry (rules R251 to R254). -/
def applyCc (o : CcOutcome) (r : RecView) (ws : U64) (e : Metric) : Metric :=
  match o with
  | .notChecked => e
  | .duplicate => ccError e
  | .repeated => e
  | .inSequence => e
  | .discontinuity => rebase r ws (ccError e)

/-- `last_cc <- r.CC; cc_valid <- 1` (rule R257). -/
def recordCc (r : RecView) (e : Metric) : Metric := { e with lastCc := r.cc, ccValid := true }

/-- The entry after AddPacket(p, r, W), with `ws` = Scale(W) (rule R245). -/
def packetMetric (p : Pid) (r : RecView) (ws : U64) (e : Metric) : Metric :=
  if r.tei then countTei (countPacket e)
  else
    let e1 := applyCc (ccOutcome p r e) r ws (countPacket e)
    recordCc r (if eligible r then pcrStep r.pcr ws e1 else e1)

/-- Does AddPacket(p, r, _) raise the discontinuity notification on entry `e` (rules R248 and R253)? -/
def notifies (p : Pid) (r : RecView) (e : Metric) : Bool := !r.tei && ccOutcome p r e == .discontinuity

/-- Would the step push an event (rule R255)? -/
def pushes (p : Pid) (r : RecView) (s : State) : Bool := s.evtEn && notifies p r (s.metric p)

/-- The AddPacket step cannot be taken: it would push into a full FIFO (rule R256). -/
def packetHeld (p : Pid) (r : RecView) (s : State) : Bool :=
  pushes p r s && decide (s.cfg.evtDepth ≤ s.fifo.length)

/-- `AddPacket(p, r, W)` (rule R245), with `W` the value on the WALL input in this step (rule R242). -/
def addPacket (p : Pid) (r : RecView) (s : State) : State :=
  let s' := setMetric p (packetMetric p r (scaleWall s.cfg s.wall) (s.metric p)) s
  if pushes p r s then pushEvent p s' else s'

/-- A one-packet command with word `w`: it takes its AddPacket step and completes, or is held (rules R241,
R256 and R258). -/
def packetCommand (w : Word) (p : Pid) (r : RecView) (s : State) : State :=
  if packetHeld p r s then keepBusy w s else complete (addPacket p r s)

/-- ADD_PACKET rec, pid (rule R240). -/
def execAddPacket (slot : BitVec 12) (pid : Pid) (s : State) : Out :=
  if slotInRange s.cfg slot then
    orFault (readRecord s.recs slot.toNat) (fun r =>
      if r.pid = pid then .next (packetCommand (encode (.addPacket slot pid)) pid r s)
      else .next (complete (usageError s)))
  else .next (complete (illegalCommand s))

/-- DISPATCH rec (rule R258). -/
def execDispatch (slot : BitVec 12) (s : State) : Out :=
  if slotInRange s.cfg slot then
    orFault (readRecord s.recs slot.toNat) (fun r =>
      .next (packetCommand (encode (.dispatch slot)) r.pid r s))
  else .next (complete (illegalCommand s))

/-- The accepting step of DISPATCH_ALL (rule R260). -/
def dispatchAllAccept (s : State) : State :=
  { s with daNext := 0, daEnd := s.recCount,
           cur := if s.recCount = 0 then none else some (encode .dispatchAll) }

/-- `DA_NEXT <- DA_NEXT + 1; if DA_NEXT == DA_END: complete` (rule R260). -/
def dispatchAllAdvance (s : State) : State :=
  { s with daNext := s.daNext + 1, cur := if s.daNext + 1 = s.daEnd then none else s.cur }

/-- One record step of DISPATCH_ALL: the next record, in order, unless it is held (rules R256 and R260). -/
def dispatchAllRecord (s : State) : Out :=
  orFault (readRecord s.recs s.daNext.toNat) (fun r =>
    if packetHeld r.pid r s then .next s else .next (dispatchAllAdvance (addPacket r.pid r s)))

/-- DISPATCH_ALL (rule R260): the record steps while it is the command in progress, the accepting step
otherwise. -/
def execDispatchAll (s : State) : Out :=
  if s.cur = some (encode .dispatchAll) then dispatchAllRecord s else .next (dispatchAllAccept s)

end Sys2Proof.Machine
end

