-- ==== Sys2Proof/Machine/Dispatch.lean ====
section
/-! DEFINITION. One arm per command: the ENGINE's step on that command (rule R68). -/

namespace Sys2Proof.Machine

def exec (i : Instr) (s : State) : Host.Outcome State Fault Refusal :=
  match i with
  | .nop => Sys2Proof.Machine.execNop s
  | .locate start => Sys2Proof.Machine.execLocate start s
  | .frame => Sys2Proof.Machine.execFrame s
  | .addPacket slot pid => Sys2Proof.Machine.execAddPacket slot pid s
  | .dispatch slot => Sys2Proof.Machine.execDispatch slot s
  | .dispatchAll => Sys2Proof.Machine.execDispatchAll s
  | .windowTick => Sys2Proof.Machine.execWindowTick s
  | .readMetric field pid => Sys2Proof.Machine.execReadMetric field pid s
  | .clearSession => Sys2Proof.Machine.execClearSession s

end Sys2Proof.Machine
end

