-- ==== Sys2Proof/Machine/Step.lean ====
section
/-! DEFINITION. One step of the block: the agent whose turn it is moves (rule R90). -/

namespace Sys2Proof.Machine

/-- Run the command with word `w`: an illegal word sets CMD_ERR and completes (rules R152 and R154). -/
def runWord (w : Word) (s : State) : Out :=
  match decode s.cfg w with
  | .ok i => exec i s
  | .error _ => .next (complete (illegalCommand s))

/-- One step. -/
def step (s : State) : Host.Outcome State Fault Refusal :=
  agentStep runWord (takeTurn s).1 (takeTurn s).2

/-- `s` with the command word `w` as the host's very next access, a write of CMD, with the HOST to move, and
with no command in progress that would hold the write (log entry 16). The block fetches nothing (rule R88):
this is the only way a command reaches it. -/
def State.withFetchWord (s : State) (nbits w : Nat) : State :=
  { s with
    cur := none
    hostQueue := .regWrite 4#4 (BitVec.ofNat 32 (w % 2 ^ nbits)) :: s.hostQueue
    turns := { agent := .host, wall := s.wall } :: s.turns }

end Sys2Proof.Machine
end

