-- ==== Sys2Proof/Safety.lean ====
section
/-! DEFINITION. What a reachable state looks like (`State.Inv`, which every step keeps), when the block has
nothing left to do, and what a safe step is. -/

namespace Sys2Proof.Machine

/-- What the fields of an observed metric entry have to do with each other. The two bounds are those of rule
R293 and of a 64-bit delta in whole milliseconds (rule R317). -/
structure Metric.Inv (e : Metric) : Prop where
  observed      : e.observed = true
  ccUnset       : e.ccValid = false → e.lastCc = 0
  refUnset      : e.refValid = false → e.refPcr = 0 ∧ e.refWall = 0
  pcrSeen       : e.pcrPresent = e.lastPcrValid
  lastPcrUnset  : e.lastPcrValid = false → e.lastPcr = 0
  winDriftBound : e.winMaxDrift.toNat ≤ 341606371735362
  perDriftBound : e.perDriftMs.toNat ≤ 341606371735362
  perDeltaBound : e.perDeltaMs.toNat ≤ 683212743470724

/-- A command that can be in progress (rule R402), whose next step finds what it reads: a held ADD_PACKET or
DISPATCH a readable record, a DISPATCH_ALL a record of the last FRAME. -/
def State.canProgress (s : State) : Instr → Prop
  | .addPacket slot p => ∃ r, readRecord s.recs slot.toNat = .ok r ∧ r.pid = p
  | .dispatch slot => ∃ r, readRecord s.recs slot.toNat = .ok r
  | .dispatchAll => s.daNext.toNat < s.daEnd.toNat ∧ s.daEnd = s.recCount
  | .nop | .locate _ | .frame | .windowTick | .readMetric _ _ | .clearSession => False

/-- The command in progress, if there is one, is such a command. -/
def State.curLegal (s : State) : Prop :=
  ∀ w, s.cur = some w → ∃ i, decode s.cfg w = .ok i ∧ s.canProgress i

/-- The invariant of the block. -/
structure State.Inv (s : State) : Prop where
  /-- The parameters are in the ranges of rules R11 to R14. -/
  cfgValid        : s.cfg.Valid
  /-- Buffer and record memory are in canonical form, inside their address ranges (rules R63 and R64). -/
  bufWf           : Memory.wf s.buf
  bufBound        : ∀ x ∈ s.buf, x.1 < s.cfg.bufMax
  recsWf          : Memory.wf s.recs
  recsBound       : ∀ x ∈ s.recs, x.1 < 16 * s.cfg.recMax
  /-- The metric table is in canonical form: 13-bit PIDs, and an entry is listed exactly when it is observed
  (rules R45, R46 and R246). -/
  metricsWf       : Memory.metricsWf s.metrics
  metricsBound    : ∀ x ∈ s.metrics, x.1 < numPids
  entries         : ∀ x ∈ s.metrics, x.2.Inv
  /-- `PENDING` is a set of observed PIDs (rules R69 and R312). -/
  pendingWf       : pidSetWf s.pending
  pendingBound    : ∀ p ∈ s.pending, p < numPids
  pendingObserved : ∀ p ∈ s.pending, (getMetric s.metrics p).observed = true
  /-- The FIFO never overflows (rules R65 and R256). -/
  fifoBound       : s.fifo.length ≤ s.cfg.evtDepth
  /-- BUF_LEN is WARL (rule R34). -/
  bufLenBound     : s.bufLen.toNat ≤ s.cfg.bufMax
  /-- REC_COUNT counts slots, and is 0 but after a FRAME that ended in OK (rule R37). -/
  recCountBound   : s.recCount.toNat ≤ s.cfg.recMax
  recCountZero    : s.frameStatus ≠ .ok → s.recCount = 0
  /-- The slots REC_COUNT counts are written (rule R180). -/
  recordsWritten  : ∀ k < s.recCount.toNat, ∀ w < 16, (Memory.read s.recs (recKey k w)).isSome = true
  /-- ERR_TS "is 0 for codes other than TS_CODE and TS_MARKER" (rule R38). -/
  errTs           : s.errInfo.code ≠ .tsCode → s.errInfo.code ≠ .tsMarker → s.errInfo.dts = false
  /-- The engine (rules R70 and R402). -/
  daOrder         : s.daNext.toNat ≤ s.daEnd.toNat
  daBound         : s.daEnd.toNat ≤ s.cfg.recMax
  curLegal        : s.curLegal

/-- WAIT_IDLE's condition: BUSY = 0 and TICK_PENDING = 0 (rule R155). -/
def idle (s : State) : Bool := !busy s && !tickPending s

/-- "A run is *quiescent*" (rule R408). -/
def quiescent (s : State) : Bool := idle s && s.hostQueue.isEmpty

/-- Every byte of the valid part of the buffer has been written, so FRAME and LOCATE use no unspecified content
(rules R63 and R394). -/
def State.bufferWritten (s : State) : Prop :=
  ∀ i < s.bufLen.toNat, (Memory.read s.buf i).isSome = true

/-- A safe step: it does not stop. -/
def State.safeStep (s : State) : Prop := ∃ t, step s = .next t

end Sys2Proof.Machine
end

