-- ==== Sys2Proof/Certificates/Slice0/Obligations.lean ====
section
/-! DEFINITION. The statements for the provers. `Sys2Proof.Spec` holds the spec's own formulas and conditions,
written from its rules and apart from the model's definitions; each statement compares the machine with them. -/

namespace Sys2Proof.Spec
open Sys2Proof.Machine

/-! ### Who moves -/

/-- Agent `a` takes the next step. -/
def Moves (s : State) (a : Agent) : Prop := (takeTurn s).1 = a

/-- The HOST moves next, with `w` on the WALL input, and its next access is `a`. -/
def HostMoves (s : State) (w : U64) (ts : List Turn) (a : HostAccess) (q : List HostAccess) : Prop :=
  s.turns = { agent := .host, wall := w } :: ts ∧ s.hostQueue = a :: q

/-- `s` with that turn and that access taken. -/
def afterHost (s : State) (w : U64) (ts : List Turn) (q : List HostAccess) : State :=
  { s with turns := ts, wall := w, hostQueue := q }

/-- The next step is the ENGINE's on command `i`: a CMD write the host makes while BUSY = 0 (rule R35), or the
command in progress (rule R70). -/
def Runs (s : State) (i : Instr) : Prop :=
  (Moves s .host ∧ s.cur = none ∧ ∃ c q, s.hostQueue = .regWrite 4#4 c :: q ∧ decode s.cfg c = .ok i) ∨
  (Moves s .engine ∧ ∃ c, s.cur = some c ∧ decode s.cfg c = .ok i)

/-! ### Command words (rules R151 and R152) -/

/-- Rule R151's (match, mask) pairs. -/
def commandRows : List (Word × Word) :=
  [ (0x00000000#32, 0xFFFFFFFF#32), (0x10000000#32, 0xFF000000#32), (0x20000000#32, 0xFFFFFFFF#32),
    (0x30000000#32, 0xF000E000#32), (0x40000000#32, 0xF000FFFF#32), (0x50000000#32, 0xFFFFFFFF#32),
    (0x60000000#32, 0xFFFFFFFF#32), (0x70000000#32, 0xFFE0E000#32), (0x80000000#32, 0xFFFFFFFF#32) ]

/-- Rule R152's three conditions. -/
def IllegalWord (c : Config) (w : Word) : Prop :=
  (∀ x ∈ commandRows, w &&& x.2 ≠ x.1) ∨
  ((w &&& 0xF000E000#32 = 0x30000000#32 ∨ w &&& 0xF000FFFF#32 = 0x40000000#32) ∧
    c.bufMax / 188 ≤ w.toNat / 2 ^ 16 % 2 ^ 12) ∨
  (w &&& 0xFFE0E000#32 = 0x70000000#32 ∧ 16 < w.toNat / 2 ^ 16 % 2 ^ 5)

/-! ### The Sync Locator (rule R161) -/

/-- `i` passes the locator's checks: a sync byte there and at every confirmation offset below `n`. -/
def Confirmed (buf : List Host.Cell) (n i : Nat) : Prop :=
  i < n ∧ Memory.read buf i = some 0x47#8 ∧
  ∀ d ∈ [188, 376, 564, 752], i + d < n → Memory.read buf (i + d) = some 0x47#8

/-- `i` is the offset `Locate(n, start)` returns. -/
def LocatedAt (buf : List Host.Cell) (n start i : Nat) : Prop :=
  188 ≤ n ∧ start ≤ i ∧ Confirmed buf n i ∧ ∀ j, start ≤ j → j < i → ¬ Confirmed buf n j

/-- `Locate(n, start)` returns NOT_FOUND. -/
def NothingLocated (buf : List Host.Cell) (n start : Nat) : Prop :=
  n < 188 ∨ ∀ j, start ≤ j → ¬ Confirmed buf n j

/-- A scan from `start` comes to candidate `x`: every candidate before it, and each in-bounds confirmation byte of one
that is a sync byte, is written, and none is confirmed. -/
def ScanReaches (buf : List Host.Cell) (n start x : Nat) : Prop :=
  188 ≤ n ∧ start ≤ x ∧ x < n ∧ ∀ j, start ≤ j → j < x →
    Memory.read buf j ≠ none ∧ ¬ Confirmed buf n j ∧
    (Memory.read buf j = some 0x47#8 → ∀ d ∈ [188, 376, 564, 752], j + d < n → Memory.read buf (j + d) ≠ none)

/-- `a` is the unwritten byte a scan from `start` stops on: the candidate it has come to, or the first unwritten
confirmation byte of that candidate. -/
def LocatorStopsAt (buf : List Host.Cell) (n start a : Nat) : Prop :=
  Memory.read buf a = none ∧
  (ScanReaches buf n start a ∨
   ∃ x, ScanReaches buf n start x ∧ Memory.read buf x = some 0x47#8 ∧
     ∃ d ∈ [188, 376, 564, 752], a = x + d ∧ a < n ∧
       ∀ d' ∈ [188, 376, 564, 752], d' < d → Memory.read buf (x + d') ≠ none)

/-- `a` is an unwritten byte that framing stops on after `k` decoded units: the sync byte of the next unit, a byte of
its header, or, on a unit with an adaptation field that is gated, that field's length byte. -/
def FramerStopsAt (buf : List Host.Cell) (mode : PcrMode) (n a : Nat) : Prop :=
  Memory.read buf a = none ∧
  ∃ o k, LocatedAt buf n 0 o ∧ ScanReaches buf n 0 o ∧
    (∀ d ∈ [188, 376, 564, 752], o + d < n → Memory.read buf (o + d) ≠ none) ∧
    (∀ j < k, Memory.read buf (o + 188 * j) = some 0x47#8 ∧ ∃ r, decodeUnit buf mode (o + 188 * j) = .ok r) ∧
    ((0 < k ∧ o + 188 * (k - 1) + 188 ≤ n ∧ a = o + 188 * k ∧ a < n) ∨
     (Memory.read buf (o + 188 * k) = some 0x47#8 ∧ o + 188 * k + 188 ≤ n ∧
       ((∃ y < 4, a = o + 188 * k + y ∧ ∀ z < y, Memory.read buf (o + 188 * k + z) ≠ none) ∨
        (a = o + 188 * k + 4 ∧ ∃ b1 b2 b3, Memory.read buf (o + 188 * k + 1) = some b1 ∧
          Memory.read buf (o + 188 * k + 2) = some b2 ∧ Memory.read buf (o + 188 * k + 3) = some b3 ∧
          b3.getLsbD 4 = true ∧ b3.getLsbD 5 = true ∧ b1.getLsbD 7 = false ∧
          b1.toNat % 32 * 256 + b2.toNat ≠ 0x1FFF))))

/-! ### One unit (rules R110 to R118 and R185), on its bytes as numbers -/

/-- Bits `[lo + len - 1 : lo]` of a number (rule R18). -/
def bits (x lo len : Nat) : Nat := x / 2 ^ lo % 2 ^ len

/-- A record as numbers: the fields of rules R131 to R137 that the steps of rule R185 set. -/
structure FlatRecord where
  sync : Nat := 0
  tei  : Nat := 0
  pusi : Nat := 0
  prio : Nat := 0
  sc   : Nat := 0
  afcAf : Nat := 0
  afcPl : Nat := 0
  cc   : Nat := 0
  teiHdr : Nat := 0
  pid  : Nat := 0
  afAttached : Nat := 0
  pesAttached : Nat := 0
  payloadAttached : Nat := 0
  fieldSize : Nat := 0
  flags : Nat := 0
  pcrValid : Nat := 0
  pcr  : Nat := 0
  startCode : Nat := 0
  hdl  : Nat := 0
  ptsDts : Nat := 0
  pts  : Nat := 2 ^ 64 - 1
  dts  : Nat := 2 ^ 64 - 1
  payOff : Nat := 0
  payLen : Nat := 0
  pesOff : Nat := 0
  pesLen : Nat := 0
deriving DecidableEq, Repr

/-- The sixteen words of a record at unit offset `o` (rules R130 to R138). -/
def flatWords (o : Nat) (r : FlatRecord) : List Nat :=
  [ r.sync + 2 * r.tei + 4 * r.pusi + 8 * r.prio + 16 * r.sc + 64 * r.afcAf + 128 * r.afcPl + 256 * r.cc
      + 4096 * r.teiHdr + 2 ^ 16 * r.pid + 2 ^ 29 * r.afAttached + 2 ^ 30 * r.pesAttached
      + 2 ^ 31 * r.payloadAttached,
    r.fieldSize + 256 * r.flags + 2 ^ 16 * r.pcrValid,
    r.pcr % 2 ^ 32, r.pcr / 2 ^ 32,
    r.startCode + 2 ^ 16 * r.hdl + 2 ^ 24 * r.ptsDts,
    r.pts % 2 ^ 32, r.pts / 2 ^ 32, r.dts % 2 ^ 32, r.dts / 2 ^ 32,
    o,
    r.payOff + 256 * r.payLen + 2 ^ 16 * r.pesOff + 2 ^ 24 * r.pesLen,
    0, 0, 0, 0, 0 ]

/-- `PcrRebuild` (rule R196), with the mode as CTRL.PCR_MODE's number. -/
def pcrValue (mode p0 p1 p2 p3 p4 p5 : Nat) : Nat :=
  let base := p0 * 2 ^ 25 + p1 * 2 ^ 17 + p2 * 2 ^ 9 + p3 * 2 + bits p4 7 1
  let ext := bits p4 0 1 * 2 ^ 8 + p5
  let ext := if mode = 0 then ext - ext % 2 else ext
  let base := if mode = 2 then base - base % 2 else base
  base * 300 + ext

/-- The value of a timestamp field (rule R116). -/
def stampValue (t0 t1 t2 t3 t4 : Nat) : Nat :=
  bits t0 1 3 * 2 ^ 30 + (t1 * 2 ^ 7 + bits t2 1 7) * 2 ^ 15 + (t3 * 2 ^ 7 + bits t4 1 7)

/-- `Timestamp(t[0..4], code, which)` on bytes `j` to `j + 4` (rule R209). -/
def stampAt (b : Nat → Nat) (j code : Nat) (dts : Bool) : Except (FrameErr × Bool) Nat :=
  if bits (b j) 4 4 ≠ code then .error (.tsCode, dts)
  else if b j % 2 ≠ 1 ∨ b (j + 2) % 2 ≠ 1 ∨ b (j + 4) % 2 ≠ 1 then .error (.tsMarker, dts)
  else .ok (stampValue (b j) (b (j + 1)) (b (j + 2)) (b (j + 3)) (b (j + 4)))

/-- Step 4 of rule R185: the payload, or the transport-error mark; `size` is 188 − `cur`. -/
def withPayload (cur : Nat) (r : FlatRecord) : FlatRecord :=
  if (188 : Int) - cur ≥ 1 then { r with payloadAttached := 1, payOff := cur, payLen := 188 - cur }
  else { r with tei := 1 }

/-- Steps 3 and 4 of rule R185 from the cursor `cur` on. -/
def unitFrom (b : Nat → Nat) (cur : Nat) (r : FlatRecord) : Except (FrameErr × Bool) FlatRecord :=
  if r.pusi = 1 ∧ 188 - cur ≥ 3 ∧ b cur = 0 ∧ b (cur + 1) = 0 ∧ b (cur + 2) = 1 then
    let f := bits (b (cur + 7)) 6 2
    let need := 9 + (if f = 2 then 5 else if f = 3 then 10 else 0)
    if 188 - cur < 9 then .ok { r with tei := 1 }
    else if f = 1 then .error (.ptsDtsFlag, false)
    else if 188 - cur < need then .ok { r with tei := 1 }
    else
      match (if f = 2 then stampAt b (cur + 9) 2 false else if f = 3 then stampAt b (cur + 9) 3 false
        else .ok (2 ^ 64 - 1)) with
      | .error e => .error e
      | .ok pts =>
        match (if f = 3 then stampAt b (cur + 14) 1 true else .ok (2 ^ 64 - 1)) with
        | .error e => .error e
        | .ok dts =>
          .ok (withPayload (cur + 9 + b (cur + 8))
            { r with pts := pts, dts := dts, pesAttached := 1, startCode := 0x100 + b (cur + 3),
                     hdl := b (cur + 8), ptsDts := f, pesOff := cur,
                     pesLen := min (9 + b (cur + 8)) (188 - cur) })
  else .ok (withPayload cur r)

/-- The header of rule R185: rule R111's fields. -/
def unitHeader (b : Nat → Nat) : FlatRecord where
  sync := if b 0 = 0x47 then 1 else 0
  teiHdr := bits (b 1) 7 1
  tei := bits (b 1) 7 1
  pusi := bits (b 1) 6 1
  prio := bits (b 1) 5 1
  pid := b 1 % 32 * 256 + b 2
  sc := bits (b 3) 6 2
  afcAf := bits (b 3) 5 1
  afcPl := bits (b 3) 4 1
  cc := bits (b 3) 0 4

/-- `DecodeUnit` (rule R185) on the unit's bytes, with the mode as CTRL.PCR_MODE's number. -/
def unitRecord (b : Nat → Nat) (mode : Nat) : Except (FrameErr × Bool) FlatRecord :=
  let r := unitHeader b
  if ¬ (r.afcPl = 1 ∧ r.teiHdr = 0 ∧ r.pid ≠ 0x1FFF) then .ok r
  else if r.afcAf = 1 then
    let l := b 4
    if l + 1 ≥ 184 then .error (.afSize, false)
    else
      let flags := if l ≥ 1 then b 5 else 0
      let r := { r with afAttached := 1, fieldSize := l + 1, flags := flags }
      let r := if bits flags 4 1 = 1 ∧ l ≥ 7 then
          { r with pcr := pcrValue mode (b 6) (b 7) (b 8) (b 9) (b 10) (b 11), pcrValid := 1 }
        else r
      unitFrom b (4 + (l + 1)) r
  else unitFrom b 4 r

/-- CTRL.PCR_MODE's number (rule R32). -/
def modeNumber : PcrMode → Nat
  | .sourceExtLsb => 0
  | .standard => 1
  | .sourceBaseLsb => 2

/-! ### The packet path (rules R245 to R257 and R280 to R291) -/

/-- Slot `k` exists and holds record `r`. -/
def Holds (s : State) (k : BitVec 12) (r : RecView) : Prop :=
  k.toNat < s.cfg.bufMax / 188 ∧ readRecord s.recs k.toNat = .ok r

/-- The counter of a record that is compared is neither the last one nor the next one mod 16 (rule R253). -/
def Discontinuous (r : RecView) (e : Metric) : Prop :=
  r.tei = false ∧ r.pid ≠ 0x1FFF#13 ∧ e.ccValid = true ∧ r.cc ≠ e.lastCc ∧
  r.cc.toNat ≠ (e.lastCc.toNat + 1) % 16

/-- The hold condition of rule R256 for the AddPacket step of `r` on its own PID. -/
def MustWait (s : State) (r : RecView) : Prop :=
  s.evtEn = true ∧ s.cfg.evtDepth ≤ s.fifo.length ∧ Discontinuous r (s.metric r.pid)

/-- ADD_PACKET with the record's own PID and DISPATCH both go on to `t`. -/
def BothGoTo (s : State) (k : BitVec 12) (r : RecView) (t : State) : Prop :=
  exec (.addPacket k r.pid) s = .next t ∧ exec (.dispatch k) s = .next t

/-- Rules R246, R247 and R257: what every packet that is not a TEI packet does to its entry. -/
def counted (r : RecView) (e : Metric) : Metric :=
  { e with observed := true, pkt := e.pkt + 1, winPkt := e.winPkt + 1, lastCc := r.cc, ccValid := true }

/-- One more continuity error, lifetime and windowed. -/
def plusCcError (e : Metric) : Metric := { e with ccerr := e.ccerr + 1, winCcerr := e.winCcerr + 1 }

/-- `e` with the PCR state of `e'`: every field that rules R254 and R282 may write. -/
def withPcrStateOf (e' e : Metric) : Metric :=
  { e with pcrPresent := e'.pcrPresent, lastPcrValid := e'.lastPcrValid, lastPcr := e'.lastPcr,
           refValid := e'.refValid, refPcr := e'.refPcr, refWall := e'.refWall,
           winMaxDelta := e'.winMaxDelta, winMaxDrift := e'.winMaxDrift }

/-- The condition of rule R254's rebase. -/
def CarriesPcr (r : RecView) : Prop := r.afAttached = true ∧ r.pcrFlag = true ∧ r.pcrValid = true

/-- `Eligible(r)` (rule R281). -/
def Eligible (r : RecView) : Prop := CarriesPcr r ∧ r.disc = false

/-- `Ws` = Scale(W) as a number (rule R280). -/
def scaled (s : State) : Nat := s.wall.toNat * 27000000 / s.cfg.wallHz % 2 ^ 64

/-- The signed reading of a number mod 2^64 (rule R19's `signed64`). -/
def signed64 (x : Int) : Int := x.bmod (2 ^ 64)

/-- The window's largest delta after a subsequent PCR (rule R285). -/
def deltaAfter (pcr : Pcr) (e : Metric) : Nat :=
  if e.lastPcrValid then max e.winMaxDelta.toNat ((pcr.toNat + 2 ^ 64 - e.lastPcr.toNat) % 2 ^ 64)
  else e.winMaxDelta.toNat

/-- The drift of a subsequent PCR, in whole milliseconds (rules R286 to R288). -/
def driftOf (pcr : Pcr) (ws : Nat) (e : Metric) : Int :=
  let elapsedPcr : Int := pcr.toNat - e.refPcr.toNat
  let elapsedWall := signed64 ((ws : Int) - e.refWall.toNat)
  (signed64 (elapsedWall - elapsedPcr)).tdiv 27000

/-! ### Reading a metric entry (rule R332) -/

/-- A flag as a number. -/
def flag (b : Bool) : Nat := if b then 1 else 0

/-- The value of field `f` of entry `e` of PID `p`. -/
def fieldValue (f : MetricField) (p : Pid) (e : Metric) : Nat :=
  match f with
  | .state => p.toNat + 2 ^ 16 * flag e.observed + 2 ^ 17 * flag e.pcrPresent + 2 ^ 18 * flag e.ccValid
      + 2 ^ 20 * e.lastCc.toNat + 2 ^ 24 * flag e.lastPcrValid + 2 ^ 25 * flag e.refValid
  | .pkt => e.pkt.toNat
  | .tei => e.tei.toNat
  | .ccerr => e.ccerr.toNat
  | .perPkt => e.perPkt.toNat
  | .perTei => e.perTei.toNat
  | .perCcerr => e.perCcerr.toNat
  | .perDeltaMs => e.perDeltaMs.toNat
  | .perDriftMs => e.perDriftMs.toNat
  | .lastPcr => e.lastPcr.toNat
  | .refPcr => e.refPcr.toNat
  | .refWall => e.refWall.toNat
  | .winPkt => e.winPkt.toNat
  | .winTei => e.winTei.toNat
  | .winCcerr => e.winCcerr.toNat
  | .winMaxDelta => e.winMaxDelta.toNat
  | .winMaxDrift => e.winMaxDrift.toNat

/-- An entry after its swap (rule R316). -/
def Swapped (e e' : Metric) : Prop :=
  e'.perPkt = e.winPkt ∧ e'.perTei = e.winTei ∧ e'.perCcerr = e.winCcerr ∧
  e'.perDeltaMs.toNat = e.winMaxDelta.toNat / 27000 ∧ e'.perDriftMs = e.winMaxDrift ∧
  e'.winPkt = 0 ∧ e'.winTei = 0 ∧ e'.winCcerr = 0 ∧ e'.winMaxDelta = 0 ∧ e'.winMaxDrift = 0 ∧
  e'.observed = e.observed ∧ e'.pkt = e.pkt ∧ e'.tei = e.tei ∧ e'.ccerr = e.ccerr ∧ e'.ccValid = e.ccValid ∧
  e'.lastCc = e.lastCc ∧ e'.pcrPresent = e.pcrPresent ∧ e'.lastPcrValid = e.lastPcrValid ∧
  e'.lastPcr = e.lastPcr ∧ e'.refValid = e.refValid ∧ e'.refPcr = e.refPcr ∧ e'.refWall = e.refWall

/-- The period fields of two entries are the same. -/
def SameSnapshot (e e' : Metric) : Prop :=
  e'.perPkt = e.perPkt ∧ e'.perTei = e.perTei ∧ e'.perCcerr = e.perCcerr ∧ e'.perDeltaMs = e.perDeltaMs ∧
  e'.perDriftMs = e.perDriftMs

end Sys2Proof.Spec

section
open Sys2Proof Sys2Proof.Machine Sys2Proof.Spec

/-! ### Reset and the invariant -/

/-- Rule R390 (with R62, R70, R391 and R393): a pulse of the reset input, in any state, gives every register the value
of rule R30's table, every metric entry all zero, and nothing queued, pending or in progress; every byte and word
of the memories is unwritten. That reset is one step is the model's choice (log entry 13). -/
def Obligations.ResetInputGivesResetValues : Prop :=
  ∀ (s : State) (w : U64) (ts : List Turn), s.turns = { agent := .reset, wall := w } :: ts →
    ∃ t, step s = .next t ∧ t.cfg = s.cfg ∧
      regValue t .id = 0x54534131#32 ∧ regValue t .ctrl = 0 ∧ regValue t .status = 0 ∧ regValue t .bufLen = 0 ∧
      regValue t .cmd = 0 ∧ regValue t .resultLo = 0 ∧ regValue t .resultHi = 0 ∧ regValue t .recCount = 0 ∧
      regValue t .errInfo = 0 ∧ regValue t .evtCount = 0 ∧ regValue t .evtPop = 0 ∧
      regValue t .params = regValue s .params ∧ regValue t .bufMax = regValue s .bufMax ∧ regValue t .reserved = 0 ∧
      (∀ (p : Pid) (f : MetricField), fieldValue f p (t.metric p) = if f = .state then p.toNat else 0) ∧
      t.fifo = [] ∧ t.pending = [] ∧ t.cur = none ∧ t.daNext = 0 ∧ t.daEnd = 0 ∧
      (∀ i, readByte t.buf i = .error (.bufUnwritten i)) ∧
      (∀ k x, readRecWord t.recs k x = .error (.recUnwritten k x))

/-- The state after reset meets the invariant, for every legal choice of the parameters. -/
def Obligations.ResetMeetsInvariant : Prop :=
  (∀ c : Config, c.Valid → (State.resetWith c).Inv) ∧ State.reset.Inv

/-- Every step of every agent keeps the invariant. -/
def Obligations.StepKeepsInvariant : Prop :=
  ∀ s t : State, s.Inv → step s = .next t → t.Inv

/-! ### Command words -/

/-- No bit of an encoding is dropped: every command a word stands for decodes from its own word. -/
def Obligations.DecodeOfEncode : Prop :=
  ∀ (c : Config) (i : Instr), i.wellFormed c = true → decode c (encode i) = .ok i

/-- Every legal word is the word of the command it decodes to, so no two words stand for one command. -/
def Obligations.EncodeOfDecode : Prop :=
  ∀ (c : Config) (w : Word) (i : Instr), decode c w = .ok i → encode i = w ∧ i.wellFormed c = true

/-- Rules R152, R154 and R356: at most one row of rule R151 matches a word; which words are illegal; and an
illegal word, when a CMD write issues it, sets CMD_ERR and changes no other state. That the write's own step does
it is the model's inference (log entry 6). -/
def Obligations.IllegalWordsByRule : Prop :=
  (∀ w : Word, ∀ x ∈ commandRows, ∀ y ∈ commandRows, w &&& x.2 = x.1 → w &&& y.2 = y.1 → x = y) ∧
  (∀ (c : Config) (w : Word), (∃ r, decode c w = .error r) ↔ IllegalWord c w) ∧
  ∀ (s : State) (wl : U64) (ts : List Turn) (w : Word) (q : List HostAccess),
    HostMoves s wl ts (.regWrite 4#4 w) q → s.cur = none → IllegalWord s.cfg w →
    step s = .next { afterHost s wl ts q with cmdErr := true }

/-- Words of 95_test_vectors.md's decoding table, written out from rule R151's bit patterns. -/
def Obligations.SpecWordsDecode : Prop :=
  decode Config.default 0b00000000000000000000000000000000#32 = .ok .nop ∧
  decode Config.default 0b00010000000000000000001110101100#32 = .ok (.locate 940#24) ∧
  decode Config.default 0b00100000000000000000000000000000#32 = .ok .frame ∧
  decode Config.default 0b00110001010110110000000100000000#32 = .ok (.addPacket 347#12 0x100#13) ∧
  decode Config.default 0b01000000000000100000000000000000#32 = .ok (.dispatch 2#12) ∧
  decode Config.default 0b01010000000000000000000000000000#32 = .ok .dispatchAll ∧
  decode Config.default 0b01100000000000000000000000000000#32 = .ok .windowTick ∧
  decode Config.default 0b01110000000100000000000100000000#32 = .ok (.readMetric .winMaxDrift 0x100#13) ∧
  decode Config.default 0b10000000000000000000000000000000#32 = .ok .clearSession

/-- Rule R35: a CMD write issues its word, which runs in that step; while BUSY = 1 the write is held and stays
the host's next access; a read of CMD returns 0. The second clause says the same of a command in progress. That
the write's own step runs the command, and that a held write keeps its place and uses up the turn, is the model's
(log entries 4 to 6); so is that the ENGINE runs a word in CUR that no run puts there (log entry 18). -/
def Obligations.StepRunsTheIssuedCommand : Prop :=
  (∀ (s : State) (wl : U64) (ts : List Turn) (w : Word) (q : List HostAccess) (i : Instr),
    HostMoves s wl ts (.regWrite 4#4 w) q → s.cur = none → decode s.cfg w = .ok i →
    step s = exec i (afterHost s wl ts q)) ∧
  (∀ (s : State) (wl : U64) (ts : List Turn) (w : Word) (i : Instr),
    s.turns = { agent := .engine, wall := wl } :: ts → s.cur = some w → decode s.cfg w = .ok i →
    step s = exec i { s with turns := ts, wall := wl }) ∧
  (∀ (s : State) (wl : U64) (ts : List Turn) (w : Word) (q : List HostAccess),
    HostMoves s wl ts (.regWrite 4#4 w) q → s.cur ≠ none →
    step s = .next { s with turns := ts, wall := wl }) ∧
  (∀ (s : State) (wl : U64) (ts : List Turn) (q : List HostAccess), HostMoves s wl ts (.regRead 4#4) q →
    step s = .next { afterHost s wl ts q with lastRead := some 0 })

/-- Rule R330: NOP "is the only command that changes no state". -/
def Obligations.NopChangesNothing : Prop := ∀ s : State, exec .nop s = .next s

/-! ### LOCATE -/

/-- Rules R160, R161, R163 and R165: on a written buffer LOCATE completes, puts the first confirmed offset from
START on, or 0xFFFFFFFF, in RESULT_LO, 0 in RESULT_HI, and changes nothing else. -/
def Obligations.LocateGivesFirstConfirmedOffset : Prop :=
  ∀ (s : State) (start : BitVec 24), s.bufferWritten →
    ∃ t, exec (.locate start) s = .next t ∧
      t = { s with resultLo := t.resultLo, resultHi := 0 } ∧
      ((∃ i, LocatedAt s.buf s.bufLen.toNat start.toNat i ∧ t.resultLo.toNat = i) ∨
       (NothingLocated s.buf s.bufLen.toNat start.toNat ∧ t.resultLo = 0xFFFFFFFF#32))

/-- Rule R164: the locator's answer, or the unwritten byte it stops on, depends on the bytes below `n` only. -/
def Obligations.LocateReadsOnlyBelowLength : Prop :=
  ∀ (b b' : List Host.Cell) (n start : Nat), (∀ i < n, Memory.read b i = Memory.read b' i) →
    locate b n start = locate b' n start

/-! ### FRAME -/

/-- Rule R221, with the frame of rules R92 and R180: on a written buffer FRAME completes with one of three
outcomes, and writes FRAME_STATUS, REC_COUNT, ERR_INFO and the record memory only. -/
def Obligations.FrameHasThreeOutcomes : Prop :=
  ∀ s : State, s.bufferWritten →
    ∃ t, exec .frame s = .next t ∧
      t = { s with frameStatus := t.frameStatus, recCount := t.recCount, errInfo := t.errInfo, recs := t.recs } ∧
      ((t.frameStatus = .ok ∧ t.errInfo = s.errInfo ∧ ¬ NothingLocated s.buf s.bufLen.toNat 0) ∨
       (t.frameStatus = .noSync ∧ t.recCount = 0 ∧ t.errInfo = s.errInfo ∧ t.recs = s.recs ∧
          NothingLocated s.buf s.bufLen.toNat 0) ∨
       (t.frameStatus = .framingError ∧ t.recCount = 0 ∧ t.errInfo.code ≠ .noError ∧ t.recs = s.recs ∧
          ¬ NothingLocated s.buf s.bufLen.toNat 0))

/-- Rules R182, R183 and R224: a FRAME that ends in OK committed, in order, the units from the located offset on;
it went on from one to the next only over a sync byte, and stopped only where a unit did not fit or no sync byte
stood. Slots from REC_COUNT on are unchanged. -/
def Obligations.FrameCommitsUnitsInOrder : Prop :=
  ∀ (s t : State) (o : Nat), s.cfg.Valid → s.bufLen.toNat ≤ s.cfg.bufMax →
    LocatedAt s.buf s.bufLen.toNat 0 o → exec .frame s = .next t → t.frameStatus = .ok →
    (∀ k < t.recCount.toNat, o + 188 * k + 188 ≤ s.bufLen.toNat ∧
      Memory.read s.buf (o + 188 * k) = some 0x47#8 ∧
      ∃ r, decodeUnit s.buf s.pcrMode (o + 188 * k) = .ok r ∧
        ∀ x < 16, Memory.read t.recs (16 * k + x) = (recordWords r)[x]?) ∧
    (s.bufLen.toNat < o + 188 * t.recCount.toNat + 188 ∨
      Memory.read s.buf (o + 188 * t.recCount.toNat) ≠ some 0x47#8) ∧
    ∀ a, 16 * t.recCount.toNat ≤ a → Memory.read t.recs a = Memory.read s.recs a

/-- Rules R216 and R217: the first unit, in buffer order, that gives Fatal ends FRAME; ERR_INFO holds its offset
and the code; no record is written. That bytes the pseudocode does not use may be unwritten is the model's inference
(log entries 9 and 10). -/
def Obligations.FrameStopsAtFirstFatalUnit : Prop :=
  ∀ (s : State) (o k u : Nat) (code : FrameErr) (dts : Bool),
    LocatedAt s.buf s.bufLen.toNat 0 o → (∀ i < o, Memory.read s.buf i ≠ none) →
    (∀ d ∈ [188, 376, 564, 752], ∀ i ≤ o, i + d < s.bufLen.toNat → Memory.read s.buf (i + d) ≠ none) →
    (∀ j < k, ∃ r, decodeUnit s.buf s.pcrMode (o + 188 * j) = .ok r) →
    (∀ j ≤ k, Memory.read s.buf (o + 188 * j) = some 0x47#8) →
    o + 188 * k + 188 ≤ s.bufLen.toNat →
    decodeUnit s.buf s.pcrMode (o + 188 * k) = .error (.fatal code dts u) →
    u = o + 188 * k ∧
    exec .frame s = .next
      { s with frameStatus := .framingError, recCount := 0
               errInfo := { unitOffset := BitVec.ofNat 24 (o + 188 * k), code := code, dts := dts } }

/-- Rule R220: FRAME's output is a function of BUF[0 .. BUF_LEN-1], BUF_LEN and CTRL.PCR_MODE: two states that
agree on these end FRAME alike, whatever else differs, the old record memory included: the same status and count, the
same error, the same record words, or the same stop. -/
def Obligations.FrameDependsOnlyOnBuffer : Prop :=
  ∀ s s' t : State, s.bufLen = s'.bufLen → s.pcrMode = s'.pcrMode →
    (∀ i < s.bufLen.toNat, Memory.read s.buf i = Memory.read s'.buf i) →
    (exec .frame s = .next t →
      ∃ t', exec .frame s' = .next t' ∧ t'.frameStatus = t.frameStatus ∧ t'.recCount = t.recCount ∧
        (t.frameStatus = .framingError → t'.errInfo = t.errInfo) ∧
        ∀ a < 16 * t.recCount.toNat, Memory.read t'.recs a = Memory.read t.recs a) ∧
    ∀ f, exec .frame s = .fault f → exec .frame s' = .fault f

/-- Rule R185: the record of a written unit, or its framing-fatal error, is what the pseudocode computes from the
unit's 188 bytes. -/
def Obligations.DecodeUnitMeetsPseudocode : Prop :=
  ∀ (buf : List Host.Cell) (mode : PcrMode) (o : Nat) (b : Nat → Byte), o + 188 ≤ 2 ^ 24 →
    (∀ j < 188, Memory.read buf (o + j) = some (b j)) →
    match unitRecord (fun j => (b j).toNat) (modeNumber mode) with
    | .ok r => ∃ u, decodeUnit buf mode o = .ok u ∧ (recordWords u).map BitVec.toNat = flatWords o r
    | .error e => decodeUnit buf mode o = .error (.fatal e.1 e.2 o)

/-- Rules R111 and R136: whatever else a unit holds, its record's W0 and W9 carry the header fields and the
unit's offset. -/
def Obligations.HeaderFieldsAtTheirBits : Prop :=
  ∀ (buf : List Host.Cell) (mode : PcrMode) (o : Nat) (b0 b1 b2 b3 : Byte) (u : UnitRecord), o < 2 ^ 24 →
    Memory.read buf o = some b0 → Memory.read buf (o + 1) = some b1 → Memory.read buf (o + 2) = some b2 →
    Memory.read buf (o + 3) = some b3 → decodeUnit buf mode o = .ok u →
    let w0 := (recordW0 u).toNat
    bits w0 0 1 = flag (b0 == 0x47#8) ∧ bits w0 12 1 = b1.toNat / 128 ∧ bits w0 2 1 = b1.toNat / 64 % 2 ∧
    bits w0 3 1 = b1.toNat / 32 % 2 ∧ bits w0 16 13 = b1.toNat % 32 * 256 + b2.toNat ∧
    bits w0 4 2 = b3.toNat / 64 ∧ bits w0 6 1 = b3.toNat / 32 % 2 ∧ bits w0 7 1 = b3.toNat / 16 % 2 ∧
    bits w0 8 4 = b3.toNat % 16 ∧ ((recordWords u)[9]?).map BitVec.toNat = some o

/-- Rule R188: a unit that fails the gate gets its header fields only, whatever bytes follow its header, written
or not. That unwritten bytes there do not stop it is the model's inference (log entries 9 and 10). -/
def Obligations.UngatedUnitIsHeaderOnly : Prop :=
  ∀ (buf : List Host.Cell) (mode : PcrMode) (o : Nat) (b0 b1 b2 b3 : Byte),
    Memory.read buf o = some b0 → Memory.read buf (o + 1) = some b1 → Memory.read buf (o + 2) = some b2 →
    Memory.read buf (o + 3) = some b3 →
    (b3.getLsbD 4 = false ∨ b1.getLsbD 7 = true ∨ b1.toNat % 32 * 256 + b2.toNat = 0x1FFF) →
    ∃ u, decodeUnit buf mode o = .ok u ∧ u.af = none ∧ u.pes = none ∧ u.payload = none ∧
      u.tei = b1.getLsbD 7 ∧ u.teiHdr = b1.getLsbD 7 ∧
      ((recordWords u).drop 1).take 8 = [0, 0, 0, 0, 0xFFFFFFFF#32, 0xFFFFFFFF#32, 0xFFFFFFFF#32, 0xFFFFFFFF#32] ∧
      (recordWords u)[10]? = some 0

/-- Rules R189, R190, R191, R193 and R195 on a gated unit with AFC_AF = 1: L >= 183 is fatal; otherwise a record
carries the field with FIELD_SIZE = L + 1, its flags (0 when L = 0), and a PCR exactly when PCR_FLAG = 1 and
L >= 7. -/
def Obligations.AdaptationFieldDecode : Prop :=
  ∀ (buf : List Host.Cell) (mode : PcrMode) (o : Nat) (b : Nat → Byte),
    (∀ j < 188, Memory.read buf (o + j) = some (b j)) →
    (b 3).getLsbD 4 = true → (b 1).getLsbD 7 = false → (b 1).toNat % 32 * 256 + (b 2).toNat ≠ 0x1FFF →
    (b 3).getLsbD 5 = true →
    (183 ≤ (b 4).toNat → decodeUnit buf mode o = .error (.fatal .afSize false o)) ∧
    ∀ u, decodeUnit buf mode o = .ok u →
      (b 4).toNat < 183 ∧ ∃ a, u.af = some a ∧ a.fieldSize.toNat = (b 4).toNat + 1 ∧
        a.flags = (if (b 4).toNat = 0 then 0 else b 5) ∧
        (a.pcr.isSome = true ↔ (1 ≤ (b 4).toNat ∧ (b 5).getLsbD 4 = true ∧ 7 ≤ (b 4).toNat)) ∧
        ∀ v, a.pcr = some v → v = pcrRebuild mode (b 6) (b 7) (b 8) (b 9) (b 10) (b 11)

/-- Rules R196 and R197: the rebuilt PCR in each mode, and that it fits 42 bits. -/
def Obligations.PcrRebuildValue : Prop :=
  ∀ (mode : PcrMode) (p0 p1 p2 p3 p4 p5 : Byte),
    (pcrRebuild mode p0 p1 p2 p3 p4 p5).toNat =
      pcrValue (modeNumber mode) p0.toNat p1.toNat p2.toNat p3.toNat p4.toNat p5.toNat ∧
    (pcrRebuild mode p0 p1 p2 p3 p4 p5).toNat ≤ 2576980377811

/-- Rule R209 (with R116): a timestamp field with a wrong code, then one with a marker bit 0, is fatal; any other
has the value of rule R116, below 2^33. -/
def Obligations.TimestampField : Prop :=
  ∀ (buf : List Host.Cell) (o j : Nat) (code : BitVec 4) (dts : Bool) (b : Nat → Byte),
    (∀ i < 5, Memory.read buf (o + (j + i)) = some (b (j + i))) →
    match stampAt (fun i => (b i).toNat) j code.toNat dts with
    | .ok v => v < 2 ^ 33 ∧ ∃ x, timestamp buf o j code dts = .ok x ∧ x.toNat = v
    | .error e => timestamp buf o j code dts = .error (.fatal e.1 e.2 o)

/-- Rules R137 and R140: a record's payload and raw PES header lie inside its unit, and a payload ends where the
unit ends. -/
def Obligations.RecordRangesInsideUnit : Prop :=
  ∀ (buf : List Host.Cell) (mode : PcrMode) (o : Nat) (u : UnitRecord) (w9 w10 : Word), o + 188 ≤ 2 ^ 24 →
    decodeUnit buf mode o = .ok u → (recordWords u)[9]? = some w9 → (recordWords u)[10]? = some w10 →
    (u.payload ≠ none → o + 4 ≤ (payloadRange w9 w10).1 ∧ 1 ≤ (payloadRange w9 w10).2 ∧
      (payloadRange w9 w10).1 + (payloadRange w9 w10).2 = o + 188) ∧
    (u.pes ≠ none → o + 4 ≤ (pesRange w9 w10).1 ∧ 9 ≤ (pesRange w9 w10).2 ∧
      (pesRange w9 w10).1 + (pesRange w9 w10).2 ≤ o + 188)

/-! ### ADD_PACKET, DISPATCH, DISPATCH_ALL -/

/-- Rule R141: the fields a packet command reads from a slot, at the bits of rules R131 to R133; no other word
or bit of the slot has a part in them. -/
def Obligations.RecordFieldsAtTheirBits : Prop :=
  ∀ (recs : List (Nat × Word)) (k : Nat) (w0 w1 w2 w3 : Word),
    Memory.read recs (16 * k) = some w0 → Memory.read recs (16 * k + 1) = some w1 →
    Memory.read recs (16 * k + 2) = some w2 → Memory.read recs (16 * k + 3) = some w3 →
    ∃ r, readRecord recs k = .ok r ∧
      flag r.tei = bits w0.toNat 1 1 ∧ flag r.afcPl = bits w0.toNat 7 1 ∧ r.cc.toNat = bits w0.toNat 8 4 ∧
      r.pid.toNat = bits w0.toNat 16 13 ∧ flag r.afAttached = bits w0.toNat 29 1 ∧
      flag r.disc = bits w1.toNat 15 1 ∧ flag r.pcrFlag = bits w1.toNat 12 1 ∧
      flag r.pcrValid = bits w1.toNat 16 1 ∧ r.pcr.toNat = w2.toNat + 2 ^ 32 * (w3.toNat % 2 ^ 10)

/-- Rules R246, R247 and R257, and completion: a packet whose slot holds its record and which need not wait is
added, by ADD_PACKET with its own PID and by DISPATCH alike. Its entry is observed and counts one more packet,
and unless it is a TEI packet its counter is recorded. -/
def Obligations.PacketIsCounted : Prop :=
  ∀ (s : State) (k : BitVec 12) (r : RecView), Holds s k r → ¬ MustWait s r →
    ∃ t, BothGoTo s k r t ∧ t.cur = none ∧
      (t.metric r.pid).observed = true ∧
      (t.metric r.pid).pkt = (s.metric r.pid).pkt + 1 ∧
      (t.metric r.pid).winPkt = (s.metric r.pid).winPkt + 1 ∧
      (r.tei = false → (t.metric r.pid).lastCc = r.cc ∧ (t.metric r.pid).ccValid = true)

/-- Rule R248: a TEI packet adds 1 to the packet and TEI counters of its entry and does nothing else to it, and
makes no event. -/
def Obligations.TeiPacketOnlyCounts : Prop :=
  ∀ (s : State) (k : BitVec 12) (r : RecView), Holds s k r → r.tei = true →
    ∃ t, BothGoTo s k r t ∧ t.fifo = s.fifo ∧
      t.metric r.pid = { s.metric r.pid with
        observed := true, pkt := (s.metric r.pid).pkt + 1, winPkt := (s.metric r.pid).winPkt + 1,
        tei := (s.metric r.pid).tei + 1, winTei := (s.metric r.pid).winTei + 1 }

/-- Rules R249 and R250: with no prior counter, or on the null PID, no comparison is made: no error, no event; the
packet is counted and its counter recorded, and but for PCR state nothing else changes. -/
def Obligations.FirstOrNullPacketIsNotCompared : Prop :=
  ∀ (s : State) (k : BitVec 12) (r : RecView), Holds s k r → r.tei = false →
    ((s.metric r.pid).ccValid = false ∨ r.pid = 0x1FFF#13) →
    ∃ t, BothGoTo s k r t ∧ t.fifo = s.fifo ∧
      t.metric r.pid = withPcrStateOf (t.metric r.pid) (counted r (s.metric r.pid)) ∧
      (¬ Eligible r → t.metric r.pid = counted r (s.metric r.pid))

/-- Rule R251: a repeated counter is an error on a packet with payload and tolerated on one without; no event and
no rebase either way. -/
def Obligations.RepeatedCounter : Prop :=
  ∀ (s : State) (k : BitVec 12) (r : RecView), Holds s k r → r.tei = false → r.pid ≠ 0x1FFF#13 →
    (s.metric r.pid).ccValid = true → r.cc = (s.metric r.pid).lastCc →
    let e := if r.afcPl then plusCcError (counted r (s.metric r.pid)) else counted r (s.metric r.pid)
    ∃ t, BothGoTo s k r t ∧ t.fifo = s.fifo ∧ t.metric r.pid = withPcrStateOf (t.metric r.pid) e ∧
      (¬ Eligible r → t.metric r.pid = e)

/-- Rule R252: a counter one above the last, 15 to 0 included, is no error. -/
def Obligations.InSequenceCounter : Prop :=
  ∀ (s : State) (k : BitVec 12) (r : RecView), Holds s k r → r.tei = false → r.pid ≠ 0x1FFF#13 →
    (s.metric r.pid).ccValid = true → r.cc.toNat = ((s.metric r.pid).lastCc.toNat + 1) % 16 →
    ∃ t, BothGoTo s k r t ∧ t.fifo = s.fifo ∧
      t.metric r.pid = withPcrStateOf (t.metric r.pid) (counted r (s.metric r.pid)) ∧
      (¬ Eligible r → t.metric r.pid = counted r (s.metric r.pid))

/-- Rules R253 and R255: any other counter is a discontinuity: one more error, and one event when EVT_EN = 1 (none
when EVT_EN = 0). -/
def Obligations.DiscontinuityIsCountedAndNotified : Prop :=
  ∀ (s : State) (k : BitVec 12) (r : RecView), Holds s k r → Discontinuous r (s.metric r.pid) → ¬ MustWait s r →
    ∃ t, BothGoTo s k r t ∧ t.fifo = (if s.evtEn then s.fifo ++ [r.pid] else s.fifo) ∧
      t.metric r.pid = withPcrStateOf (t.metric r.pid) (plusCcError (counted r (s.metric r.pid)))

/-- Rule R254: a discontinuity sets the reference pair to this packet's PCR and the scaled wall sample if it
carries a PCR, DISC or not, and resets the pair otherwise. Rules R281 and R292: unless the packet is eligible the PCR
step is not run, and the rest of the PCR state stays as it was. -/
def Obligations.DiscontinuityRebases : Prop :=
  ∀ (s : State) (k : BitVec 12) (r : RecView), Holds s k r → Discontinuous r (s.metric r.pid) → ¬ MustWait s r →
    ∃ t, BothGoTo s k r t ∧
      (CarriesPcr r → (t.metric r.pid).refValid = true ∧ (t.metric r.pid).refPcr = r.pcr ∧
        (t.metric r.pid).refWall.toNat = scaled s) ∧
      (¬ CarriesPcr r → (t.metric r.pid).refValid = false ∧ (t.metric r.pid).refPcr = 0 ∧
        (t.metric r.pid).refWall = 0) ∧
      (¬ Eligible r → (t.metric r.pid).lastPcr = (s.metric r.pid).lastPcr ∧
        (t.metric r.pid).lastPcrValid = (s.metric r.pid).lastPcrValid ∧
        (t.metric r.pid).pcrPresent = (s.metric r.pid).pcrPresent ∧
        (t.metric r.pid).winMaxDelta = (s.metric r.pid).winMaxDelta ∧
        (t.metric r.pid).winMaxDrift = (s.metric r.pid).winMaxDrift)

/-- Rule R291: a discontinuity packet that is also eligible rebases first, so its drift is 0 and the window's
largest drift keeps its value; the delta to the last PCR is still taken, and the step ends as rule R290 says. -/
def Obligations.RebaseComesBeforePcrStep : Prop :=
  ∀ (s : State) (k : BitVec 12) (r : RecView), Holds s k r → Discontinuous r (s.metric r.pid) → ¬ MustWait s r →
    Eligible r →
    ∃ t, BothGoTo s k r t ∧ (t.metric r.pid).refValid = true ∧ (t.metric r.pid).refPcr = r.pcr ∧
      (t.metric r.pid).refWall.toNat = scaled s ∧
      (t.metric r.pid).winMaxDrift = (s.metric r.pid).winMaxDrift ∧
      (t.metric r.pid).winMaxDelta.toNat = deltaAfter r.pcr (s.metric r.pid) ∧
      (t.metric r.pid).lastPcr = r.pcr ∧ (t.metric r.pid).lastPcrValid = true ∧ (t.metric r.pid).pcrPresent = true

/-- Rules R280, R283 and R290: an eligible PCR that finds no reference pair sets it, with the exactly scaled wall
sample, and takes no delta and no drift. -/
def Obligations.FirstPcrSetsReference : Prop :=
  ∀ (s : State) (k : BitVec 12) (r : RecView), Holds s k r → r.tei = false →
    ¬ Discontinuous r (s.metric r.pid) → Eligible r → (s.metric r.pid).refValid = false →
    ∃ t, BothGoTo s k r t ∧
      (t.metric r.pid).refValid = true ∧ (t.metric r.pid).refPcr = r.pcr ∧
      (t.metric r.pid).refWall.toNat = scaled s ∧
      (t.metric r.pid).winMaxDelta = (s.metric r.pid).winMaxDelta ∧
      (t.metric r.pid).winMaxDrift = (s.metric r.pid).winMaxDrift ∧
      (t.metric r.pid).lastPcr = r.pcr ∧ (t.metric r.pid).lastPcrValid = true ∧
      (t.metric r.pid).pcrPresent = true

/-- Rules R285 to R290: an eligible PCR that finds a reference pair enters its delta and its drift magnitude in
the window's maxima and keeps the pair. -/
def Obligations.SubsequentPcrTracksDeltaAndDrift : Prop :=
  ∀ (s : State) (k : BitVec 12) (r : RecView), Holds s k r → r.tei = false →
    ¬ Discontinuous r (s.metric r.pid) → Eligible r → (s.metric r.pid).refValid = true →
    ∃ t, BothGoTo s k r t ∧
      (t.metric r.pid).refValid = true ∧ (t.metric r.pid).refPcr = (s.metric r.pid).refPcr ∧
      (t.metric r.pid).refWall = (s.metric r.pid).refWall ∧
      (t.metric r.pid).winMaxDelta.toNat = deltaAfter r.pcr (s.metric r.pid) ∧
      (t.metric r.pid).winMaxDrift.toNat =
        max (s.metric r.pid).winMaxDrift.toNat (driftOf r.pcr (scaled s) (s.metric r.pid)).natAbs ∧
      (t.metric r.pid).lastPcr = r.pcr ∧ (t.metric r.pid).lastPcrValid = true ∧
      (t.metric r.pid).pcrPresent = true

/-- Rules R281 and R358: a record that is not eligible, one with DISC = 1 among them, leaves all PCR state of its
entry alone unless it is a discontinuity. -/
def Obligations.IneligiblePcrIsIgnored : Prop :=
  ∀ (s : State) (k : BitVec 12) (r : RecView), Holds s k r → ¬ Discontinuous r (s.metric r.pid) → ¬ Eligible r →
    ∃ t, BothGoTo s k r t ∧ t.metric r.pid = withPcrStateOf (s.metric r.pid) (t.metric r.pid)

/-- Rules R256 and R241: a packet that would push into a full FIFO is not taken; the command stays in progress
with its word in CUR, and nothing else changes. -/
def Obligations.HeldOnFullFifo : Prop :=
  (∀ (s : State) (k : BitVec 12) (r : RecView), Holds s k r → MustWait s r →
    exec (.addPacket k r.pid) s =
      .next { s with cur := some (BitVec.ofNat 32 (3 * 2 ^ 28 + k.toNat * 2 ^ 16 + r.pid.toNat)) } ∧
    exec (.dispatch k) s = .next { s with cur := some (BitVec.ofNat 32 (4 * 2 ^ 28 + k.toNat * 2 ^ 16)) }) ∧
  ∀ (s : State) (r : RecView), s.cur = some 0x50000000#32 → readRecord s.recs s.daNext.toNat = .ok r →
    MustWait s r → exec .dispatchAll s = .next s

/-- Rule R256's release: in a state that meets the invariant, a held ADD_PACKET goes on in the ENGINE's first step
after the host has read EVT_POP, and then its event is pushed. The two turns follow each other as listed (log
entry 2). -/
def Obligations.HeldPacketGoesOnAfterPop : Prop :=
  ∀ (s : State) (k : BitVec 12) (r : RecView) (w1 w2 : U64) (ts : List Turn) (q : List HostAccess),
    s.Inv → Holds s k r → MustWait s r → s.cur = some (encode (.addPacket k r.pid)) →
    s.turns = { agent := .host, wall := w1 } :: { agent := .engine, wall := w2 } :: ts →
    s.hostQueue = .regRead 10#4 :: q →
    ∃ t, Host.Core.run core 2 s = .next t ∧ t.cur = none ∧ t.fifo = s.fifo.drop 1 ++ [r.pid] ∧
      (t.metric r.pid).ccerr = (s.metric r.pid).ccerr + 1 ∧
      (t.metric r.pid).pkt = (s.metric r.pid).pkt + 1

/-- Rules R243 and R355: ADD_PACKET with another PID than the record's sets USAGE_ERR, completes, and changes
nothing else. -/
def Obligations.UsageErrorOnPidMismatch : Prop :=
  ∀ (s : State) (k : BitVec 12) (r : RecView) (p : Pid), Holds s k r → r.pid ≠ p →
    exec (.addPacket k p) s = .next { s with usageErr := true, cur := none }

/-- Rule R260: DISPATCH_ALL captures REC_COUNT, and is done at once if that is 0; each later record step does what
DISPATCH of the next slot does, moves on by one, and completes the command at the last record. That accepting is a
step of its own is the model's inference (log entry 8). -/
def Obligations.DispatchAllStepByStep : Prop :=
  (∀ s : State, s.cur = none →
    exec .dispatchAll s = .next
      { s with daNext := 0, daEnd := s.recCount
               cur := if s.recCount.toNat = 0 then none else some 0x50000000#32 }) ∧
  ∀ (s : State) (k : BitVec 12) (r : RecView), s.cur = some 0x50000000#32 → k.toNat = s.daNext.toNat →
    Holds s k r → ¬ MustWait s r →
    ∃ t, exec (.dispatch k) s = .next t ∧
      exec .dispatchAll s = .next
        { t with daNext := s.daNext + 1, cur := if s.daNext + 1 = s.daEnd then none else s.cur }

/-- Rules R402 and R408, bounded: with EVT_EN = 0 a DISPATCH_ALL issued in a state that meets the invariant is
complete after one accepting step and REC_COUNT record steps of the ENGINE, and never stops on a fault. That the CMD
write's step is the accepting step, and adds no record, is the model's inference (log entries 6 and 8). -/
def Obligations.DispatchAllRunsToTheEnd : Prop :=
  ∀ (s : State) (w : U64) (ws : List U64) (ts : List Turn) (q : List HostAccess),
    s.Inv → s.cur = none → s.evtEn = false → ws.length = s.recCount.toNat →
    s.turns = { agent := .host, wall := w } :: (ws.map (fun x => { agent := .engine, wall := x })) ++ ts →
    s.hostQueue = .regWrite 4#4 0x50000000#32 :: q →
    ∃ t, Host.Core.run core (ws.length + 1) s = .next t ∧ t.cur = none ∧ t.turns = ts ∧ t.hostQueue = q ∧
      t.daNext = s.recCount ∧ t.fifo = s.fifo ∧ t.recs = s.recs

/-- Rules R60, R92 and R245: the frame of the packet commands. ADD_PACKET writes the entry of its PID operand,
DISPATCH and DISPATCH_ALL that of the record's PID, and besides these the event FIFO, CUR, the DISPATCH_ALL
counters and the two error bits, as named, and nothing else: no memory byte or word, no other register. On a slot in
range CMD_ERR is unchanged (R152), and USAGE_ERR too if the PID is the record's (R243). -/
def Obligations.PacketCommandFrame : Prop :=
  (∀ (s t : State) (k : BitVec 12) (p : Pid), exec (.addPacket k p) s = .next t →
    t = { s with metrics := t.metrics, fifo := t.fifo, cur := t.cur, usageErr := t.usageErr, cmdErr := t.cmdErr } ∧
    (k.toNat < s.cfg.bufMax / 188 → t.cmdErr = s.cmdErr) ∧
    (∀ r, readRecord s.recs k.toNat = .ok r → r.pid = p → t.usageErr = s.usageErr) ∧
    ∀ q, q ≠ p → t.metric q = s.metric q) ∧
  (∀ (s t : State) (k : BitVec 12), exec (.dispatch k) s = .next t →
    t = { s with metrics := t.metrics, fifo := t.fifo, cur := t.cur, cmdErr := t.cmdErr } ∧
    (k.toNat < s.cfg.bufMax / 188 → t.cmdErr = s.cmdErr) ∧
    ∀ q, (∀ r, readRecord s.recs k.toNat = .ok r → q ≠ r.pid) → t.metric q = s.metric q) ∧
  ∀ s t : State, exec .dispatchAll s = .next t →
    t = { s with metrics := t.metrics, fifo := t.fifo, cur := t.cur, daNext := t.daNext, daEnd := t.daEnd } ∧
    ∀ q, (∀ r, readRecord s.recs s.daNext.toNat = .ok r → q ≠ r.pid) → t.metric q = s.metric q

/-- Rule R64 (U1): a packet command on a slot of which one of the four words it reads was never written stops
with that fault. Which words a command reads, in which order, is the model's inference (log entry 11). -/
def Obligations.UnwrittenRecordFaults : Prop :=
  ∀ (s : State) (k : BitVec 12) (p : Pid) (x : Nat), k.toNat < s.cfg.bufMax / 188 → x < 4 →
    Memory.read s.recs (16 * k.toNat + x) = none →
    (∀ y < x, Memory.read s.recs (16 * k.toNat + y) ≠ none) →
    exec (.addPacket k p) s = .fault (.recUnwritten k.toNat x) ∧
    exec (.dispatch k) s = .fault (.recUnwritten k.toNat x)

/-! ### Windowing -/

/-- Rules R310 to R313: a request, by WINDOW_TICK or by a pulse on the TICK pin, adds every observed PID to the
pending set, and sets TICK_OVERRUN if a sweep was pending. Nothing else changes. -/
def Obligations.WindowRequestMarksObserved : Prop :=
  (∀ s : State, Memory.wf s.metrics →
    ∃ t, exec .windowTick s = .next t ∧
      t = { s with pending := t.pending, tickOverrun := t.tickOverrun } ∧
      (t.tickOverrun = true ↔ (s.tickOverrun = true ∨ s.pending ≠ [])) ∧
      ∀ p : Pid, p.toNat ∈ t.pending ↔ (p.toNat ∈ s.pending ∨ (s.metric p).observed = true)) ∧
  ∀ (s : State) (w : U64) (ts : List Turn), s.turns = { agent := .tickSrc, wall := w } :: ts →
    step s = exec .windowTick { s with turns := ts, wall := w }

/-- Rules R314, R316, R317, R318 and R319: while PID p is pending, in whatever place, the SWEEPER's swap of p takes the
snapshot, zeroes the accumulators, and takes p from the pending set; no other entry and nothing else changes. -/
def Obligations.SwapTakesSnapshot : Prop :=
  ∀ (s : State) (p : Pid) (w : U64) (ts : List Turn), s.turns = { agent := .sweeper p, wall := w } :: ts →
    p.toNat ∈ s.pending →
    ∃ t, step s = .next t ∧
      t = { s with turns := ts, wall := w, metrics := t.metrics, pending := t.pending } ∧
      Swapped (s.metric p) (t.metric p) ∧ (∀ q, q ≠ p → t.metric q = s.metric q) ∧
      ∀ x, x ∈ t.pending ↔ (x ∈ s.pending ∧ x ≠ p.toNat)

/-- Rule R323, and R314's "every order": taken in any order, the swaps of the pending PIDs end the sweep in as many
steps as there were PIDs, and each pending entry, and no other, was swapped once. -/
def Obligations.SweepEndsInAnyOrder : Prop :=
  ∀ (s : State) (l : List (Pid × U64)) (ts : List Turn), pidSetWf s.pending →
    (l.map (fun x => x.1.toNat)).Perm s.pending →
    s.turns = l.map (fun x => { agent := .sweeper x.1, wall := x.2 }) ++ ts →
    ∃ t, Host.Core.run core l.length s = .next t ∧ t.pending = [] ∧ t.turns = ts ∧
      ∀ p : Pid, (p.toNat ∈ s.pending → Swapped (s.metric p) (t.metric p)) ∧
        (p.toNat ∉ s.pending → t.metric p = s.metric p)

/-! ### READ_METRIC and CLEAR_SESSION -/

/-- Rule R332: READ_METRIC puts the field's 64-bit value in RESULT_HI:RESULT_LO and changes nothing else. -/
def Obligations.ReadMetricGivesField : Prop :=
  ∀ (s : State) (f : MetricField) (p : Pid),
    ∃ t, exec (.readMetric f p) s = .next t ∧ t = { s with resultLo := t.resultLo, resultHi := t.resultHi } ∧
      t.resultLo.toNat + 2 ^ 32 * t.resultHi.toNat = fieldValue f p (s.metric p)

/-- Rule R333: in a state that meets the invariant, an entry that is not observed reads 0 in every field, and its
PID in field 0. -/
def Obligations.NeverObservedReadsZero : Prop :=
  ∀ (s : State) (f : MetricField) (p : Pid), s.Inv → (s.metric p).observed = false →
    exec (.readMetric f p) s = .next
      { s with resultLo := if f = .state then p.setWidth 32 else 0, resultHi := 0 }

/-- Rule R335: CLEAR_SESSION resets every metric entry and empties PENDING; everything else is unchanged. -/
def Obligations.ClearSessionClearsMetrics : Prop :=
  ∀ s : State, ∃ t, exec .clearSession s = .next t ∧ t = { s with metrics := t.metrics, pending := [] } ∧
    ∀ (p : Pid) (f : MetricField), fieldValue f p (t.metric p) = if f = .state then p.toNat else 0

/-! ### The host's ports -/

/-- Rules R336, R337 and R34: a write of CTRL stores EVT_EN, IRQ_EN and PCR_MODE, 3 as 0, and with EVT_EN = 0 no
packet is held any more; a write of STATUS clears exactly the sticky bits written with 1; a write of BUF_LEN, while
BUSY = 0, stores the smaller of v[23:0] and BUF_MAX. -/
def Obligations.CtrlStatusAndBufLenWrites : Prop :=
  (∀ (s : State) (w : U64) (ts : List Turn) (v : Word) (q : List HostAccess), HostMoves s w ts (.regWrite 1#4 v) q →
    ∃ t, step s = .next t ∧
      t = { afterHost s w ts q with evtEn := t.evtEn, irqEn := t.irqEn, pcrMode := t.pcrMode } ∧
      flag t.evtEn = bits v.toNat 0 1 ∧ flag t.irqEn = bits v.toNat 1 1 ∧
      modeNumber t.pcrMode = (if bits v.toNat 2 2 = 3 then 0 else bits v.toNat 2 2) ∧
      (regValue t .ctrl).toNat = flag t.evtEn + 2 * flag t.irqEn + 4 * modeNumber t.pcrMode ∧
      (t.evtEn = false → ∀ r, ¬ MustWait t r)) ∧
  (∀ (s : State) (w : U64) (ts : List Turn) (v : Word) (q : List HostAccess), HostMoves s w ts (.regWrite 2#4 v) q →
    step s = .next { afterHost s w ts q with
      usageErr := if v.getLsbD 8 then false else s.usageErr
      cmdErr := if v.getLsbD 9 then false else s.cmdErr
      tickOverrun := if v.getLsbD 10 then false else s.tickOverrun }) ∧
  ∀ (s : State) (w : U64) (ts : List Turn) (v : Word) (q : List HostAccess), s.cfg.Valid →
    HostMoves s w ts (.regWrite 3#4 v) q → s.cur = none →
    ∃ t, step s = .next t ∧ t = { afterHost s w ts q with bufLen := t.bufLen } ∧
      t.bufLen.toNat = min (v.toNat % 2 ^ 24) s.cfg.bufMax ∧ (regValue t .bufLen).toNat = t.bufLen.toNat

/-- Rules R30, R40 and R86: which register stands at each word offset; a read of EVT_POP returns bit 31 with the
oldest PID and removes it, or 0 from an empty FIFO; every other read returns its register's value, which
`ReadOnlyRegisterValues` and `CtrlStatusAndBufLenWrites` give, and changes nothing. -/
def Obligations.RegisterReads : Prop :=
  (List.range 16).map (fun x => regAt (BitVec.ofNat 4 x)) =
    [.id, .ctrl, .status, .bufLen, .cmd, .resultLo, .resultHi, .recCount, .errInfo, .evtCount, .evtPop, .params,
     .bufMax, .reserved, .reserved, .reserved] ∧
  (∀ (s : State) (w : U64) (ts : List Turn) (q : List HostAccess), HostMoves s w ts (.regRead 10#4) q →
    (∀ p ps, s.fifo = p :: ps →
      step s = .next { afterHost s w ts q with
        fifo := ps, lastRead := some (BitVec.ofNat 32 (2 ^ 31 + p.toNat)) }) ∧
    (s.fifo = [] → step s = .next { afterHost s w ts q with lastRead := some 0 })) ∧
  ∀ (s : State) (w : U64) (ts : List Turn) (x : BitVec 4) (q : List HostAccess), HostMoves s w ts (.regRead x) q →
    x ≠ 10#4 → step s = .next { afterHost s w ts q with lastRead := some (regValue s (regAt x)) }

/-- Rules R31, R33, R36 to R39, R41 and R42: the values the read-only registers show; and rule R361's IRQ. -/
def Obligations.ReadOnlyRegisterValues : Prop :=
  ∀ s : State, s.cfg.Valid → s.fifo.length ≤ s.cfg.evtDepth →
    regValue s .id = 0x54534131#32 ∧
    (regValue s .status).toNat =
      (match s.frameStatus with | .noFrame => 0 | .ok => 1 | .noSync => 2 | .framingError => 3)
      + 4 * flag s.cur.isSome + 8 * flag (decide (s.pending ≠ [])) + 256 * flag s.usageErr + 512 * flag s.cmdErr
      + 1024 * flag s.tickOverrun ∧
    regValue s .resultLo = s.resultLo ∧ regValue s .resultHi = s.resultHi ∧
    (regValue s .recCount).toNat = s.recCount.toNat ∧
    (regValue s .errInfo).toNat = s.errInfo.unitOffset.toNat
      + 2 ^ 24 * (match s.errInfo.code with
          | .noError => 0 | .afSize => 1 | .ptsDtsFlag => 2 | .tsCode => 3 | .tsMarker => 4)
      + 2 ^ 28 * flag s.errInfo.dts ∧
    (regValue s .evtCount).toNat = s.fifo.length ∧
    (regValue s .params).toNat = s.cfg.bufMax / 188 + 2 ^ 16 * s.cfg.evtDepth ∧
    (regValue s .bufMax).toNat = s.cfg.bufMax ∧
    (irq s = true ↔ (s.irqEn = true ∧ s.fifo ≠ []))

/-- Rules R30, R31 and R43: a write of a read-only register or of a reserved offset changes nothing, BUSY or not,
and a reserved offset reads 0. -/
def Obligations.IgnoredWritesAndReservedReads : Prop :=
  (∀ (s : State) (w : U64) (ts : List Turn) (x : BitVec 4) (v : Word) (q : List HostAccess),
    HostMoves s w ts (.regWrite x v) q → (x = 0#4 ∨ 5#4 ≤ x) → step s = .next (afterHost s w ts q)) ∧
  ∀ (s : State) (w : U64) (ts : List Turn) (x : BitVec 4) (q : List HostAccess),
    HostMoves s w ts (.regRead x) q → 13#4 ≤ x →
    step s = .next { afterHost s w ts q with lastRead := some 0 }

/-- Rule R44: while BUSY = 1 the host still reads every register and writes CTRL and STATUS; its writes of CMD,
BUF_LEN, the buffer memory and the record memory are held: they stay its next access and change nothing (that they
keep their place, and use up a turn, is the model's: log entries 4 and 5). -/
def Obligations.HostAccessWhileBusy : Prop :=
  ∀ (s : State) (w : U64) (ts : List Turn) (a : HostAccess) (q : List HostAccess),
    HostMoves s w ts a q → s.cur ≠ none →
    (((∃ v, a = .regWrite 4#4 v) ∨ (∃ v, a = .regWrite 3#4 v) ∨ (∃ i b, a = .bufWrite i b) ∨
        (∃ k x v, a = .recWrite k x v)) → step s = .next { s with turns := ts, wall := w }) ∧
    (((∃ x, a = .regRead x) ∨ (∃ v, a = .regWrite 1#4 v) ∨ (∃ v, a = .regWrite 2#4 v)) →
      ∃ t, step s = .next t ∧ t.hostQueue = q ∧ t.cur = s.cur)

/-- Rules R81 and R82: the buffer and record ports. While BUSY = 0, a write in range is what a read of the same place
then finds, and no other place changes; a write out of range is ignored. BUSY or not (R44 and R370 hold writes only), a
read in range of a written place returns it, one of an unwritten place stops with its fault (rules R63 and R64, U1), and
one out of range returns 0. -/
def Obligations.BufferAndRecordPorts : Prop :=
  (∀ (s : State) (w : U64) (ts : List Turn) (q : List HostAccess), s.cur = none →
    (∀ i b, HostMoves s w ts (.bufWrite i b) q → ∃ t, step s = .next t ∧ t = { afterHost s w ts q with buf := t.buf } ∧
      ∀ j, Memory.read t.buf j =
        if j = i.toNat ∧ i.toNat < s.cfg.bufMax then some b else Memory.read s.buf j) ∧
    ∀ k x v, HostMoves s w ts (.recWrite k x v) q →
      ∃ t, step s = .next t ∧ t = { afterHost s w ts q with recs := t.recs } ∧
      ∀ j, Memory.read t.recs j =
        if j = 16 * k + x.toNat ∧ k < s.cfg.bufMax / 188 then some v else Memory.read s.recs j) ∧
  ∀ (s : State) (w : U64) (ts : List Turn) (q : List HostAccess),
    (∀ i, HostMoves s w ts (.bufRead i) q →
      (s.cfg.bufMax ≤ i.toNat → step s = .next { afterHost s w ts q with lastRead := some 0 }) ∧
      (i.toNat < s.cfg.bufMax →
        (∀ b, Memory.read s.buf i.toNat = some b →
          step s = .next { afterHost s w ts q with lastRead := some (BitVec.ofNat 32 b.toNat) }) ∧
        (Memory.read s.buf i.toNat = none → step s = .fault (.bufUnwritten i.toNat)))) ∧
    ∀ k x, HostMoves s w ts (.recRead k x) q →
      (s.cfg.bufMax / 188 ≤ k → step s = .next { afterHost s w ts q with lastRead := some 0 }) ∧
      (k < s.cfg.bufMax / 188 →
        (∀ v, Memory.read s.recs (16 * k + x.toNat) = some v →
          step s = .next { afterHost s w ts q with lastRead := some v }) ∧
        (Memory.read s.recs (16 * k + x.toNat) = none → step s = .fault (.recUnwritten k x.toNat)))

/-! ### Whole-machine rules -/

/-- Rule R60: who writes a metric entry: an AddPacket step for its PID, which leaves the period fields alone (rule
R320), a swap of it, CLEAR_SESSION, or reset; "nothing else does". -/
def Obligations.MetricTableWriters : Prop :=
  ∀ (s t : State) (p : Pid), step s = .next t → t.metric p ≠ s.metric p →
    Moves s .reset ∨ Runs s .clearSession ∨
    (Moves s (.sweeper p) ∧ p.toNat ∈ s.pending ∧ Swapped (s.metric p) (t.metric p)) ∨
    (SameSnapshot (s.metric p) (t.metric p) ∧
      ((∃ k, Runs s (.addPacket k p)) ∨
       (∃ k r, Runs s (.dispatch k) ∧ readRecord s.recs k.toNat = .ok r ∧ r.pid = p) ∨
       (∃ r, Runs s .dispatchAll ∧ readRecord s.recs s.daNext.toNat = .ok r ∧ r.pid = p)))

/-- Rule R46: "Only reset and CLEAR_SESSION set it back to 0". -/
def Obligations.ObservedStaysSet : Prop :=
  ∀ (s t : State) (p : Pid), step s = .next t → (s.metric p).observed = true → (t.metric p).observed = false →
    Moves s .reset ∨ Runs s .clearSession

/-- Rule R33: "Only a host write of 1 or a reset clears a sticky bit." -/
def Obligations.StickyBitsStaySet : Prop :=
  ∀ s t : State, step s = .next t →
    let clearedBy (n : Nat) : Prop :=
      Moves s .reset ∨ (Moves s .host ∧ ∃ v q, s.hostQueue = .regWrite 2#4 v :: q ∧ v.getLsbD n = true)
    (s.usageErr = true → t.usageErr = false → clearedBy 8) ∧
    (s.cmdErr = true → t.cmdErr = false → clearedBy 9) ∧
    (s.tickOverrun = true → t.tickOverrun = false → clearedBy 10)

/-- Rule R362: a step pushes at most one event, at the end and only with EVT_EN = 1 and room for it; an event
leaves only by a read of EVT_POP, oldest first, or by reset. -/
def Obligations.EventsAreQueuedAndNeverDropped : Prop :=
  ∀ s t : State, step s = .next t →
    t.fifo = s.fifo ∨
    (∃ p, t.fifo = s.fifo ++ [p] ∧ s.evtEn = true ∧ s.fifo.length < s.cfg.evtDepth) ∨
    (Moves s .host ∧ (∃ q, s.hostQueue = .regRead 10#4 :: q) ∧ t.fifo = s.fifo.drop 1) ∨
    (Moves s .reset ∧ t.fifo = [])

/-- Rules R36, R37 and R38: who writes RESULT, REC_COUNT and ERR_INFO. -/
def Obligations.ResultAndFrameRegisterWriters : Prop :=
  ∀ s t : State, step s = .next t →
    ((t.resultLo ≠ s.resultLo ∨ t.resultHi ≠ s.resultHi) →
      Moves s .reset ∨ (∃ a, Runs s (.locate a)) ∨ (∃ f p, Runs s (.readMetric f p))) ∧
    (t.recCount ≠ s.recCount → Moves s .reset ∨ Runs s .frame) ∧
    (t.errInfo ≠ s.errInfo → Moves s .reset ∨ (Runs s .frame ∧ t.frameStatus = .framingError))

/-- Rules R70 and R402: in a state that meets the invariant, only ADD_PACKET, DISPATCH and DISPATCH_ALL are ever in
progress, and the ENGINE's step on one never stops. -/
def Obligations.EngineNeverStops : Prop :=
  ∀ s : State, s.Inv → Moves s .engine →
    (∃ t, step s = .next t) ∧
    ∀ c, s.cur = some c →
      (∃ k p, decode s.cfg c = .ok (.addPacket k p)) ∨ (∃ k, decode s.cfg c = .ok (.dispatch k)) ∨
      decode s.cfg c = .ok .dispatchAll

/-- Rules R63, R64 and R350 (U1): nothing is refused; the one thing that stops a step is the use of a byte or word
nothing has written; and LOCATE, FRAME and DISPATCH_ALL do stop on the first such place they use. A LOCATE or FRAME that
goes on has used no unwritten byte: writing one changes nothing of its outcome. Which uses count, and in which order, is
the model's inference (log entries 9 to 11). -/
def Obligations.OnlyUnwrittenMemoryStops : Prop :=
  (∀ s : State, (∃ t, step s = .next t) ∨
    (∃ i, step s = .fault (.bufUnwritten i) ∧ Memory.read s.buf i = none) ∨
    (∃ k x, step s = .fault (.recUnwritten k x) ∧ Memory.read s.recs (16 * k + x) = none)) ∧
  (∀ (s : State) (start : BitVec 24) (a : Nat), LocatorStopsAt s.buf s.bufLen.toNat start.toNat a →
    exec (.locate start) s = .fault (.bufUnwritten a)) ∧
  (∀ (s : State) (a : Nat),
    (LocatorStopsAt s.buf s.bufLen.toNat 0 a ∨ FramerStopsAt s.buf s.pcrMode s.bufLen.toNat a) →
    exec .frame s = .fault (.bufUnwritten a)) ∧
  (∀ (s t : State) (i : Instr) (a : Nat) (v : Byte), ((∃ start, i = .locate start) ∨ i = .frame) →
    exec i s = .next t → Memory.read s.buf a = none →
    exec i { s with buf := Memory.write a v s.buf } = .next { t with buf := Memory.write a v s.buf }) ∧
  ∀ (s : State) (x : Nat), s.cur = some 0x50000000#32 → x < 4 →
    Memory.read s.recs (16 * s.daNext.toNat + x) = none →
    (∀ y < x, Memory.read s.recs (16 * s.daNext.toNat + y) ≠ none) →
    exec .dispatchAll s = .fault (.recUnwritten s.daNext.toNat x)

end
end

