-- ==== Sys2Proof/Laws/Bits.lean ====
section
/-! SUPPORT. Bit fields as numbers: what concatenation, extraction and masks are on `toNat`. -/

namespace Sys2Proof

/-- `a ++ b` as a number: `a` in the high bits. -/
theorem append_toNat {n m : Nat} (a : BitVec n) (b : BitVec m) : (a ++ b).toNat = a.toNat * 2 ^ m + b.toNat := by
  rw [BitVec.toNat_append, ← Nat.shiftLeft_add_eq_or_of_lt b.isLt, Nat.shiftLeft_eq]

/-- `v[lo + len - 1 : lo]` as a number. -/
theorem extract_toNat {n : Nat} (v : BitVec n) (lo len : Nat) :
    (v.extractLsb' lo len).toNat = v.toNat / 2 ^ lo % 2 ^ len := by
  rw [BitVec.extractLsb'_toNat, Nat.shiftRight_eq_div_pow]

/-- `v[i]` as a number. -/
theorem getLsbD_toNat {n : Nat} (v : BitVec n) (i : Nat) : v.getLsbD i = decide (v.toNat / 2 ^ i % 2 = 1) := by
  rw [BitVec.getLsbD, Nat.testBit_eq_decide_div_mod_eq]

theorem ofBool_toNat (b : Bool) : (BitVec.ofBool b).toNat = if b then 1 else 0 := by cases b <;> rfl

/-- A bit set or not, as an extracted field. -/
theorem ofBool_getLsbD {n : Nat} (v : BitVec n) (i : Nat) : BitVec.ofBool (v.getLsbD i) = v.extractLsb' i 1 := by
  apply BitVec.eq_of_toNat_eq
  rw [ofBool_toNat, getLsbD_toNat, extract_toNat]
  simp only [decide_eq_true_eq]
  split <;> omega

/-- Masking the two parts of a number apart. -/
theorem and_split (x a b k : Nat) (hb : b < 2 ^ k) :
    x &&& (2 ^ k * a + b) = 2 ^ k * (x / 2 ^ k &&& a) + (x % 2 ^ k &&& b) := by
  apply Nat.eq_of_testBit_eq
  intro j
  have hx : x % 2 ^ k &&& b < 2 ^ k := lt_of_le_of_lt Nat.and_le_right hb
  rw [Nat.testBit_and, Nat.testBit_two_pow_mul_add _ hb, Nat.testBit_two_pow_mul_add _ hx]
  split
  · next h => simp [Nat.testBit_mod_two_pow, h]
  · next h => simp [Nat.testBit_div_two_pow, Nat.sub_add_cancel (Nat.le_of_not_lt h)]

/-- A mask of `n` ones from bit `k` on. -/
theorem and_field (x n k : Nat) : x &&& (2 ^ k * (2 ^ n - 1)) = 2 ^ k * (x / 2 ^ k % 2 ^ n) := by
  have h := and_split x (2 ^ n - 1) 0 k (Nat.two_pow_pos k)
  rw [Nat.and_two_pow_sub_one_eq_mod] at h
  simpa using h

/-- Clearing bit 0 of a 33-bit value (rule R196, mode 2). -/
theorem clearBit0_33 (x : BitVec 33) : (x &&& ~~~1#33).toNat = x.toNat - x.toNat % 2 := by
  have h : x.toNat &&& 8589934590 = _ := and_field x.toNat 32 1
  have := x.isLt
  rw [BitVec.toNat_and, show (~~~1#33 : BitVec 33).toNat = 8589934590 from rfl, h]
  omega

/-- Clearing bit 0 of a 9-bit value (rule R196, mode 0). -/
theorem clearBit0_9 (x : BitVec 9) : (x &&& 0x1FE#9).toNat = x.toNat - x.toNat % 2 := by
  have h : x.toNat &&& 510 = _ := and_field x.toNat 8 1
  have := x.isLt
  rw [BitVec.toNat_and, show (0x1FE#9 : BitVec 9).toNat = 510 from rfl, h]
  omega

theorem nullPid_toNat : nullPid.toNat = 0x1FFF := by rw [nullPid, BitVec.toNat_ofNat]

end Sys2Proof
end

