-- ==== Sys2Proof/Laws/Decode.lean ====
section
/-! SUPPORT. The laws of the decoder: rule R151's masks as arithmetic on the word's number, and the one row a
word fits. -/

namespace Sys2Proof

theorem and_eq_iff (w m p : Word) : w &&& m = p ↔ w.toNat &&& m.toNat = p.toNat := by
  rw [← BitVec.toNat_inj, BitVec.toNat_and]

/-! ### Rule R151's masks -/

theorem mask_locate (w : Word) : w &&& 0xFF000000#32 = 0x10000000#32 ↔ w.toNat / 2 ^ 24 = 0x10 := by
  have h : w.toNat &&& 0xFF000000 = _ := and_field w.toNat 8 24
  rw [and_eq_iff]; simp only [BitVec.toNat_ofNat, Nat.reducePow, Nat.reduceMod]
  have := w.isLt
  omega

theorem mask_addPacket (w : Word) :
    w &&& 0xF000E000#32 = 0x30000000#32 ↔ w.toNat / 2 ^ 28 = 3 ∧ w.toNat / 2 ^ 13 % 8 = 0 := by
  have h : w.toNat &&& 0xF000E000 = _ := and_split w.toNat 0xF 0xE000 28 (by decide)
  have h1 : w.toNat / 2 ^ 28 &&& 0xF = _ := and_field (w.toNat / 2 ^ 28) 4 0
  have h2 : w.toNat % 2 ^ 28 &&& 0xE000 = _ := and_field (w.toNat % 2 ^ 28) 3 13
  rw [and_eq_iff]; simp only [BitVec.toNat_ofNat, Nat.reducePow, Nat.reduceMod] at *
  have := w.isLt
  omega

theorem mask_dispatch (w : Word) :
    w &&& 0xF000FFFF#32 = 0x40000000#32 ↔ w.toNat / 2 ^ 28 = 4 ∧ w.toNat % 2 ^ 16 = 0 := by
  have h : w.toNat &&& 0xF000FFFF = _ := and_split w.toNat 0xF 0xFFFF 28 (by decide)
  have h1 : w.toNat / 2 ^ 28 &&& 0xF = _ := and_field (w.toNat / 2 ^ 28) 4 0
  have h2 : w.toNat % 2 ^ 28 &&& 0xFFFF = _ := and_field (w.toNat % 2 ^ 28) 16 0
  rw [and_eq_iff]; simp only [BitVec.toNat_ofNat, Nat.reducePow, Nat.reduceMod] at *
  have := w.isLt
  omega

theorem mask_readMetric (w : Word) :
    w &&& 0xFFE0E000#32 = 0x70000000#32 ↔ w.toNat / 2 ^ 21 = 0x380 ∧ w.toNat / 2 ^ 13 % 8 = 0 := by
  have h : w.toNat &&& 0xFFE0E000 = _ := and_split w.toNat 0x7FF 0xE000 21 (by decide)
  have h1 : w.toNat / 2 ^ 21 &&& 0x7FF = _ := and_field (w.toNat / 2 ^ 21) 11 0
  have h2 : w.toNat % 2 ^ 21 &&& 0xE000 = _ := and_field (w.toNat % 2 ^ 21) 3 13
  rw [and_eq_iff]; simp only [BitVec.toNat_ofNat, Nat.reducePow, Nat.reduceMod] at *
  have := w.isLt
  omega

theorem mask_all (w p : Word) : w &&& 0xFFFFFFFF#32 = p ↔ w.toNat = p.toNat := by
  rw [show (0xFFFFFFFF#32 : Word) = BitVec.allOnes 32 from rfl, BitVec.and_allOnes, BitVec.toNat_inj]

/-- Which row of rule R151 a word fits, as arithmetic on the word's number. -/
def fitsNumber (m : Mnemonic) (n : Nat) : Prop :=
  match m with
  | .nop => n = 0
  | .locate => n / 2 ^ 24 = 0x10
  | .frame => n = 0x20000000
  | .addPacket => n / 2 ^ 28 = 3 ∧ n / 2 ^ 13 % 8 = 0
  | .dispatch => n / 2 ^ 28 = 4 ∧ n % 2 ^ 16 = 0
  | .dispatchAll => n = 0x50000000
  | .windowTick => n = 0x60000000
  | .readMetric => n / 2 ^ 21 = 0x380 ∧ n / 2 ^ 13 % 8 = 0
  | .clearSession => n = 0x80000000

/-- The row of rule R151 with a name. -/
def rowOf : Mnemonic → OpcodeRow
  | .nop => ⟨.nop, 0x00000000#32, 0xFFFFFFFF#32⟩
  | .locate => ⟨.locate, 0x10000000#32, 0xFF000000#32⟩
  | .frame => ⟨.frame, 0x20000000#32, 0xFFFFFFFF#32⟩
  | .addPacket => ⟨.addPacket, 0x30000000#32, 0xF000E000#32⟩
  | .dispatch => ⟨.dispatch, 0x40000000#32, 0xF000FFFF#32⟩
  | .dispatchAll => ⟨.dispatchAll, 0x50000000#32, 0xFFFFFFFF#32⟩
  | .windowTick => ⟨.windowTick, 0x60000000#32, 0xFFFFFFFF#32⟩
  | .readMetric => ⟨.readMetric, 0x70000000#32, 0xFFE0E000#32⟩
  | .clearSession => ⟨.clearSession, 0x80000000#32, 0xFFFFFFFF#32⟩

theorem opcodeRows_eq : opcodeRows =
    [.nop, .locate, .frame, .addPacket, .dispatch, .dispatchAll, .windowTick, .readMetric, .clearSession].map rowOf := rfl

/-- A word fits a row exactly when its number meets the row's arithmetic. -/
theorem rowOf_fits (m : Mnemonic) (w : Word) : (rowOf m).fits w = true ↔ fitsNumber m w.toNat := by
  cases m <;> simp only [rowOf, OpcodeRow.fits, beq_iff_eq, fitsNumber, mask_locate, mask_addPacket, mask_dispatch, mask_readMetric, mask_all] <;> rfl

/-- No two rows overlap. -/
theorem fits_unique {m m' : Mnemonic} {n : Nat} (h : fitsNumber m n) (h' : fitsNumber m' n) : m = m' := by
  cases m <;> cases m' <;> simp only [fitsNumber] at h h' <;> first | rfl | (exfalso; omega)

/-- The decoder's search finds the row a word fits. -/
theorem find_row {w : Word} {m : Mnemonic} (h : fitsNumber m w.toNat) :
    opcodeRows.find? (fun r => r.fits w) = some (rowOf m) := by
  have hm : ∀ m', m' ≠ m → (rowOf m').fits w = false := fun m' hne => by
    rw [Bool.eq_false_iff]; exact fun hf => hne (fits_unique ((rowOf_fits _ _).1 hf) h)
  have hs : (rowOf m).fits w = true := (rowOf_fits _ _).2 h
  rw [opcodeRows_eq]
  cases m <;> simp [hs, hm]

theorem find_row_none {w : Word} (h : ∀ m, ¬ fitsNumber m w.toNat) :
    opcodeRows.find? (fun r => r.fits w) = none := by
  have hm : ∀ m', (rowOf m').fits w = false := fun m' => by
    rw [Bool.eq_false_iff]; exact fun hf => h m' ((rowOf_fits _ _).1 hf)
  rw [opcodeRows_eq]; simp [hm]

/-- Decoding a word that fits a row is reading that row's operands. -/
theorem decode_of_fits (c : Config) {w : Word} {m : Mnemonic} (h : fitsNumber m w.toNat) :
    decode c w = decodeOperands c m w := by
  unfold decode; rw [find_row h]; cases m <;> rfl

/-- A word that fits no row is illegal. -/
theorem decode_of_no_fit (c : Config) {w : Word} (h : ∀ m, ¬ fitsNumber m w.toNat) :
    ∃ r, decode c w = .error r := by
  unfold decode; rw [find_row_none h]; exact ⟨_, rfl⟩

theorem metricFieldOf_code (f : MetricField) : metricFieldOf (metricFieldCode f) = some f := by cases f <;> rfl
theorem code_of_metricFieldOf : ∀ c : BitVec 5, ∀ f, metricFieldOf c = some f → metricFieldCode f = c := by decide
theorem metricFieldOf_none : ∀ c : BitVec 5, metricFieldOf c = none ↔ 16 < c.toNat := by decide
theorem metricFieldCode_le (f : MetricField) : (metricFieldCode f).toNat ≤ 16 := by cases f <;> decide

end Sys2Proof
end

