-- ==== Sys2Proof/Laws/Except.lean ====
section
/-! SUPPORT. Reads that can fault: what a chain of them answers, and what a step makes of the answer. -/

namespace Sys2Proof.Machine

section
variable {ε α β : Type} {x : Except ε α} {g : α → Except ε β} {a : α} {b : β} {e : ε}

theorem bind_ok : (x >>= g) = .ok b ↔ ∃ a, x = .ok a ∧ g a = .ok b := by
  cases x <;> simp [bind, Except.bind]

theorem bind_error : (x >>= g) = .error e ↔ x = .error e ∨ ∃ a, x = .ok a ∧ g a = .error e := by
  cases x <;> simp [bind, Except.bind]

@[simp] theorem ok_bind : ((.ok a : Except ε α) >>= g) = g a := rfl

@[simp] theorem error_bind : ((.error e : Except ε α) >>= g) = .error e := rfl

@[simp] theorem pure_ok : (pure a : Except ε α) = .ok a := rfl

end

theorem orFault_next {α : Type} {x : Except Fault α} {k : α → Out} {t : State} :
    orFault x k = .next t ↔ ∃ a, x = .ok a ∧ k a = .next t := by
  cases x <;> simp [orFault]

theorem orFault_fault {α : Type} {x : Except Fault α} {k : α → Out} {f : Fault} :
    orFault x k = .fault f ↔ x = .error f ∨ ∃ a, x = .ok a ∧ k a = .fault f := by
  cases x <;> simp [orFault]

theorem orFault_refused {α : Type} {x : Except Fault α} {k : α → Out} {r : Refusal} :
    orFault x k = .refused r ↔ ∃ a, x = .ok a ∧ k a = .refused r := by
  cases x <;> simp [orFault]

end Sys2Proof.Machine
end

