-- ==== Sys2Proof/Laws/Memory.lean ====
section
/-! SUPPORT. The laws of memories, of the metric table and of the pending set: what a read finds after a write,
and that every operation keeps the canonical form. -/

namespace Sys2Proof.Machine

section Memories
variable {α : Type} {m : List (Nat × α)} {v : α} {j k n : Nat}

@[simp] theorem Memory.read_nil (k : Nat) : Memory.read ([] : List (Nat × α)) k = none := rfl

@[simp] theorem Memory.read_write_same (k : Nat) (v : α) (m : List (Nat × α)) :
    Memory.read (Memory.write k v m) k = some v := by
  induction m with
  | nil => simp [Memory.write, Memory.read]
  | cons x m ih =>
    obtain ⟨i, u⟩ := x
    simp only [Memory.write]
    split
    · simp [Memory.read]
    · split
      · simp [Memory.read]
      · next h => simp only [Memory.read, ih, if_neg (Ne.symm h)]

theorem Memory.read_write_other (h : j ≠ k) (v : α) (m : List (Nat × α)) :
    Memory.read (Memory.write k v m) j = Memory.read m j := by
  induction m with
  | nil => simp [Memory.write, Memory.read, Ne.symm h]
  | cons x m ih =>
    obtain ⟨i, u⟩ := x
    simp only [Memory.write]
    split
    · simp [Memory.read, Ne.symm h]
    · split
      · next h' => subst h'; simp [Memory.read, Ne.symm h]
      · simp only [Memory.read, ih]

/-- Reading after a write: the value at the written key, and what was there before anywhere else. -/
theorem Memory.read_write (j k : Nat) (v : α) (m : List (Nat × α)) :
    Memory.read (Memory.write k v m) j = if j = k then some v else Memory.read m j := by
  split
  · next h => subst h; exact Memory.read_write_same ..
  · next h => exact Memory.read_write_other h v m

theorem Memory.mem_write {x : Nat × α} (h : x ∈ Memory.write k v m) : x = (k, v) ∨ x ∈ m := by
  induction m with
  | nil => simpa [Memory.write] using h
  | cons y m ih =>
    obtain ⟨i, u⟩ := y
    simp only [Memory.write] at h
    split at h
    · simpa using h
    · split at h
      · simp only [List.mem_cons] at h ⊢; tauto
      · simp only [List.mem_cons] at h ⊢
        rcases h with h | h
        · exact .inr (.inl h)
        · exact (ih h).imp id .inr

theorem Memory.write_wf (h : Memory.wf m) : Memory.wf (Memory.write k v m) := by
  induction m with
  | nil => simp [Memory.write, Memory.wf]
  | cons y m ih =>
    obtain ⟨i, u⟩ := y
    simp only [Memory.wf, List.pairwise_cons] at h
    simp only [Memory.write]
    split
    · next hk =>
      simp only [Memory.wf, List.pairwise_cons, List.mem_cons]
      refine ⟨?_, h⟩
      rintro x (rfl | hx)
      · exact hk
      · exact lt_trans hk (h.1 x hx)
    · split
      · next hk => subst hk; simpa [Memory.wf, List.pairwise_cons] using h
      · next h1 h2 =>
        simp only [Memory.wf, List.pairwise_cons]
        refine ⟨fun x hx => ?_, ih h.2⟩
        rcases Memory.mem_write hx with rfl | hx
        · simp only; omega
        · exact h.1 x hx

theorem Memory.write_bound (hm : ∀ x ∈ m, x.1 < n) (hk : k < n) : ∀ x ∈ Memory.write k v m, x.1 < n := by
  intro x hx
  rcases Memory.mem_write hx with rfl | hx
  · exact hk
  · exact hm x hx

theorem Memory.read_erase (j k : Nat) (m : List (Nat × α)) :
    Memory.read (Memory.erase k m) j = if j = k then none else Memory.read m j := by
  induction m with
  | nil => simp [Memory.erase, Memory.read]
  | cons x m ih =>
    obtain ⟨i, u⟩ := x
    simp only [Memory.erase] at ih ⊢
    by_cases hi : i = k
    · subst hi
      simp only [List.filter_cons, ne_eq, not_true_eq_false, decide_false, Bool.false_eq_true, if_false, Memory.read]
      rw [show (fun x : Nat × α => decide (¬ x.1 = i)) = fun x => decide (x.1 ≠ i) from rfl, ih]
      by_cases hj : j = i
      · simp [hj]
      · simp [hj, Ne.symm hj]
    · by_cases hj : i = j
      · subst hj; simp [hi, Memory.read]
      · simp only [List.filter_cons, hi, ne_eq, not_false_eq_true, decide_true, if_true, Memory.read, if_neg hj]
        exact ih

theorem Memory.mem_erase {x : Nat × α} (h : x ∈ Memory.erase k m) : x ∈ m := (List.mem_filter.1 h).1

theorem Memory.erase_wf (h : Memory.wf m) : Memory.wf (Memory.erase k m) := List.Pairwise.filter _ h

/-- In a canonical memory an entry that is listed is what its key reads as. -/
theorem Memory.read_of_mem (h : Memory.wf m) (hx : (k, v) ∈ m) : Memory.read m k = some v := by
  induction m with
  | nil => simp at hx
  | cons y m ih =>
    obtain ⟨i, u⟩ := y
    simp only [Memory.wf, List.pairwise_cons] at h
    rcases List.mem_cons.1 hx with hx | hx
    · cases hx; simp [Memory.read]
    · have := h.1 _ hx
      simp only at this
      simp only [Memory.read, if_neg (by omega : ¬ i = k)]
      exact ih h.2 hx

theorem Memory.mem_of_read (h : Memory.read m k = some v) : (k, v) ∈ m := by
  induction m with
  | nil => simp at h
  | cons y m ih =>
    obtain ⟨i, u⟩ := y
    simp only [Memory.read] at h
    split at h
    · next hi => subst hi; cases h; simp
    · exact List.mem_cons_of_mem _ (ih h)

theorem Memory.read_isSome_write (h : (Memory.read m j).isSome = true) :
    (Memory.read (Memory.write k v m) j).isSome = true := by
  rw [Memory.read_write]; split <;> simp [h]

end Memories

/-! ### Records -/

theorem readByte_ok {buf : List Host.Cell} {i : Nat} {b : Byte} :
    readByte buf i = .ok b ↔ Memory.read buf i = some b := by
  unfold readByte; split <;> simp_all

theorem readByte_error {buf : List Host.Cell} {i : Nat} {f : Fault} :
    readByte buf i = .error f ↔ Memory.read buf i = none ∧ f = .bufUnwritten i := by
  unfold readByte; split <;> rename_i h <;> simp [h, eq_comm]

theorem readRecWord_ok {recs : List (Nat × Word)} {k w : Nat} {v : Word} :
    readRecWord recs k w = .ok v ↔ Memory.read recs (recKey k w) = some v := by
  unfold readRecWord; split <;> simp_all

theorem readRecWord_error {recs : List (Nat × Word)} {k w : Nat} {f : Fault} :
    readRecWord recs k w = .error f ↔ Memory.read recs (recKey k w) = none ∧ f = .recUnwritten k w := by
  unfold readRecWord; split <;> rename_i h <;> simp [h, eq_comm]

/-- What a key of record memory reads as after words `ws` are written to slot `k` from word `w` on. -/
theorem read_writeRecWords (k : Nat) (ws : List Word) (w : Nat) (m : List (Nat × Word)) (a : Nat) :
    Memory.read (writeRecWords k w ws m) a =
      if 16 * k + w ≤ a ∧ a < 16 * k + w + ws.length then ws[a - (16 * k + w)]? else Memory.read m a := by
  induction ws generalizing w m with
  | nil => simp only [writeRecWords, List.length_nil]; rw [if_neg (by omega)]
  | cons v ws ih =>
    simp only [writeRecWords, ih, List.length_cons, Memory.read_write, recKey]
    by_cases h1 : a = 16 * k + w
    · subst h1; simp
    · by_cases h2 : 16 * k + (w + 1) ≤ a ∧ a < 16 * k + (w + 1) + ws.length
      · rw [if_pos h2, if_pos (by omega)]
        have : a - (16 * k + w) = (a - (16 * k + (w + 1))) + 1 := by omega
        rw [this, List.getElem?_cons_succ]
      · rw [if_neg h2, if_neg h1, if_neg (by omega)]

theorem writeRecWords_wf (k : Nat) (ws : List Word) (w : Nat) (m : List (Nat × Word)) (h : Memory.wf m) :
    Memory.wf (writeRecWords k w ws m) := by
  induction ws generalizing w m with
  | nil => exact h
  | cons v ws ih => exact ih _ _ (Memory.write_wf h)

theorem writeRecWords_bound (k n : Nat) (ws : List Word) (w : Nat) (m : List (Nat × Word))
    (h : ∀ x ∈ m, x.1 < n) (hn : 16 * k + w + ws.length ≤ n) : ∀ x ∈ writeRecWords k w ws m, x.1 < n := by
  induction ws generalizing w m with
  | nil => exact h
  | cons v ws ih =>
    simp only [List.length_cons] at hn
    exact ih _ _ (Memory.write_bound h (by simp only [recKey]; omega)) (by omega)

/-- What a key of record memory reads as after the records `rs`, sixteen words each, are committed from slot
`k` on. -/
theorem read_commitRecords (rs : List (List Word)) (h16 : ∀ r ∈ rs, r.length = 16) (k : Nat)
    (m : List (Nat × Word)) (a : Nat) :
    Memory.read (commitRecords k rs m) a =
      if 16 * k ≤ a ∧ a < 16 * (k + rs.length) then (rs[a / 16 - k]?).bind (fun r => r[a % 16]?)
      else Memory.read m a := by
  induction rs generalizing k m with
  | nil => simp only [commitRecords, List.length_nil]; rw [if_neg (by omega)]
  | cons r rs ih =>
    have hr := h16 r (by simp)
    have hrs : ∀ r ∈ rs, r.length = 16 := fun x hx => h16 x (by simp [hx])
    simp only [commitRecords, ih hrs, List.length_cons, read_writeRecWords, hr]
    by_cases h1 : 16 * (k + 1) ≤ a ∧ a < 16 * (k + 1 + rs.length)
    · rw [if_pos h1, if_pos (by omega)]
      have : a / 16 - k = (a / 16 - (k + 1)) + 1 := by omega
      rw [this, List.getElem?_cons_succ]
    · rw [if_neg h1]
      by_cases h2 : 16 * k + 0 ≤ a ∧ a < 16 * k + 0 + 16
      · rw [if_pos h2, if_pos (by omega)]
        have : a / 16 - k = 0 := by omega
        have h3 : a % 16 = a - (16 * k + 0) := by omega
        simp [this, h3]
      · rw [if_neg h2, if_neg (by omega)]

theorem commitRecords_wf (rs : List (List Word)) (k : Nat) (m : List (Nat × Word)) (h : Memory.wf m) :
    Memory.wf (commitRecords k rs m) := by
  induction rs generalizing k m with
  | nil => exact h
  | cons r rs ih => exact ih _ _ (writeRecWords_wf _ _ _ _ h)

theorem commitRecords_bound (rs : List (List Word)) (h16 : ∀ r ∈ rs, r.length = 16) (k n : Nat)
    (m : List (Nat × Word)) (h : ∀ x ∈ m, x.1 < n) (hn : 16 * (k + rs.length) ≤ n) :
    ∀ x ∈ commitRecords k rs m, x.1 < n := by
  induction rs generalizing k m with
  | nil => exact h
  | cons r rs ih =>
    simp only [List.length_cons] at hn
    have hr := h16 r (by simp)
    exact ih (fun x hx => h16 x (by simp [hx])) _ _
      (writeRecWords_bound _ _ _ _ _ h (by omega)) (by omega)

/-! ### The metric table -/

theorem getMetric_putMetric (p q : Nat) (e : Metric) (m : List (Nat × Metric)) :
    getMetric (putMetric p e m) q = if q = p then e else getMetric m q := by
  unfold getMetric putMetric
  split
  · next h => rw [Memory.read_erase]; split <;> simp [h]
  · rw [Memory.read_write]; split <;> simp

theorem putMetric_metricsWf (p : Nat) (e : Metric) (m : List (Nat × Metric)) (h : Memory.metricsWf m) :
    Memory.metricsWf (putMetric p e m) := by
  unfold putMetric
  split
  · exact ⟨Memory.erase_wf h.1, fun x hx => h.2 x (Memory.mem_erase hx)⟩
  · next he =>
    refine ⟨Memory.write_wf h.1, fun x hx => ?_⟩
    rcases Memory.mem_write hx with rfl | hx
    · exact he
    · exact h.2 x hx

theorem mem_putMetric {p : Nat} {e : Metric} {m : List (Nat × Metric)} {x : Nat × Metric}
    (h : x ∈ putMetric p e m) : x = (p, e) ∨ x ∈ m := by
  unfold putMetric at h
  split at h
  · exact .inr (Memory.mem_erase h)
  · exact Memory.mem_write h

@[simp] theorem metric_setMetric_same (p : Pid) (e : Metric) (s : State) : (setMetric p e s).metric p = e := by
  simp [State.metric, setMetric, getMetric_putMetric]

theorem metric_setMetric_other {p q : Pid} (h : q ≠ p) (e : Metric) (s : State) :
    (setMetric p e s).metric q = s.metric q := by
  have : q.toNat ≠ p.toNat := fun hh => h (BitVec.eq_of_toNat_eq hh)
  simp [State.metric, setMetric, getMetric_putMetric, this]

/-! ### The pending set -/

@[simp] theorem mem_addPid {p x : Nat} {l : List Nat} : x ∈ addPid p l ↔ x = p ∨ x ∈ l := by
  induction l with
  | nil => simp [addPid]
  | cons q l ih =>
    simp only [addPid]
    split
    · simp
    · split
      · next h => subst h; simp
      · simp only [List.mem_cons, ih]; tauto

theorem addPid_wf {p : Nat} {l : List Nat} (h : pidSetWf l) : pidSetWf (addPid p l) := by
  induction l with
  | nil => simp [addPid, pidSetWf]
  | cons q l ih =>
    simp only [pidSetWf, List.pairwise_cons] at h
    simp only [addPid]
    split
    · next hp =>
      simp only [pidSetWf, List.pairwise_cons, List.mem_cons]
      refine ⟨?_, h⟩
      rintro x (rfl | hx)
      · exact hp
      · exact lt_trans hp (h.1 x hx)
    · split
      · simpa [pidSetWf, List.pairwise_cons] using h
      · next h1 h2 =>
        simp only [pidSetWf, List.pairwise_cons, mem_addPid]
        refine ⟨?_, ih h.2⟩
        rintro x (rfl | hx)
        · omega
        · exact h.1 x hx

@[simp] theorem mem_unionPids {ps l : List Nat} {x : Nat} : x ∈ unionPids ps l ↔ x ∈ ps ∨ x ∈ l := by
  induction ps with
  | nil => simp [unionPids]
  | cons p ps ih =>
    simp only [unionPids, List.foldr_cons] at ih ⊢
    simp only [mem_addPid, ih, List.mem_cons]; tauto

theorem unionPids_wf {ps l : List Nat} (h : pidSetWf l) : pidSetWf (unionPids ps l) := by
  induction ps with
  | nil => exact h
  | cons p ps ih => exact addPid_wf ih

/-- In a canonical metric table the observed PIDs are those whose entry is observed. -/
theorem mem_observedPids {m : List (Nat × Metric)} (h : Memory.wf m) {p : Nat} :
    p ∈ observedPids m ↔ (getMetric m p).observed = true := by
  simp only [observedPids, List.mem_map, List.mem_filter, Prod.exists, exists_and_right, exists_eq_right]
  constructor
  · rintro ⟨e, he, ho⟩
    simp [getMetric, Memory.read_of_mem h he, ho]
  · intro ho
    unfold getMetric at ho
    cases hr : Memory.read m p with
    | none => rw [hr] at ho; exact absurd ho (by decide)
    | some e => rw [hr] at ho; exact ⟨e, Memory.mem_of_read hr, ho⟩

end Sys2Proof.Machine
end

