-- ==== Sys2Proof/Laws/Locator.lean ====
section
/-! SUPPORT. Everything the Sync Locator can answer, and which bytes it uses. -/

namespace Sys2Proof.Machine

variable {buf : List Host.Cell} {n i j k start : Nat} {ds : List Nat} {f : Fault}

/-- Candidate `i` holds a sync byte, and so does every confirmation offset below `n`. -/
def SyncAt (buf : List Host.Cell) (n i : Nat) : Prop :=
  Memory.read buf i = some syncByte ∧ ∀ d ∈ syncConfirmOffsets, i + d < n → Memory.read buf (i + d) = some syncByte

theorem confirms_ok {b : Bool} (h : confirms buf n j = .ok b) :
    b = true ↔ (j < n → Memory.read buf j = some syncByte) := by
  unfold confirms at h
  split at h
  · next hj =>
    obtain ⟨x, hx, h⟩ := bind_ok.1 h
    cases h; simp [hj, readByte_ok.1 hx]
  · next hj => cases h; simp [hj]

theorem confirms_error (h : confirms buf n j = .error f) :
    j < n ∧ Memory.read buf j = none ∧ f = .bufUnwritten j := by
  unfold confirms at h
  split at h
  · rcases bind_error.1 h with h | ⟨_, -, h⟩
    · exact ⟨‹_›, readByte_error.1 h⟩
    · cases h
  · cases h

/-- The confirmation loop answers whether every in-bounds offset holds a sync byte. -/
theorem syncConfirmed_ok {b : Bool} (h : syncConfirmed buf n i ds = .ok b) :
    b = true ↔ ∀ d ∈ ds, i + d < n → Memory.read buf (i + d) = some syncByte := by
  induction ds generalizing b with
  | nil => cases h; simp
  | cons d ds ih =>
    obtain ⟨here, hh, h⟩ := bind_ok.1 h
    obtain ⟨rest, hr, h⟩ := bind_ok.1 h
    cases h
    simp [ih hr, confirms_ok hh]

/-- The confirmation loop stops only on an in-bounds byte nothing has written. -/
theorem syncConfirmed_error (h : syncConfirmed buf n i ds = .error f) :
    ∃ d ∈ ds, i + d < n ∧ Memory.read buf (i + d) = none ∧ f = .bufUnwritten (i + d) := by
  induction ds with
  | nil => cases h
  | cons d ds ih =>
    rcases bind_error.1 h with h | ⟨here, -, h⟩
    · exact ⟨d, by simp, confirms_error h⟩
    · rcases bind_error.1 h with h | ⟨_, -, h⟩
      · obtain ⟨d', hd', h'⟩ := ih h
        exact ⟨d', by simp [hd'], h'⟩
      · cases h

theorem syncConfirmed_congr {b b' : List Host.Cell} (h : ∀ i < n, Memory.read b i = Memory.read b' i) :
    syncConfirmed b n i ds = syncConfirmed b' n i ds := by
  induction ds with
  | nil => rfl
  | cons d ds ih =>
    unfold syncConfirmed confirms; rw [ih]
    by_cases hd : i + d < n
    · simp only [readByte, h _ hd]
    · simp only [hd, if_false]

/-- One round of the scan: it stops, finds its candidate confirmed, or goes on from the next one. -/
theorem locateFrom_round (buf : List Host.Cell) (n k i : Nat) :
    (∃ f, locateFrom buf n (k + 1) i = .error f ∧
      ((Memory.read buf i = none ∧ f = .bufUnwritten i) ∨
       ∃ d ∈ syncConfirmOffsets, i + d < n ∧ Memory.read buf (i + d) = none ∧ f = .bufUnwritten (i + d))) ∨
    (SyncAt buf n i ∧ locateFrom buf n (k + 1) i = .ok (some i)) ∨
    (¬ SyncAt buf n i ∧ locateFrom buf n (k + 1) i = locateFrom buf n k (i + 1)) := by
  simp only [locateFrom]
  cases hb : readByte buf i with
  | error f => exact .inl ⟨f, rfl, .inl (readByte_error.1 hb)⟩
  | ok b =>
    rw [readByte_ok] at hb
    simp only [ok_bind]
    by_cases hs : b = syncByte
    · subst hs
      simp only [if_true]
      cases hc : syncConfirmed buf n i syncConfirmOffsets with
      | error f => exact .inl ⟨f, rfl, .inr (syncConfirmed_error hc)⟩
      | ok ok =>
        have h := syncConfirmed_ok hc
        simp only [ok_bind]
        cases ok with
        | true => exact .inr (.inl ⟨⟨hb, h.1 rfl⟩, rfl⟩)
        | false => exact .inr (.inr ⟨fun hs => absurd (h.2 hs.2) (by simp), rfl⟩)
    · refine .inr (.inr ⟨fun h => hs (by rw [h.1] at hb; cases hb; rfl), ?_⟩)
      rw [if_neg hs]

/-- What the scan of `k` candidates from `i` on answers: it stops on a byte nothing has written, it finds the
first confirmed candidate, or there is none. -/
theorem locateFrom_cases (buf : List Host.Cell) (n k i : Nat) :
    (∃ f x, locateFrom buf n k i = .error f ∧ i ≤ x ∧ x < i + k ∧ (∀ j, i ≤ j → j < x → ¬ SyncAt buf n j) ∧
      ((Memory.read buf x = none ∧ f = .bufUnwritten x) ∨
       ∃ d ∈ syncConfirmOffsets, x + d < n ∧ Memory.read buf (x + d) = none ∧ f = .bufUnwritten (x + d))) ∨
    (∃ x, locateFrom buf n k i = .ok (some x) ∧ i ≤ x ∧ x < i + k ∧ SyncAt buf n x ∧
      ∀ j, i ≤ j → j < x → ¬ SyncAt buf n j) ∨
    (locateFrom buf n k i = .ok none ∧ ∀ j, i ≤ j → j < i + k → ¬ SyncAt buf n j) := by
  induction k generalizing i with
  | zero => exact .inr (.inr ⟨rfl, fun j h1 h2 => by omega⟩)
  | succ k ih =>
    rcases locateFrom_round buf n k i with ⟨f, h, hf⟩ | ⟨hs, h⟩ | ⟨hs, h⟩
    · exact .inl ⟨f, i, h, le_rfl, by omega, fun j _ _ => by omega, hf⟩
    · exact .inr (.inl ⟨i, h, le_rfl, by omega, hs, fun j _ _ => by omega⟩)
    · have step (x : Nat) (hx : ∀ j, i + 1 ≤ j → j < x → ¬ SyncAt buf n j) (j : Nat) (h1 : i ≤ j) (h2 : j < x) :
          ¬ SyncAt buf n j := by
        by_cases h3 : i + 1 ≤ j
        · exact hx j h3 h2
        · rwa [show j = i by omega]
      rw [h]
      rcases ih (i + 1) with ⟨f, x, h0, h1, h2, h3, h4⟩ | ⟨x, h0, h1, h2, h3, h4⟩ | ⟨h0, h1⟩
      · exact .inl ⟨f, x, h0, by omega, by omega, step x h3, h4⟩
      · exact .inr (.inl ⟨x, h0, by omega, by omega, h3, step x h4⟩)
      · exact .inr (.inr ⟨h0, fun j h2 h3 => step (i + (k + 1)) (fun j h4 h5 => h1 j h4 (by omega)) j h2 h3⟩)

/-- Everything `Locate(n, start)` can answer. -/
theorem locate_cases (buf : List Host.Cell) (n start : Nat) :
    (∃ f x, locate buf n start = .error f ∧ tsPacketSize ≤ n ∧ start ≤ x ∧ x < n ∧
      (∀ j, start ≤ j → j < x → ¬ SyncAt buf n j) ∧
      ((Memory.read buf x = none ∧ f = .bufUnwritten x) ∨
       ∃ d ∈ syncConfirmOffsets, x + d < n ∧ Memory.read buf (x + d) = none ∧ f = .bufUnwritten (x + d))) ∨
    (∃ x, locate buf n start = .ok (some x) ∧ tsPacketSize ≤ n ∧ start ≤ x ∧ x < n ∧ SyncAt buf n x ∧
      ∀ j, start ≤ j → j < x → ¬ SyncAt buf n j) ∨
    (locate buf n start = .ok none ∧
      (n < tsPacketSize ∨ ∀ j, start ≤ j → j < n → ¬ SyncAt buf n j)) := by
  unfold locate
  split
  · exact .inr (.inr ⟨rfl, .inl ‹_›⟩)
  · rcases locateFrom_cases buf n (n - start) start with ⟨f, x, h0, h1, h2, h3⟩ | ⟨x, h0, h1, h2, h3⟩ | ⟨h0, h1⟩
    · exact .inl ⟨f, x, h0, by omega, h1, by omega, h3⟩
    · exact .inr (.inl ⟨x, h0, by omega, h1, by omega, h3⟩)
    · exact .inr (.inr ⟨h0, .inr fun j h2 h3 => h1 j h2 (by omega)⟩)

/-- The locator stops only on an unwritten byte below `n`. -/
theorem locate_fault (h : locate buf n start = .error f) :
    ∃ a < n, Memory.read buf a = none ∧ f = .bufUnwritten a := by
  rcases locate_cases buf n start with
    ⟨f', x, h0, -, -, hx, -, ⟨h1, h2⟩ | ⟨d, -, hd, h1, h2⟩⟩ | ⟨x, h0, -⟩ | ⟨h0, -⟩ <;> rw [h0] at h <;> cases h
  · exact ⟨x, hx, h1, h2⟩
  · exact ⟨x + d, hd, h1, h2⟩

end Sys2Proof.Machine
end

