-- ==== Sys2Proof/Laws/Framer.lean ====
section
/-! SUPPORT. Everything FRAME's parts can answer: what ends the decoding of a unit, what a decoded unit holds, and
which units the loop goes through. -/

namespace Sys2Proof.Machine

variable {buf : List Host.Cell} {mode : PcrMode} {n o j k cur : Nat} {e : FrameStop} {u : UnitRecord}

theorem unitByte_ok {b : Byte} : unitByte buf o j = .ok b ↔ Memory.read buf (o + j) = some b := by
  unfold unitByte
  cases h : readByte buf (o + j) with
  | ok x => rw [readByte_ok] at h; simp [h]
  | error f => rw [readByte_error] at h; simp [h.1]

/-- What ends the decoding of the unit at `o`: a framing-fatal error of that unit, or a byte of it that nothing
has written. ERR_TS is 1 for a timestamp error only. -/
def UnitStop (buf : List Host.Cell) (o : Nat) (e : FrameStop) : Prop :=
  (∃ code dts, e = .fatal code dts o ∧ code ≠ .noError ∧ (code ≠ .tsCode → code ≠ .tsMarker → dts = false)) ∨
  (∃ j < 188, Memory.read buf (o + j) = none ∧ e = .fault (.bufUnwritten (o + j)))

theorem unitByte_error (hj : j < 188) (h : unitByte buf o j = .error e) : UnitStop buf o e := by
  unfold unitByte at h
  split at h
  · cases h
  · next f hf =>
    cases h
    obtain ⟨h1, rfl⟩ := readByte_error.1 hf
    exact .inr ⟨j, hj, h1, rfl⟩

/-! ### What ends the decoding of a unit -/

theorem afFlags_error {l : Byte} (h : afFlags buf o l = .error e) : UnitStop buf o e := by
  unfold afFlags at h
  split at h
  · exact unitByte_error (by omega) h
  · cases h

theorem afPcr_error {l flags : Byte} (h : afPcr buf mode o l flags = .error e) : UnitStop buf o e := by
  unfold afPcr at h
  split at h
  · rcases bind_error.1 h with h | ⟨_, -, h⟩
    · exact unitByte_error (by omega) h
    rcases bind_error.1 h with h | ⟨_, -, h⟩
    · exact unitByte_error (by omega) h
    rcases bind_error.1 h with h | ⟨_, -, h⟩
    · exact unitByte_error (by omega) h
    rcases bind_error.1 h with h | ⟨_, -, h⟩
    · exact unitByte_error (by omega) h
    rcases bind_error.1 h with h | ⟨_, -, h⟩
    · exact unitByte_error (by omega) h
    rcases bind_error.1 h with h | ⟨_, -, h⟩
    · exact unitByte_error (by omega) h
    cases h
  · cases h

theorem decodeAf_error (h : decodeAf buf mode o = .error e) : UnitStop buf o e := by
  rcases bind_error.1 h with h | ⟨l, -, h⟩
  · exact unitByte_error (by omega) h
  split at h
  · cases h
    exact .inl ⟨_, _, rfl, by decide, fun _ _ => rfl⟩
  · rcases bind_error.1 h with h | ⟨_, -, h⟩
    · exact afFlags_error h
    rcases bind_error.1 h with h | ⟨_, -, h⟩
    · exact afPcr_error h
    cases h

theorem timestamp_error {code : BitVec 4} {dts : Bool} (hj : j + 4 < 188)
    (h : timestamp buf o j code dts = .error e) : UnitStop buf o e := by
  rcases bind_error.1 h with h | ⟨_, -, h⟩
  · exact unitByte_error (by omega) h
  rcases bind_error.1 h with h | ⟨_, -, h⟩
  · exact unitByte_error (by omega) h
  rcases bind_error.1 h with h | ⟨_, -, h⟩
  · exact unitByte_error (by omega) h
  rcases bind_error.1 h with h | ⟨_, -, h⟩
  · exact unitByte_error (by omega) h
  rcases bind_error.1 h with h | ⟨_, -, h⟩
  · exact unitByte_error (by omega) h
  split at h
  · cases h
    exact .inl ⟨_, _, rfl, by decide, fun h1 _ => absurd rfl h1⟩
  · split at h
    · cases h
      exact .inl ⟨_, _, rfl, by decide, fun _ h2 => absurd rfl h2⟩
    · cases h

theorem pesPrefix_error (hc : cur + 2 < 188) (h : pesPrefix buf o cur = .error e) : UnitStop buf o e := by
  rcases bind_error.1 h with h | ⟨_, -, h⟩
  · exact unitByte_error (by omega) h
  split at h
  · cases h
  rcases bind_error.1 h with h | ⟨_, -, h⟩
  · exact unitByte_error (by omega) h
  split at h
  · cases h
  rcases bind_error.1 h with h | ⟨_, -, h⟩
  · exact unitByte_error (by omega) h
  cases h

theorem ptsField_error {f : BitVec 2} (hn : pesNeed f ≤ 188 - cur) (h : ptsField buf o cur f = .error e) :
    UnitStop buf o e := by
  unfold ptsField at h
  unfold pesNeed at hn
  split at h
  · next hf =>
    rcases bind_error.1 h with h | ⟨_, -, h⟩
    · exact timestamp_error (by rw [if_pos hf] at hn; omega) h
    · cases h
  · split at h
    · next hf hf' =>
      rcases bind_error.1 h with h | ⟨_, -, h⟩
      · exact timestamp_error (by rw [if_neg hf, if_pos hf'] at hn; omega) h
      · cases h
    · cases h

theorem dtsField_error {f : BitVec 2} (hn : pesNeed f ≤ 188 - cur) (h : dtsField buf o cur f = .error e) :
    UnitStop buf o e := by
  unfold dtsField at h
  split at h
  · next hf =>
    rcases bind_error.1 h with h | ⟨_, -, h⟩
    · exact timestamp_error (by subst hf; simp only [pesNeed] at hn; simp at hn; omega) h
    · cases h
  · cases h

theorem decodePes_error (h : decodePes buf o cur = .error e) : UnitStop buf o e := by
  unfold decodePes at h
  split at h
  · cases h
  rcases bind_error.1 h with h | ⟨_, -, h⟩
  · exact unitByte_error (by omega) h
  rcases bind_error.1 h with h | ⟨_, -, h⟩
  · exact unitByte_error (by omega) h
  simp only at h
  split at h
  · cases h
    exact .inl ⟨_, _, rfl, by decide, fun _ _ => rfl⟩
  split at h
  · cases h
  rcases bind_error.1 h with h | ⟨_, -, h⟩
  · exact ptsField_error (by omega) h
  rcases bind_error.1 h with h | ⟨_, -, h⟩
  · exact dtsField_error (by omega) h
  rcases bind_error.1 h with h | ⟨_, -, h⟩
  · exact unitByte_error (by omega) h
  cases h

theorem probePes_error {pusi : Bool} (h : probePes buf o cur pusi = .error e) : UnitStop buf o e := by
  unfold probePes at h
  split at h
  · next hp =>
    simp only [ge_iff_le, Bool.and_eq_true, decide_eq_true_eq] at hp
    rcases bind_error.1 h with h | ⟨_, -, h⟩
    · exact pesPrefix_error (by omega) h
    split at h
    · exact decodePes_error h
    · cases h
  · cases h

/-- What ends the decoding of a unit. -/
theorem decodeUnit_error (h : decodeUnit buf mode o = .error e) : UnitStop buf o e := by
  rcases bind_error.1 h with h | ⟨_, -, h⟩
  · exact unitByte_error (by omega) h
  rcases bind_error.1 h with h | ⟨_, -, h⟩
  · exact unitByte_error (by omega) h
  rcases bind_error.1 h with h | ⟨_, -, h⟩
  · exact unitByte_error (by omega) h
  rcases bind_error.1 h with h | ⟨_, -, h⟩
  · exact unitByte_error (by omega) h
  simp only at h
  split at h
  · unfold decodeBody at h
    split at h
    · rcases bind_error.1 h with h | ⟨_, -, h⟩
      · exact decodeAf_error h
      rcases bind_error.1 h with h | ⟨_, -, h⟩
      · exact probePes_error h
      cases h
    · rcases bind_error.1 h with h | ⟨_, -, h⟩
      · exact probePes_error h
      cases h
  · cases h

/-! ### What a decoded unit holds -/

/-- Two records agree on the header fields that only the header decides, and on the unit's offset. -/
def SameHeader (r u : UnitRecord) : Prop :=
  u.syncValid = r.syncValid ∧ u.pusi = r.pusi ∧ u.prio = r.prio ∧ u.sc = r.sc ∧ u.afcAf = r.afcAf ∧
  u.afcPl = r.afcPl ∧ u.cc = r.cc ∧ u.teiHdr = r.teiHdr ∧ u.pid = r.pid ∧ u.unitOffset = r.unitOffset

theorem SameHeader.attachPayload {r u : UnitRecord} (h : SameHeader r u) (cur : Nat) :
    SameHeader r (attachPayload u cur) := by
  by_cases hc : cur < 188
  · rw [Machine.attachPayload, if_pos hc]; exact h
  · rw [Machine.attachPayload, if_neg hc]; exact h

theorem SameHeader.attachPes {r u : UnitRecord} (h : SameHeader r u) (cur : Nat) (p : PesProbe) :
    SameHeader r (attachPes u cur p) := by
  cases p with
  | absent => exact h.attachPayload cur
  | short => exact h
  | attached p => exact SameHeader.attachPayload (u := { u with pes := some p }) h _

@[simp] theorem attachPayload_af (r : UnitRecord) (cur : Nat) : (attachPayload r cur).af = r.af := by
  by_cases hc : cur < 188
  · rw [attachPayload, if_pos hc]
  · rw [attachPayload, if_neg hc]

@[simp] theorem attachPayload_pes (r : UnitRecord) (cur : Nat) : (attachPayload r cur).pes = r.pes := by
  by_cases hc : cur < 188
  · rw [attachPayload, if_pos hc]
  · rw [attachPayload, if_neg hc]

theorem attachPes_af (r : UnitRecord) (cur : Nat) (p : PesProbe) : (attachPes r cur p).af = r.af := by
  cases p <;> simp [attachPes]

/-- The four header bytes of a decoded unit, and what they leave in its record. -/
theorem decodeUnit_header (h : decodeUnit buf mode o = .ok u) :
    ∃ b0 b1 b2 b3, Memory.read buf o = some b0 ∧ Memory.read buf (o + 1) = some b1 ∧
      Memory.read buf (o + 2) = some b2 ∧ Memory.read buf (o + 3) = some b3 ∧
      SameHeader (headerRecord o b0 b1 b2 b3) u ∧
      (if gated (headerRecord o b0 b1 b2 b3) then decodeBody buf mode o (headerRecord o b0 b1 b2 b3) = .ok u
       else u = headerRecord o b0 b1 b2 b3) := by
  obtain ⟨b0, h0, h⟩ := bind_ok.1 h
  obtain ⟨b1, h1, h⟩ := bind_ok.1 h
  obtain ⟨b2, h2, h⟩ := bind_ok.1 h
  obtain ⟨b3, h3, h⟩ := bind_ok.1 h
  refine ⟨b0, b1, b2, b3, unitByte_ok.1 h0, unitByte_ok.1 h1, unitByte_ok.1 h2, unitByte_ok.1 h3, ?_⟩
  simp only at h
  have refl : SameHeader (headerRecord o b0 b1 b2 b3) (headerRecord o b0 b1 b2 b3) :=
    ⟨rfl, rfl, rfl, rfl, rfl, rfl, rfl, rfl, rfl, rfl⟩
  split at h
  · next hg =>
    rw [if_pos hg]
    refine ⟨?_, h⟩
    unfold decodeBody at h
    split at h
    · obtain ⟨a, ha, h⟩ := bind_ok.1 h
      obtain ⟨p, hp, h⟩ := bind_ok.1 h
      cases h
      exact SameHeader.attachPes (u := { headerRecord o b0 b1 b2 b3 with af := some a }) refl _ _
    · obtain ⟨p, hp, h⟩ := bind_ok.1 h
      cases h
      exact refl.attachPes _ _
  · next hg =>
    rw [if_neg hg]
    cases h
    exact ⟨refl, rfl⟩

/-- A record's payload runs to the end of its unit, and its PES header lies inside it. -/
def RangesInside (u : UnitRecord) : Prop :=
  (∀ q, u.payload = some q → 4 ≤ q.off.toNat ∧ 1 ≤ q.len.toNat ∧ q.off.toNat + q.len.toNat = 188) ∧
  (∀ p, u.pes = some p → 4 ≤ p.off.toNat ∧ 9 ≤ p.len.toNat ∧ p.off.toNat + p.len.toNat ≤ 188)

theorem attachPayload_ranges {u : UnitRecord} {cur : Nat} (hc : 4 ≤ cur) (h : RangesInside u) :
    RangesInside (attachPayload u cur) := by
  by_cases hh : cur < 188
  · rw [attachPayload, if_pos hh]
    refine ⟨fun q hq => ?_, h.2⟩
    cases hq
    simp only [BitVec.toNat_ofNat]; omega
  · rw [attachPayload, if_neg hh]; exact h

theorem decodePes_ranges {buf : List Host.Cell} {o cur : Nat} {p : PesPart} (hc : 4 ≤ cur)
    (h : decodePes buf o cur = .ok (.attached p)) :
    4 ≤ p.off.toNat ∧ 9 ≤ p.len.toNat ∧ p.off.toNat + p.len.toNat ≤ 188 := by
  unfold decodePes at h
  split at h
  · cases h
  obtain ⟨b7, -, h⟩ := bind_ok.1 h
  obtain ⟨hdl, -, h⟩ := bind_ok.1 h
  simp only at h
  split at h
  · cases h
  split at h
  · cases h
  obtain ⟨pts, -, h⟩ := bind_ok.1 h
  obtain ⟨dts, -, h⟩ := bind_ok.1 h
  obtain ⟨sid, -, h⟩ := bind_ok.1 h
  cases h
  simp only [BitVec.toNat_ofNat]; omega

theorem probePes_ranges {buf : List Host.Cell} {o cur : Nat} {pusi : Bool} {p : PesPart} (hc : 4 ≤ cur)
    (h : probePes buf o cur pusi = .ok (.attached p)) :
    4 ≤ p.off.toNat ∧ 9 ≤ p.len.toNat ∧ p.off.toNat + p.len.toNat ≤ 188 := by
  unfold probePes at h
  split at h
  · obtain ⟨found, -, h⟩ := bind_ok.1 h
    split at h
    · exact decodePes_ranges hc h
    · cases h
  · cases h

theorem attachPes_ranges {u : UnitRecord} {cur : Nat} {p : PesProbe} (hc : 4 ≤ cur) (hu : u.pes = none)
    (hp : u.payload = none)
    (h : ∀ q, p = .attached q → 4 ≤ q.off.toNat ∧ 9 ≤ q.len.toNat ∧ q.off.toNat + q.len.toNat ≤ 188) :
    RangesInside (attachPes u cur p) := by
  have h0 : RangesInside u := ⟨by simp [hp], by simp [hu]⟩
  cases p with
  | absent => exact attachPayload_ranges hc h0
  | short => exact h0
  | attached q =>
    refine attachPayload_ranges (by omega) ⟨h0.1, fun q' hq => ?_⟩
    cases hq; exact h q rfl

/-- Where a decoded unit's payload and PES header lie. -/
theorem decodeUnit_ranges (h : decodeUnit buf mode o = .ok u) : RangesInside u := by
  obtain ⟨b0, b1, b2, b3, -, -, -, -, -, h⟩ := decodeUnit_header h
  split at h
  · unfold decodeBody at h
    split at h
    · obtain ⟨a, -, h⟩ := bind_ok.1 h
      obtain ⟨p, hp, h⟩ := bind_ok.1 h
      cases h
      exact attachPes_ranges (by omega) rfl rfl (fun q hq => probePes_ranges (by omega) (hq ▸ hp))
    · obtain ⟨p, hp, h⟩ := bind_ok.1 h
      cases h
      exact attachPes_ranges (by omega) rfl rfl (fun q hq => probePes_ranges (by omega) (hq ▸ hp))
  · subst h
    exact ⟨by simp [headerRecord], by simp [headerRecord]⟩

/-! ### Which bytes a unit's decoding uses -/

section
variable {b b' : List Host.Cell}

theorem decodeAf_congr (h : ∀ j < 188, unitByte b o j = unitByte b' o j) (m : PcrMode) :
    decodeAf b m o = decodeAf b' m o := by
  unfold decodeAf afFlags afPcr
  rw [h 4 (by omega), h 5 (by omega), h 6 (by omega), h 7 (by omega), h 8 (by omega), h 9 (by omega),
    h 10 (by omega), h 11 (by omega)]

theorem timestamp_congr (h : ∀ j < 188, unitByte b o j = unitByte b' o j) (hj : j + 4 < 188) (c : BitVec 4)
    (d : Bool) : timestamp b o j c d = timestamp b' o j c d := by
  unfold timestamp
  rw [h j (by omega), h (j + 1) (by omega), h (j + 2) (by omega), h (j + 3) (by omega), h (j + 4) (by omega)]

theorem ptsField_congr (h : ∀ j < 188, unitByte b o j = unitByte b' o j) {f : BitVec 2}
    (hn : pesNeed f ≤ 188 - cur) : ptsField b o cur f = ptsField b' o cur f := by
  unfold ptsField
  unfold pesNeed at hn
  split
  · next hf => rw [timestamp_congr h]; rw [if_pos hf] at hn; omega
  · split
    · next hf hf' => rw [timestamp_congr h]; rw [if_neg hf, if_pos hf'] at hn; omega
    · rfl

theorem dtsField_congr (h : ∀ j < 188, unitByte b o j = unitByte b' o j) {f : BitVec 2}
    (hn : pesNeed f ≤ 188 - cur) : dtsField b o cur f = dtsField b' o cur f := by
  unfold dtsField
  split
  · next hf => rw [timestamp_congr h]; subst hf; simp [pesNeed] at hn; omega
  · rfl

theorem decodePes_congr (h : ∀ j < 188, unitByte b o j = unitByte b' o j) : decodePes b o cur = decodePes b' o cur := by
  unfold decodePes
  split
  · rfl
  · rw [h (cur + 7) (by omega), h (cur + 8) (by omega)]
    congr 1; funext b7; congr 1; funext hdl
    simp only
    split
    · rfl
    · split
      · rfl
      · rw [ptsField_congr h (by omega), dtsField_congr h (by omega), h (cur + 3) (by omega)]

theorem probePes_congr (h : ∀ j < 188, unitByte b o j = unitByte b' o j) (pusi : Bool) :
    probePes b o cur pusi = probePes b' o cur pusi := by
  unfold probePes
  split
  · next hp =>
    simp only [ge_iff_le, Bool.and_eq_true, decide_eq_true_eq] at hp
    unfold pesPrefix
    rw [h cur (by omega), h (cur + 1) (by omega), h (cur + 2) (by omega), decodePes_congr h]
  · rfl

/-- A unit's decoding depends on its 188 bytes only. -/
theorem decodeUnit_congr (h : ∀ j < 188, Memory.read b (o + j) = Memory.read b' (o + j)) (m : PcrMode) :
    decodeUnit b m o = decodeUnit b' m o := by
  have h : ∀ j < 188, unitByte b o j = unitByte b' o j := fun j hj => by simp only [unitByte, readByte, h j hj]
  unfold decodeUnit decodeBody
  rw [h 0 (by omega), h 1 (by omega), h 2 (by omega), h 3 (by omega), decodeAf_congr h]
  simp only [probePes_congr h]

end

/-! ### The unit loop -/

theorem framingGoesOn_ok {b : Bool} (h : framingGoesOn buf n o = .ok b) :
    b = true ↔ (o < n ∧ Memory.read buf o = some syncByte) := by
  unfold framingGoesOn at h
  split at h
  · next ho =>
    obtain ⟨x, hx, h⟩ := bind_ok.1 h
    rw [unitByte_ok] at hx
    cases h; simp [ho, show Memory.read buf o = some x from hx]
  · next ho => cases h; simp [ho]

theorem framingGoesOn_error (h : framingGoesOn buf n o = .error e) :
    o < n ∧ Memory.read buf o = none ∧ e = .fault (.bufUnwritten o) := by
  unfold framingGoesOn at h
  split at h
  · rcases bind_error.1 h with h | ⟨_, -, h⟩
    · unfold unitByte at h
      split at h
      · cases h
      · next f hf =>
        cases h
        obtain ⟨h1, rfl⟩ := readByte_error.1 hf
        exact ⟨‹_›, h1, rfl⟩
    · cases h
  · cases h

/-- The records of the loop: each is the decoding of the next unit, every unit after the first has a sync byte, and
the loop stopped where a unit did not fit or no sync byte stood. -/
theorem frameUnits_ok {rs : List UnitRecord} (h : frameUnits buf mode n k o = .ok rs) (hk : n < o + 188 * (k + 1)) :
    (∀ i (hi : i < rs.length), o + 188 * i + 188 ≤ n ∧ decodeUnit buf mode (o + 188 * i) = .ok rs[i] ∧
      (i ≠ 0 → Memory.read buf (o + 188 * i) = some syncByte)) ∧
    (n < o + 188 * rs.length + 188 ∨ (rs ≠ [] ∧ Memory.read buf (o + 188 * rs.length) ≠ some syncByte)) := by
  induction k generalizing o rs with
  | zero => cases h; simp; omega
  | succ k ih =>
    unfold frameUnits at h
    split at h
    · next ho =>
      rw [show tsPacketSize = 188 from rfl] at ho h
      obtain ⟨r, hr, h⟩ := bind_ok.1 h
      obtain ⟨more, hm, h⟩ := bind_ok.1 h
      have hm := framingGoesOn_ok hm
      split at h
      · next ht =>
        obtain ⟨rs', hrs, h⟩ := bind_ok.1 h
        cases h
        obtain ⟨h1, h2⟩ := ih hrs (by omega)
        refine ⟨fun i hi => ?_, ?_⟩
        · cases i with
          | zero => exact ⟨by omega, by simpa using hr, by simp⟩
          | succ i =>
            obtain ⟨h3, h4, h5⟩ := h1 i (by simpa using hi)
            have he : o + 188 * (i + 1) = o + 188 + 188 * i := by omega
            rw [he]
            refine ⟨h3, by simpa using h4, fun _ => ?_⟩
            by_cases hi0 : i = 0
            · subst hi0; exact (hm.1 ht).2
            · exact h5 hi0
        · simp only [List.length_cons]
          rw [show o + 188 * (rs'.length + 1) = o + 188 + 188 * rs'.length by omega]
          exact h2.imp id (fun h => ⟨by simp, h.2⟩)
      · next ht =>
        cases h
        refine ⟨fun i hi => ?_, ?_⟩
        · simp only [List.length_cons, List.length_nil] at hi
          obtain rfl : i = 0 := by omega
          exact ⟨by omega, by simpa using hr, by simp⟩
        · simp only [List.length_cons, List.length_nil]
          by_cases hn : o + 188 < n
          · exact .inr ⟨by simp, fun hs => ht (hm.2 ⟨hn, by simpa using hs⟩)⟩
          · exact .inl (by clear ih hk; omega)
    · next ho => rw [show tsPacketSize = 188 from rfl] at ho; cases h; simp; omega

/-- What ends the loop: the first unit that gives a framing-fatal error, with the units before it decoded, or a byte
of the valid part of the buffer that nothing has written. -/
theorem frameUnits_error (h : frameUnits buf mode n k o = .error e) :
    (∃ i code dts, e = .fatal code dts (o + 188 * i) ∧ o + 188 * i + 188 ≤ n ∧
      decodeUnit buf mode (o + 188 * i) = .error e ∧ code ≠ .noError ∧
      (code ≠ .tsCode → code ≠ .tsMarker → dts = false)) ∨
    (∃ a < n, Memory.read buf a = none ∧ e = .fault (.bufUnwritten a)) := by
  induction k generalizing o with
  | zero => cases h
  | succ k ih =>
    unfold frameUnits at h
    split at h
    · next ho =>
      rw [show tsPacketSize = 188 from rfl] at ho h
      rcases bind_error.1 h with h | ⟨r, hr, h⟩
      · rcases decodeUnit_error h with ⟨code, dts, he, h1, h2⟩ | ⟨j, hj, h1, h2⟩
        · exact .inl ⟨0, code, dts, by simpa using he, by omega, by simpa using h, h1, h2⟩
        · exact .inr ⟨o + j, by omega, h1, h2⟩
      rcases bind_error.1 h with h | ⟨more, hm, h⟩
      · obtain ⟨h1, h2, h3⟩ := framingGoesOn_error h
        exact .inr ⟨_, h1, h2, h3⟩
      split at h
      · rcases bind_error.1 h with h | ⟨_, -, h⟩
        · rcases ih h with ⟨i, code, dts, h1, h2, h3, h4⟩ | h
          · refine .inl ⟨i + 1, code, dts, ?_⟩
            rw [show o + 188 * (i + 1) = o + 188 + 188 * i by omega]
            exact ⟨h1, h2, h3, h4⟩
          · exact .inr h
        · cases h
      · cases h
    · cases h

/-- The loop commits no more units than the buffer has room for. -/
theorem frameUnits_length {rs : List UnitRecord} (h : frameUnits buf mode n k o = .ok rs)
    (hk : n < o + 188 * (k + 1)) : 188 * rs.length ≤ n := by
  rcases Nat.eq_zero_or_pos rs.length with h0 | h0
  · omega
  · have := ((frameUnits_ok h hk).1 (rs.length - 1) (by omega)).1
    omega

@[simp] theorem recordWords_length (r : UnitRecord) : (recordWords r).length = 16 := rfl

/-! ### FRAME -/

/-- Everything FRAME can do: find no sync, commit records, end in a framing-fatal error, or stop on a byte of the
valid part of the buffer that nothing has written. -/
theorem execFrame_cases (s : State) :
    (locate s.buf s.bufLen.toNat 0 = .ok none ∧ execFrame s = .next (frameNoSync s)) ∨
    (∃ o rs, locate s.buf s.bufLen.toNat 0 = .ok (some o) ∧
      frameUnits s.buf s.pcrMode s.bufLen.toNat s.bufLen.toNat o = .ok rs ∧
      execFrame s = .next (frameCommit rs s)) ∨
    (∃ o i code dts, locate s.buf s.bufLen.toNat 0 = .ok (some o) ∧
      frameUnits s.buf s.pcrMode s.bufLen.toNat s.bufLen.toNat o = .error (.fatal code dts (o + 188 * i)) ∧
      o + 188 * i + 188 ≤ s.bufLen.toNat ∧ code ≠ .noError ∧ (code ≠ .tsCode → code ≠ .tsMarker → dts = false) ∧
      execFrame s = .next (frameFailed code dts (o + 188 * i) s)) ∨
    (∃ a < s.bufLen.toNat, Memory.read s.buf a = none ∧ execFrame s = .fault (.bufUnwritten a)) := by
  unfold execFrame
  cases hl : locate s.buf s.bufLen.toNat 0 with
  | error f =>
    obtain ⟨a, h1, h2, rfl⟩ := locate_fault hl
    exact .inr (.inr (.inr ⟨a, h1, h2, rfl⟩))
  | ok r =>
    cases r with
    | none => exact .inl ⟨rfl, rfl⟩
    | some o =>
      simp only [orFault, frameFrom]
      cases hu : frameUnits s.buf s.pcrMode s.bufLen.toNat s.bufLen.toNat o with
      | ok rs => exact .inr (.inl ⟨o, rs, rfl, hu, rfl⟩)
      | error e =>
        rcases frameUnits_error hu with ⟨i, code, dts, rfl, h1, -, h2, h3⟩ | ⟨a, h1, h2, rfl⟩
        · exact .inr (.inr (.inl ⟨o, i, code, dts, rfl, hu, h1, h2, h3, rfl⟩))
        · exact .inr (.inr (.inr ⟨a, h1, h2, rfl⟩))

end Sys2Proof.Machine
end

