-- ==== Sys2Proof/Laws/State.lean ====
section
/-! SUPPORT. What each shared update of Machine/Ops.lean leaves in each field of the state: one lemma for each
field and update, so that no proof unfolds a record update. -/

namespace Sys2Proof.Machine

variable (s : State)

/-! ### setMetric -/

@[simp] theorem setMetric_cfg (p : Pid) (e : Metric) : (setMetric p e s).cfg = s.cfg := rfl
@[simp] theorem setMetric_evtEn (p : Pid) (e : Metric) : (setMetric p e s).evtEn = s.evtEn := rfl
@[simp] theorem setMetric_irqEn (p : Pid) (e : Metric) : (setMetric p e s).irqEn = s.irqEn := rfl
@[simp] theorem setMetric_pcrMode (p : Pid) (e : Metric) : (setMetric p e s).pcrMode = s.pcrMode := rfl
@[simp] theorem setMetric_frameStatus (p : Pid) (e : Metric) : (setMetric p e s).frameStatus = s.frameStatus := rfl
@[simp] theorem setMetric_usageErr (p : Pid) (e : Metric) : (setMetric p e s).usageErr = s.usageErr := rfl
@[simp] theorem setMetric_cmdErr (p : Pid) (e : Metric) : (setMetric p e s).cmdErr = s.cmdErr := rfl
@[simp] theorem setMetric_tickOverrun (p : Pid) (e : Metric) : (setMetric p e s).tickOverrun = s.tickOverrun := rfl
@[simp] theorem setMetric_bufLen (p : Pid) (e : Metric) : (setMetric p e s).bufLen = s.bufLen := rfl
@[simp] theorem setMetric_resultLo (p : Pid) (e : Metric) : (setMetric p e s).resultLo = s.resultLo := rfl
@[simp] theorem setMetric_resultHi (p : Pid) (e : Metric) : (setMetric p e s).resultHi = s.resultHi := rfl
@[simp] theorem setMetric_recCount (p : Pid) (e : Metric) : (setMetric p e s).recCount = s.recCount := rfl
@[simp] theorem setMetric_errInfo (p : Pid) (e : Metric) : (setMetric p e s).errInfo = s.errInfo := rfl
@[simp] theorem setMetric_buf (p : Pid) (e : Metric) : (setMetric p e s).buf = s.buf := rfl
@[simp] theorem setMetric_recs (p : Pid) (e : Metric) : (setMetric p e s).recs = s.recs := rfl
@[simp] theorem setMetric_metrics (p : Pid) (e : Metric) : (setMetric p e s).metrics = putMetric p.toNat e s.metrics := rfl
@[simp] theorem setMetric_fifo (p : Pid) (e : Metric) : (setMetric p e s).fifo = s.fifo := rfl
@[simp] theorem setMetric_pending (p : Pid) (e : Metric) : (setMetric p e s).pending = s.pending := rfl
@[simp] theorem setMetric_cur (p : Pid) (e : Metric) : (setMetric p e s).cur = s.cur := rfl
@[simp] theorem setMetric_daNext (p : Pid) (e : Metric) : (setMetric p e s).daNext = s.daNext := rfl
@[simp] theorem setMetric_daEnd (p : Pid) (e : Metric) : (setMetric p e s).daEnd = s.daEnd := rfl
@[simp] theorem setMetric_wall (p : Pid) (e : Metric) : (setMetric p e s).wall = s.wall := rfl
@[simp] theorem setMetric_hostQueue (p : Pid) (e : Metric) : (setMetric p e s).hostQueue = s.hostQueue := rfl
@[simp] theorem setMetric_turns (p : Pid) (e : Metric) : (setMetric p e s).turns = s.turns := rfl
@[simp] theorem setMetric_freeTurns (p : Pid) (e : Metric) : (setMetric p e s).freeTurns = s.freeTurns := rfl
@[simp] theorem setMetric_lastRead (p : Pid) (e : Metric) : (setMetric p e s).lastRead = s.lastRead := rfl

/-! ### removePending -/

@[simp] theorem removePending_cfg (p : Pid) : (removePending p s).cfg = s.cfg := rfl
@[simp] theorem removePending_evtEn (p : Pid) : (removePending p s).evtEn = s.evtEn := rfl
@[simp] theorem removePending_irqEn (p : Pid) : (removePending p s).irqEn = s.irqEn := rfl
@[simp] theorem removePending_pcrMode (p : Pid) : (removePending p s).pcrMode = s.pcrMode := rfl
@[simp] theorem removePending_frameStatus (p : Pid) : (removePending p s).frameStatus = s.frameStatus := rfl
@[simp] theorem removePending_usageErr (p : Pid) : (removePending p s).usageErr = s.usageErr := rfl
@[simp] theorem removePending_cmdErr (p : Pid) : (removePending p s).cmdErr = s.cmdErr := rfl
@[simp] theorem removePending_tickOverrun (p : Pid) : (removePending p s).tickOverrun = s.tickOverrun := rfl
@[simp] theorem removePending_bufLen (p : Pid) : (removePending p s).bufLen = s.bufLen := rfl
@[simp] theorem removePending_resultLo (p : Pid) : (removePending p s).resultLo = s.resultLo := rfl
@[simp] theorem removePending_resultHi (p : Pid) : (removePending p s).resultHi = s.resultHi := rfl
@[simp] theorem removePending_recCount (p : Pid) : (removePending p s).recCount = s.recCount := rfl
@[simp] theorem removePending_errInfo (p : Pid) : (removePending p s).errInfo = s.errInfo := rfl
@[simp] theorem removePending_buf (p : Pid) : (removePending p s).buf = s.buf := rfl
@[simp] theorem removePending_recs (p : Pid) : (removePending p s).recs = s.recs := rfl
@[simp] theorem removePending_metrics (p : Pid) : (removePending p s).metrics = s.metrics := rfl
@[simp] theorem removePending_fifo (p : Pid) : (removePending p s).fifo = s.fifo := rfl
@[simp] theorem removePending_pending (p : Pid) : (removePending p s).pending = s.pending.filter (· ≠ p.toNat) := rfl
@[simp] theorem removePending_cur (p : Pid) : (removePending p s).cur = s.cur := rfl
@[simp] theorem removePending_daNext (p : Pid) : (removePending p s).daNext = s.daNext := rfl
@[simp] theorem removePending_daEnd (p : Pid) : (removePending p s).daEnd = s.daEnd := rfl
@[simp] theorem removePending_wall (p : Pid) : (removePending p s).wall = s.wall := rfl
@[simp] theorem removePending_hostQueue (p : Pid) : (removePending p s).hostQueue = s.hostQueue := rfl
@[simp] theorem removePending_turns (p : Pid) : (removePending p s).turns = s.turns := rfl
@[simp] theorem removePending_freeTurns (p : Pid) : (removePending p s).freeTurns = s.freeTurns := rfl
@[simp] theorem removePending_lastRead (p : Pid) : (removePending p s).lastRead = s.lastRead := rfl

/-! ### setResult -/

@[simp] theorem setResult_cfg (v : U64) : (setResult v s).cfg = s.cfg := rfl
@[simp] theorem setResult_evtEn (v : U64) : (setResult v s).evtEn = s.evtEn := rfl
@[simp] theorem setResult_irqEn (v : U64) : (setResult v s).irqEn = s.irqEn := rfl
@[simp] theorem setResult_pcrMode (v : U64) : (setResult v s).pcrMode = s.pcrMode := rfl
@[simp] theorem setResult_frameStatus (v : U64) : (setResult v s).frameStatus = s.frameStatus := rfl
@[simp] theorem setResult_usageErr (v : U64) : (setResult v s).usageErr = s.usageErr := rfl
@[simp] theorem setResult_cmdErr (v : U64) : (setResult v s).cmdErr = s.cmdErr := rfl
@[simp] theorem setResult_tickOverrun (v : U64) : (setResult v s).tickOverrun = s.tickOverrun := rfl
@[simp] theorem setResult_bufLen (v : U64) : (setResult v s).bufLen = s.bufLen := rfl
@[simp] theorem setResult_resultLo (v : U64) : (setResult v s).resultLo = v.extractLsb' 0 32 := rfl
@[simp] theorem setResult_resultHi (v : U64) : (setResult v s).resultHi = v.extractLsb' 32 32 := rfl
@[simp] theorem setResult_recCount (v : U64) : (setResult v s).recCount = s.recCount := rfl
@[simp] theorem setResult_errInfo (v : U64) : (setResult v s).errInfo = s.errInfo := rfl
@[simp] theorem setResult_buf (v : U64) : (setResult v s).buf = s.buf := rfl
@[simp] theorem setResult_recs (v : U64) : (setResult v s).recs = s.recs := rfl
@[simp] theorem setResult_metrics (v : U64) : (setResult v s).metrics = s.metrics := rfl
@[simp] theorem setResult_fifo (v : U64) : (setResult v s).fifo = s.fifo := rfl
@[simp] theorem setResult_pending (v : U64) : (setResult v s).pending = s.pending := rfl
@[simp] theorem setResult_cur (v : U64) : (setResult v s).cur = s.cur := rfl
@[simp] theorem setResult_daNext (v : U64) : (setResult v s).daNext = s.daNext := rfl
@[simp] theorem setResult_daEnd (v : U64) : (setResult v s).daEnd = s.daEnd := rfl
@[simp] theorem setResult_wall (v : U64) : (setResult v s).wall = s.wall := rfl
@[simp] theorem setResult_hostQueue (v : U64) : (setResult v s).hostQueue = s.hostQueue := rfl
@[simp] theorem setResult_turns (v : U64) : (setResult v s).turns = s.turns := rfl
@[simp] theorem setResult_freeTurns (v : U64) : (setResult v s).freeTurns = s.freeTurns := rfl
@[simp] theorem setResult_lastRead (v : U64) : (setResult v s).lastRead = s.lastRead := rfl

/-! ### pushEvent -/

@[simp] theorem pushEvent_cfg (p : Pid) : (pushEvent p s).cfg = s.cfg := rfl
@[simp] theorem pushEvent_evtEn (p : Pid) : (pushEvent p s).evtEn = s.evtEn := rfl
@[simp] theorem pushEvent_irqEn (p : Pid) : (pushEvent p s).irqEn = s.irqEn := rfl
@[simp] theorem pushEvent_pcrMode (p : Pid) : (pushEvent p s).pcrMode = s.pcrMode := rfl
@[simp] theorem pushEvent_frameStatus (p : Pid) : (pushEvent p s).frameStatus = s.frameStatus := rfl
@[simp] theorem pushEvent_usageErr (p : Pid) : (pushEvent p s).usageErr = s.usageErr := rfl
@[simp] theorem pushEvent_cmdErr (p : Pid) : (pushEvent p s).cmdErr = s.cmdErr := rfl
@[simp] theorem pushEvent_tickOverrun (p : Pid) : (pushEvent p s).tickOverrun = s.tickOverrun := rfl
@[simp] theorem pushEvent_bufLen (p : Pid) : (pushEvent p s).bufLen = s.bufLen := rfl
@[simp] theorem pushEvent_resultLo (p : Pid) : (pushEvent p s).resultLo = s.resultLo := rfl
@[simp] theorem pushEvent_resultHi (p : Pid) : (pushEvent p s).resultHi = s.resultHi := rfl
@[simp] theorem pushEvent_recCount (p : Pid) : (pushEvent p s).recCount = s.recCount := rfl
@[simp] theorem pushEvent_errInfo (p : Pid) : (pushEvent p s).errInfo = s.errInfo := rfl
@[simp] theorem pushEvent_buf (p : Pid) : (pushEvent p s).buf = s.buf := rfl
@[simp] theorem pushEvent_recs (p : Pid) : (pushEvent p s).recs = s.recs := rfl
@[simp] theorem pushEvent_metrics (p : Pid) : (pushEvent p s).metrics = s.metrics := rfl
@[simp] theorem pushEvent_fifo (p : Pid) : (pushEvent p s).fifo = s.fifo ++ [p] := rfl
@[simp] theorem pushEvent_pending (p : Pid) : (pushEvent p s).pending = s.pending := rfl
@[simp] theorem pushEvent_cur (p : Pid) : (pushEvent p s).cur = s.cur := rfl
@[simp] theorem pushEvent_daNext (p : Pid) : (pushEvent p s).daNext = s.daNext := rfl
@[simp] theorem pushEvent_daEnd (p : Pid) : (pushEvent p s).daEnd = s.daEnd := rfl
@[simp] theorem pushEvent_wall (p : Pid) : (pushEvent p s).wall = s.wall := rfl
@[simp] theorem pushEvent_hostQueue (p : Pid) : (pushEvent p s).hostQueue = s.hostQueue := rfl
@[simp] theorem pushEvent_turns (p : Pid) : (pushEvent p s).turns = s.turns := rfl
@[simp] theorem pushEvent_freeTurns (p : Pid) : (pushEvent p s).freeTurns = s.freeTurns := rfl
@[simp] theorem pushEvent_lastRead (p : Pid) : (pushEvent p s).lastRead = s.lastRead := rfl

/-! ### complete -/

@[simp] theorem complete_cfg : (complete s).cfg = s.cfg := rfl
@[simp] theorem complete_evtEn : (complete s).evtEn = s.evtEn := rfl
@[simp] theorem complete_irqEn : (complete s).irqEn = s.irqEn := rfl
@[simp] theorem complete_pcrMode : (complete s).pcrMode = s.pcrMode := rfl
@[simp] theorem complete_frameStatus : (complete s).frameStatus = s.frameStatus := rfl
@[simp] theorem complete_usageErr : (complete s).usageErr = s.usageErr := rfl
@[simp] theorem complete_cmdErr : (complete s).cmdErr = s.cmdErr := rfl
@[simp] theorem complete_tickOverrun : (complete s).tickOverrun = s.tickOverrun := rfl
@[simp] theorem complete_bufLen : (complete s).bufLen = s.bufLen := rfl
@[simp] theorem complete_resultLo : (complete s).resultLo = s.resultLo := rfl
@[simp] theorem complete_resultHi : (complete s).resultHi = s.resultHi := rfl
@[simp] theorem complete_recCount : (complete s).recCount = s.recCount := rfl
@[simp] theorem complete_errInfo : (complete s).errInfo = s.errInfo := rfl
@[simp] theorem complete_buf : (complete s).buf = s.buf := rfl
@[simp] theorem complete_recs : (complete s).recs = s.recs := rfl
@[simp] theorem complete_metrics : (complete s).metrics = s.metrics := rfl
@[simp] theorem complete_fifo : (complete s).fifo = s.fifo := rfl
@[simp] theorem complete_pending : (complete s).pending = s.pending := rfl
@[simp] theorem complete_cur : (complete s).cur = none := rfl
@[simp] theorem complete_daNext : (complete s).daNext = s.daNext := rfl
@[simp] theorem complete_daEnd : (complete s).daEnd = s.daEnd := rfl
@[simp] theorem complete_wall : (complete s).wall = s.wall := rfl
@[simp] theorem complete_hostQueue : (complete s).hostQueue = s.hostQueue := rfl
@[simp] theorem complete_turns : (complete s).turns = s.turns := rfl
@[simp] theorem complete_freeTurns : (complete s).freeTurns = s.freeTurns := rfl
@[simp] theorem complete_lastRead : (complete s).lastRead = s.lastRead := rfl

/-! ### keepBusy -/

@[simp] theorem keepBusy_cfg (w : Word) : (keepBusy w s).cfg = s.cfg := rfl
@[simp] theorem keepBusy_evtEn (w : Word) : (keepBusy w s).evtEn = s.evtEn := rfl
@[simp] theorem keepBusy_irqEn (w : Word) : (keepBusy w s).irqEn = s.irqEn := rfl
@[simp] theorem keepBusy_pcrMode (w : Word) : (keepBusy w s).pcrMode = s.pcrMode := rfl
@[simp] theorem keepBusy_frameStatus (w : Word) : (keepBusy w s).frameStatus = s.frameStatus := rfl
@[simp] theorem keepBusy_usageErr (w : Word) : (keepBusy w s).usageErr = s.usageErr := rfl
@[simp] theorem keepBusy_cmdErr (w : Word) : (keepBusy w s).cmdErr = s.cmdErr := rfl
@[simp] theorem keepBusy_tickOverrun (w : Word) : (keepBusy w s).tickOverrun = s.tickOverrun := rfl
@[simp] theorem keepBusy_bufLen (w : Word) : (keepBusy w s).bufLen = s.bufLen := rfl
@[simp] theorem keepBusy_resultLo (w : Word) : (keepBusy w s).resultLo = s.resultLo := rfl
@[simp] theorem keepBusy_resultHi (w : Word) : (keepBusy w s).resultHi = s.resultHi := rfl
@[simp] theorem keepBusy_recCount (w : Word) : (keepBusy w s).recCount = s.recCount := rfl
@[simp] theorem keepBusy_errInfo (w : Word) : (keepBusy w s).errInfo = s.errInfo := rfl
@[simp] theorem keepBusy_buf (w : Word) : (keepBusy w s).buf = s.buf := rfl
@[simp] theorem keepBusy_recs (w : Word) : (keepBusy w s).recs = s.recs := rfl
@[simp] theorem keepBusy_metrics (w : Word) : (keepBusy w s).metrics = s.metrics := rfl
@[simp] theorem keepBusy_fifo (w : Word) : (keepBusy w s).fifo = s.fifo := rfl
@[simp] theorem keepBusy_pending (w : Word) : (keepBusy w s).pending = s.pending := rfl
@[simp] theorem keepBusy_cur (w : Word) : (keepBusy w s).cur = some w := rfl
@[simp] theorem keepBusy_daNext (w : Word) : (keepBusy w s).daNext = s.daNext := rfl
@[simp] theorem keepBusy_daEnd (w : Word) : (keepBusy w s).daEnd = s.daEnd := rfl
@[simp] theorem keepBusy_wall (w : Word) : (keepBusy w s).wall = s.wall := rfl
@[simp] theorem keepBusy_hostQueue (w : Word) : (keepBusy w s).hostQueue = s.hostQueue := rfl
@[simp] theorem keepBusy_turns (w : Word) : (keepBusy w s).turns = s.turns := rfl
@[simp] theorem keepBusy_freeTurns (w : Word) : (keepBusy w s).freeTurns = s.freeTurns := rfl
@[simp] theorem keepBusy_lastRead (w : Word) : (keepBusy w s).lastRead = s.lastRead := rfl

/-! ### illegalCommand -/

@[simp] theorem illegalCommand_cfg : (illegalCommand s).cfg = s.cfg := rfl
@[simp] theorem illegalCommand_evtEn : (illegalCommand s).evtEn = s.evtEn := rfl
@[simp] theorem illegalCommand_irqEn : (illegalCommand s).irqEn = s.irqEn := rfl
@[simp] theorem illegalCommand_pcrMode : (illegalCommand s).pcrMode = s.pcrMode := rfl
@[simp] theorem illegalCommand_frameStatus : (illegalCommand s).frameStatus = s.frameStatus := rfl
@[simp] theorem illegalCommand_usageErr : (illegalCommand s).usageErr = s.usageErr := rfl
@[simp] theorem illegalCommand_cmdErr : (illegalCommand s).cmdErr = true := rfl
@[simp] theorem illegalCommand_tickOverrun : (illegalCommand s).tickOverrun = s.tickOverrun := rfl
@[simp] theorem illegalCommand_bufLen : (illegalCommand s).bufLen = s.bufLen := rfl
@[simp] theorem illegalCommand_resultLo : (illegalCommand s).resultLo = s.resultLo := rfl
@[simp] theorem illegalCommand_resultHi : (illegalCommand s).resultHi = s.resultHi := rfl
@[simp] theorem illegalCommand_recCount : (illegalCommand s).recCount = s.recCount := rfl
@[simp] theorem illegalCommand_errInfo : (illegalCommand s).errInfo = s.errInfo := rfl
@[simp] theorem illegalCommand_buf : (illegalCommand s).buf = s.buf := rfl
@[simp] theorem illegalCommand_recs : (illegalCommand s).recs = s.recs := rfl
@[simp] theorem illegalCommand_metrics : (illegalCommand s).metrics = s.metrics := rfl
@[simp] theorem illegalCommand_fifo : (illegalCommand s).fifo = s.fifo := rfl
@[simp] theorem illegalCommand_pending : (illegalCommand s).pending = s.pending := rfl
@[simp] theorem illegalCommand_cur : (illegalCommand s).cur = s.cur := rfl
@[simp] theorem illegalCommand_daNext : (illegalCommand s).daNext = s.daNext := rfl
@[simp] theorem illegalCommand_daEnd : (illegalCommand s).daEnd = s.daEnd := rfl
@[simp] theorem illegalCommand_wall : (illegalCommand s).wall = s.wall := rfl
@[simp] theorem illegalCommand_hostQueue : (illegalCommand s).hostQueue = s.hostQueue := rfl
@[simp] theorem illegalCommand_turns : (illegalCommand s).turns = s.turns := rfl
@[simp] theorem illegalCommand_freeTurns : (illegalCommand s).freeTurns = s.freeTurns := rfl
@[simp] theorem illegalCommand_lastRead : (illegalCommand s).lastRead = s.lastRead := rfl

/-! ### usageError -/

@[simp] theorem usageError_cfg : (usageError s).cfg = s.cfg := rfl
@[simp] theorem usageError_evtEn : (usageError s).evtEn = s.evtEn := rfl
@[simp] theorem usageError_irqEn : (usageError s).irqEn = s.irqEn := rfl
@[simp] theorem usageError_pcrMode : (usageError s).pcrMode = s.pcrMode := rfl
@[simp] theorem usageError_frameStatus : (usageError s).frameStatus = s.frameStatus := rfl
@[simp] theorem usageError_usageErr : (usageError s).usageErr = true := rfl
@[simp] theorem usageError_cmdErr : (usageError s).cmdErr = s.cmdErr := rfl
@[simp] theorem usageError_tickOverrun : (usageError s).tickOverrun = s.tickOverrun := rfl
@[simp] theorem usageError_bufLen : (usageError s).bufLen = s.bufLen := rfl
@[simp] theorem usageError_resultLo : (usageError s).resultLo = s.resultLo := rfl
@[simp] theorem usageError_resultHi : (usageError s).resultHi = s.resultHi := rfl
@[simp] theorem usageError_recCount : (usageError s).recCount = s.recCount := rfl
@[simp] theorem usageError_errInfo : (usageError s).errInfo = s.errInfo := rfl
@[simp] theorem usageError_buf : (usageError s).buf = s.buf := rfl
@[simp] theorem usageError_recs : (usageError s).recs = s.recs := rfl
@[simp] theorem usageError_metrics : (usageError s).metrics = s.metrics := rfl
@[simp] theorem usageError_fifo : (usageError s).fifo = s.fifo := rfl
@[simp] theorem usageError_pending : (usageError s).pending = s.pending := rfl
@[simp] theorem usageError_cur : (usageError s).cur = s.cur := rfl
@[simp] theorem usageError_daNext : (usageError s).daNext = s.daNext := rfl
@[simp] theorem usageError_daEnd : (usageError s).daEnd = s.daEnd := rfl
@[simp] theorem usageError_wall : (usageError s).wall = s.wall := rfl
@[simp] theorem usageError_hostQueue : (usageError s).hostQueue = s.hostQueue := rfl
@[simp] theorem usageError_turns : (usageError s).turns = s.turns := rfl
@[simp] theorem usageError_freeTurns : (usageError s).freeTurns = s.freeTurns := rfl
@[simp] theorem usageError_lastRead : (usageError s).lastRead = s.lastRead := rfl

end Sys2Proof.Machine
end

