-- ==== Sys2Proof/Laws/Packet.lean ====
section
/-! SUPPORT. Everything the packet path can do: reading a record, the AddPacket step, and the three packet
commands. -/

namespace Sys2Proof.Machine

variable {s t : State} {p q : Pid} {r : RecView} {recs : List (Nat × Word)} {f : Fault} {k : Nat}

/-! ### Reading a record -/

theorem readRecord_ok : readRecord recs k = .ok r ↔
    ∃ w0 w1 w2 w3, Memory.read recs (recKey k 0) = some w0 ∧ Memory.read recs (recKey k 1) = some w1 ∧
      Memory.read recs (recKey k 2) = some w2 ∧ Memory.read recs (recKey k 3) = some w3 ∧
      r = recViewOf w0 w1 w2 w3 := by
  constructor
  · intro h
    obtain ⟨w0, h0, h⟩ := bind_ok.1 h
    obtain ⟨w1, h1, h⟩ := bind_ok.1 h
    obtain ⟨w2, h2, h⟩ := bind_ok.1 h
    obtain ⟨w3, h3, h⟩ := bind_ok.1 h
    cases h
    exact ⟨w0, w1, w2, w3, readRecWord_ok.1 h0, readRecWord_ok.1 h1, readRecWord_ok.1 h2, readRecWord_ok.1 h3, rfl⟩
  · rintro ⟨w0, w1, w2, w3, h0, h1, h2, h3, rfl⟩
    unfold readRecord
    rw [readRecWord_ok.2 h0, readRecWord_ok.2 h1, readRecWord_ok.2 h2, readRecWord_ok.2 h3]
    rfl

/-- A record's read stops on the first of its four words that nothing has written. -/
theorem readRecord_error (h : readRecord recs k = .error f) :
    ∃ x < 4, Memory.read recs (recKey k x) = none ∧ f = .recUnwritten k x := by
  rcases bind_error.1 h with h | ⟨_, -, h⟩
  · exact ⟨0, by omega, readRecWord_error.1 h⟩
  rcases bind_error.1 h with h | ⟨_, -, h⟩
  · exact ⟨1, by omega, readRecWord_error.1 h⟩
  rcases bind_error.1 h with h | ⟨_, -, h⟩
  · exact ⟨2, by omega, readRecWord_error.1 h⟩
  rcases bind_error.1 h with h | ⟨_, -, h⟩
  · exact ⟨3, by omega, readRecWord_error.1 h⟩
  cases h

/-- A record's read answers if its four words are written. -/
theorem readRecord_written (h : ∀ x < 4, (Memory.read recs (recKey k x)).isSome = true) :
    ∃ r, readRecord recs k = .ok r := by
  cases hr : readRecord recs k with
  | ok r => exact ⟨r, rfl⟩
  | error f =>
    obtain ⟨x, hx, h1, -⟩ := readRecord_error hr
    have := h x hx
    simp [h1] at this

/-! ### The AddPacket step -/

/-- The state after an AddPacket step, field by field. -/
theorem addPacket_eq (p : Pid) (r : RecView) (s : State) :
    addPacket p r s =
      { s with
        metrics := putMetric p.toNat (packetMetric p r (scaleWall s.cfg s.wall) (s.metric p)) s.metrics
        fifo := if pushes p r s then s.fifo ++ [p] else s.fifo } := by
  unfold addPacket
  split <;> rfl

@[simp] theorem addPacket_metric_same (p : Pid) (r : RecView) (s : State) :
    (addPacket p r s).metric p = packetMetric p r (scaleWall s.cfg s.wall) (s.metric p) := by
  rw [addPacket_eq]; simp [State.metric, getMetric_putMetric]

theorem addPacket_metric_other (h : q ≠ p) (r : RecView) (s : State) :
    (addPacket p r s).metric q = s.metric q := by
  have : q.toNat ≠ p.toNat := fun hh => h (BitVec.eq_of_toNat_eq hh)
  rw [addPacket_eq]; simp [State.metric, getMetric_putMetric, this]

/-- A TEI packet only counts. -/
theorem packetMetric_tei (h : r.tei = true) (p : Pid) (ws : U64) (e : Metric) :
    packetMetric p r ws e = countTei (countPacket e) := by rw [packetMetric, if_pos h]

/-- Any other packet is counted, checked, and its counter recorded. -/
theorem packetMetric_notTei (h : r.tei = false) (p : Pid) (ws : U64) (e : Metric) :
    packetMetric p r ws e =
      recordCc r (if eligible r then pcrStep r.pcr ws (applyCc (ccOutcome p r e) r ws (countPacket e))
        else applyCc (ccOutcome p r e) r ws (countPacket e)) := by
  rw [packetMetric, if_neg (by simp [h])]

/-- When a packet is a discontinuity. -/
theorem ccOutcome_discontinuity (p : Pid) (r : RecView) (e : Metric) :
    ccOutcome p r e = .discontinuity ↔
      p ≠ nullPid ∧ e.ccValid = true ∧ r.cc ≠ e.lastCc ∧ r.cc ≠ e.lastCc + 1 := by
  unfold ccOutcome
  by_cases h1 : p = nullPid
  · simp [h1]
  · cases h2 : e.ccValid
    · simp
    · by_cases h3 : r.cc = e.lastCc
      · simp [h1, h3]; split <;> simp
      · by_cases h4 : r.cc = e.lastCc + 1 <;> simp_all

theorem notifies_iff (p : Pid) (r : RecView) (e : Metric) :
    notifies p r e = true ↔
      r.tei = false ∧ p ≠ nullPid ∧ e.ccValid = true ∧ r.cc ≠ e.lastCc ∧ r.cc ≠ e.lastCc + 1 := by
  unfold notifies
  rw [Bool.and_eq_true, beq_iff_eq, ccOutcome_discontinuity]
  simp

/-- The PCR step, field by field. -/
theorem pcrStep_eq (pcr : Pcr) (ws : U64) (e : Metric) :
    pcrStep pcr ws e =
      { e with
        pcrPresent := true, lastPcrValid := true, lastPcr := pcr, refValid := true
        refPcr := if e.refValid then e.refPcr else pcr
        refWall := if e.refValid then e.refWall else ws
        winMaxDelta :=
          if e.refValid && e.lastPcrValid then umax e.winMaxDelta (pcrDelta pcr e.lastPcr) else e.winMaxDelta
        winMaxDrift :=
          if e.refValid then umax e.winMaxDrift (BitVec.ofNat 64 (pcrDrift pcr e.refPcr ws e.refWall).natAbs)
          else e.winMaxDrift } := by
  unfold pcrStep
  cases h : e.refValid
  · rfl
  · cases h' : e.lastPcrValid <;> simp [trackDelta, trackDrift, recordPcrSeen, h, h']

/-- The continuity outcome's effect, field by field. -/
theorem applyCc_eq (o : CcOutcome) (r : RecView) (ws : U64) (e : Metric) :
    applyCc o r ws e =
      { e with
        ccerr := if o = .duplicate ∨ o = .discontinuity then e.ccerr + 1 else e.ccerr
        winCcerr := if o = .duplicate ∨ o = .discontinuity then e.winCcerr + 1 else e.winCcerr
        refValid := if o = .discontinuity then hasPcr r else e.refValid
        refPcr := if o = .discontinuity then (if hasPcr r then r.pcr else 0) else e.refPcr
        refWall := if o = .discontinuity then (if hasPcr r then ws else 0) else e.refWall } := by
  cases o <;> simp [applyCc, ccError, rebase]
  cases hasPcr r <;> simp [setReference, clearReference]

/-- An AddPacket step leaves the period fields alone, and observes its PID. -/
theorem packetMetric_frame (p : Pid) (r : RecView) (ws : U64) (e : Metric) :
    (packetMetric p r ws e).perPkt = e.perPkt ∧ (packetMetric p r ws e).perTei = e.perTei ∧
    (packetMetric p r ws e).perCcerr = e.perCcerr ∧ (packetMetric p r ws e).perDeltaMs = e.perDeltaMs ∧
    (packetMetric p r ws e).perDriftMs = e.perDriftMs ∧ (packetMetric p r ws e).observed = true := by
  unfold packetMetric
  cases r.tei
  · cases eligible r <;> simp [recordCc, pcrStep_eq, applyCc_eq, countPacket]
  · simp [countTei, countPacket]

/-! ### The commands -/

/-- A one-packet command: held with its word in CUR, or taken and complete. -/
theorem packetCommand_cases (w : Word) (p : Pid) (r : RecView) (s : State) :
    (packetHeld p r s = true ∧ packetCommand w p r s = keepBusy w s) ∨
    (packetHeld p r s = false ∧ packetCommand w p r s = complete (addPacket p r s)) := by
  unfold packetCommand
  cases packetHeld p r s <;> simp

/-- A step that is not held pushes only where there is room. -/
theorem room_of_not_held (h : packetHeld p r s = false) (hp : pushes p r s = true) :
    s.evtEn = true ∧ s.fifo.length < s.cfg.evtDepth := by
  unfold packetHeld at h
  unfold pushes at hp h
  simp_all

/-- Everything ADD_PACKET can do. -/
theorem execAddPacket_cases (slot : BitVec 12) (pid : Pid) (s : State) :
    (slotInRange s.cfg slot = false ∧ execAddPacket slot pid s = .next (complete (illegalCommand s))) ∨
    (slotInRange s.cfg slot = true ∧
      ((∃ f, readRecord s.recs slot.toNat = .error f ∧ execAddPacket slot pid s = .fault f) ∨
       ∃ r, readRecord s.recs slot.toNat = .ok r ∧
         ((r.pid = pid ∧
            execAddPacket slot pid s = .next (packetCommand (encode (.addPacket slot pid)) pid r s)) ∨
          (r.pid ≠ pid ∧ execAddPacket slot pid s = .next (complete (usageError s)))))) := by
  unfold execAddPacket
  cases hs : slotInRange s.cfg slot
  · exact .inl ⟨rfl, rfl⟩
  · refine .inr ⟨rfl, ?_⟩
    cases hr : readRecord s.recs slot.toNat with
    | error f => exact .inl ⟨f, rfl, rfl⟩
    | ok r =>
      refine .inr ⟨r, rfl, ?_⟩
      by_cases hp : r.pid = pid
      · exact .inl ⟨hp, by simp [orFault, hp]⟩
      · exact .inr ⟨hp, by simp [orFault, hp]⟩

/-- Everything DISPATCH can do. -/
theorem execDispatch_cases (slot : BitVec 12) (s : State) :
    (slotInRange s.cfg slot = false ∧ execDispatch slot s = .next (complete (illegalCommand s))) ∨
    (slotInRange s.cfg slot = true ∧
      ((∃ f, readRecord s.recs slot.toNat = .error f ∧ execDispatch slot s = .fault f) ∨
       ∃ r, readRecord s.recs slot.toNat = .ok r ∧
         execDispatch slot s = .next (packetCommand (encode (.dispatch slot)) r.pid r s))) := by
  unfold execDispatch
  cases hs : slotInRange s.cfg slot
  · exact .inl ⟨rfl, rfl⟩
  · refine .inr ⟨rfl, ?_⟩
    cases hr : readRecord s.recs slot.toNat with
    | error f => exact .inl ⟨f, rfl, rfl⟩
    | ok r => exact .inr ⟨r, rfl, rfl⟩

/-- Everything DISPATCH_ALL can do. -/
theorem execDispatchAll_cases (s : State) :
    (s.cur ≠ some (encode .dispatchAll) ∧ execDispatchAll s = .next (dispatchAllAccept s)) ∨
    (s.cur = some (encode .dispatchAll) ∧
      ((∃ f, readRecord s.recs s.daNext.toNat = .error f ∧ execDispatchAll s = .fault f) ∨
       ∃ r, readRecord s.recs s.daNext.toNat = .ok r ∧
         ((packetHeld r.pid r s = true ∧ execDispatchAll s = .next s) ∨
          (packetHeld r.pid r s = false ∧
            execDispatchAll s = .next (dispatchAllAdvance (addPacket r.pid r s)))))) := by
  unfold execDispatchAll
  by_cases hc : s.cur = some (encode .dispatchAll)
  · refine .inr ⟨hc, ?_⟩
    rw [if_pos hc, dispatchAllRecord]
    cases hr : readRecord s.recs s.daNext.toNat with
    | error f => exact .inl ⟨f, rfl, rfl⟩
    | ok r =>
      refine .inr ⟨r, rfl, ?_⟩
      cases hh : packetHeld r.pid r s <;> simp [orFault, hh]
  · exact .inl ⟨hc, by rw [if_neg hc]⟩

end Sys2Proof.Machine
end

