-- ==== Sys2Proof/Laws/Windowing.lean ====
section
/-! SUPPORT. What a windowing request and a swap do to the pending set and to the metric table. -/

namespace Sys2Proof.Machine

/-- A request adds the observed PIDs to the pending set. -/
theorem mem_windowRequest_pending {s : State} (h : Memory.wf s.metrics) {x : Nat} :
    x ∈ (windowRequest s).pending ↔ (x ∈ s.pending ∨ (getMetric s.metrics x).observed = true) := by
  simp only [windowRequest, mem_unionPids, mem_observedPids h]; tauto

@[simp] theorem swapStep_metric_same (p : Pid) (s : State) : (swapStep p s).metric p = swapMetric (s.metric p) := by
  simp [swapStep, State.metric, setMetric, removePending, getMetric_putMetric]

theorem swapStep_metric_other {p q : Pid} (h : q ≠ p) (s : State) : (swapStep p s).metric q = s.metric q := by
  have : q.toNat ≠ p.toNat := fun hh => h (BitVec.eq_of_toNat_eq hh)
  simp [swapStep, State.metric, setMetric, removePending, getMetric_putMetric, this]

theorem mem_swapStep_pending {p : Pid} {s : State} {x : Nat} :
    x ∈ (swapStep p s).pending ↔ (x ∈ s.pending ∧ x ≠ p.toNat) := by
  simp [swapStep]

/-- A swap leaves an entry observed exactly if it was. -/
@[simp] theorem swapMetric_observed (e : Metric) : (swapMetric e).observed = e.observed := rfl

end Sys2Proof.Machine
end

