-- ==== Sys2Proof/Laws/Step.lean ====
section
/-! SUPPORT. Everything one step can do: who moves, and which operation the move is. -/

namespace Sys2Proof.Machine

/-- Taking a turn changes the model's own fields only. -/
theorem takeTurn_frame (s : State) :
    ∃ w ts n, (takeTurn s).2 = { s with wall := w, turns := ts, freeTurns := n } := by
  unfold takeTurn
  split
  · exact ⟨_, _, s.freeTurns, rfl⟩
  · exact ⟨_, s.turns, _, rfl⟩

/-- A turn the state lists. -/
theorem takeTurn_listed {s : State} {t : Turn} {ts : List Turn} (h : s.turns = t :: ts) :
    takeTurn s = (t.agent, { s with turns := ts, wall := t.wall }) := by rw [takeTurn, h]

/-- A step whose turn the state lists. -/
theorem step_listed {s : State} {t : Turn} {ts : List Turn} (h : s.turns = t :: ts) :
    step s = agentStep runWord t.agent { s with turns := ts, wall := t.wall } := by
  rw [step, takeTurn_listed h]

/-- A listed HOST turn whose access is not held. -/
theorem step_host {s : State} {w : U64} {ts : List Turn} {a : HostAccess} {q : List HostAccess}
    (h : s.turns = { agent := .host, wall := w } :: ts) (hq : s.hostQueue = a :: q)
    (hb : (busy s && heldWhileBusy a) = false) :
    step s = hostAccess runWord a { s with turns := ts, wall := w, hostQueue := q } := by
  rw [step_listed h]
  show hostTurn runWord _ = _
  unfold hostTurn
  simp only [hq]
  rw [if_neg]
  exact fun hh => by rw [show (busy s && heldWhileBusy a) = true from hh] at hb; cases hb

/-- A listed HOST turn whose access BUSY holds: only the turn is spent. -/
theorem step_host_held {s : State} {w : U64} {ts : List Turn} {a : HostAccess} {q : List HostAccess}
    (h : s.turns = { agent := .host, wall := w } :: ts) (hq : s.hostQueue = a :: q)
    (hb : busy s = true) (ha : heldWhileBusy a = true) :
    step s = .next { s with turns := ts, wall := w } := by
  rw [step_listed h]
  show hostTurn runWord _ = _
  unfold hostTurn
  simp only [hq]
  rw [if_pos]
  show (busy s && heldWhileBusy a) = true
  rw [hb, ha]; rfl

/-- The word a step runs, and the state it runs it in: a CMD write while BUSY = 0, or the command in progress. -/
def Issues (s : State) (w : Word) (s' : State) : Prop :=
  ((takeTurn s).1 = .host ∧ s.cur = none ∧
    ∃ q, s.hostQueue = .regWrite 4#4 w :: q ∧ s' = { (takeTurn s).2 with hostQueue := q }) ∨
  ((takeTurn s).1 = .engine ∧ s.cur = some w ∧ s' = (takeTurn s).2)

/-- What a step is: nothing, a command word, a host access other than a CMD write, a swap, a windowing request, or
a reset. -/
theorem step_cases (s : State) :
    (step s = .next (takeTurn s).2) ∨
    (∃ w s', Issues s w s' ∧ step s = runWord w s') ∨
    (∃ a q, (takeTurn s).1 = .host ∧ s.hostQueue = a :: q ∧ (busy s && heldWhileBusy a) = false ∧
      (∀ v, a ≠ .regWrite 4#4 v) ∧ step s = hostAccess runWord a { (takeTurn s).2 with hostQueue := q }) ∨
    (∃ p, (takeTurn s).1 = .sweeper p ∧ p.toNat ∈ s.pending ∧ step s = .next (swapStep p (takeTurn s).2)) ∨
    ((takeTurn s).1 = .tickSrc ∧ step s = .next (windowRequest (takeTurn s).2)) ∨
    ((takeTurn s).1 = .reset ∧ step s = .next (resetTurn (takeTurn s).2)) := by
  obtain ⟨w, ts, n, hf⟩ := takeTurn_frame s
  have hq : (takeTurn s).2.hostQueue = s.hostQueue := by rw [hf]
  have hc : (takeTurn s).2.cur = s.cur := by rw [hf]
  have hp : (takeTurn s).2.pending = s.pending := by rw [hf]
  have hb : busy (takeTurn s).2 = busy s := by rw [busy, hc, busy]
  unfold step agentStep
  cases ha : (takeTurn s).1 with
  | host =>
    simp only [hostTurn, hq]
    cases hh : s.hostQueue with
    | nil => exact .inl rfl
    | cons a q =>
      simp only [hb]
      cases hheld : busy s && heldWhileBusy a with
      | true => exact .inl (by simp)
      | false =>
        by_cases hw : ∃ v, a = .regWrite 4#4 v
        · obtain ⟨v, rfl⟩ := hw
          have hn : s.cur = none := by
            have h4 : heldWhileBusy (.regWrite 4#4 v) = true := rfl
            rw [h4, Bool.and_true, busy] at hheld
            cases h : s.cur
            · rfl
            · rw [h] at hheld; cases hheld
          refine .inr (.inl ⟨v, _, .inl ⟨ha, hn, q, hh, rfl⟩, ?_⟩)
          simp [hostAccess, regAt]
        · refine .inr (.inr (.inl ⟨a, q, by trivial, by trivial, hheld, fun v hv => hw ⟨v, hv⟩, ?_⟩))
          simp
  | engine =>
    simp only [engineTurn, hc]
    cases h : s.cur with
    | none => exact .inl rfl
    | some w => exact .inr (.inl ⟨w, _, .inr ⟨ha, h, rfl⟩, rfl⟩)
  | sweeper p =>
    simp only [sweeperTurn, hp]
    by_cases h : p.toNat ∈ s.pending
    · exact .inr (.inr (.inr (.inl ⟨p, rfl, h, by rw [if_pos h]⟩)))
    · exact .inl (by rw [if_neg h])
  | tickSrc => exact .inr (.inr (.inr (.inr (.inl ⟨rfl, rfl⟩))))
  | reset => exact .inr (.inr (.inr (.inr (.inr ⟨rfl, rfl⟩))))

/-- Running a word: its command's meaning, or the mark of an illegal word. -/
theorem runWord_cases (w : Word) (s : State) :
    (∃ i, decode s.cfg w = .ok i ∧ runWord w s = exec i s) ∨
    (∃ r, decode s.cfg w = .error r ∧ runWord w s = .next (complete (illegalCommand s))) := by
  unfold runWord
  cases h : decode s.cfg w with
  | ok i => exact .inl ⟨i, rfl, rfl⟩
  | error r => exact .inr ⟨r, rfl, rfl⟩

/-! ### Runs -/

/-- A run whose first step goes on. -/
theorem run_next (k : Nat) {s t : State} (h : step s = .next t) :
    Host.Core.run core (k + 1) s = Host.Core.run core k t := by
  have h' : core.step s = .next t := h
  simp [Host.Core.run, h']

theorem run_zero (s : State) : Host.Core.run core 0 s = .next s := rfl

end Sys2Proof.Machine
end

