-- ==== Sys2Proof/Laws/Frame.lean ====
section
/-! SUPPORT. What running a command, and a host access other than a write of CMD, may change in the fields that
the spec's whole-machine rules speak of. -/

namespace Sys2Proof.Machine

/-- The period fields of two entries are the same (rule R320). -/
def samePeriod (e e' : Metric) : Prop :=
  e'.perPkt = e.perPkt ∧ e'.perTei = e.perTei ∧ e'.perCcerr = e.perCcerr ∧ e'.perDeltaMs = e.perDeltaMs ∧
  e'.perDriftMs = e.perDriftMs

/-- What a command that goes on may change. -/
theorem exec_frame {i : Instr} {s t : State} (h : exec i s = .next t) :
    t.cfg = s.cfg ∧ t.evtEn = s.evtEn ∧ t.buf = s.buf ∧
    (s.usageErr = true → t.usageErr = true) ∧ (s.cmdErr = true → t.cmdErr = true) ∧
    (s.tickOverrun = true → t.tickOverrun = true) ∧
    (t.resultLo ≠ s.resultLo ∨ t.resultHi ≠ s.resultHi →
      (∃ a, i = .locate a) ∨ (∃ f p, i = .readMetric f p)) ∧
    (t.recCount ≠ s.recCount → i = .frame) ∧
    (t.errInfo ≠ s.errInfo → i = .frame ∧ t.frameStatus = .framingError) ∧
    (t.fifo = s.fifo ∨ ∃ p, t.fifo = s.fifo ++ [p] ∧ s.evtEn = true ∧ s.fifo.length < s.cfg.evtDepth) ∧
    (∀ p, t.metric p = s.metric p ∨ i = .clearSession ∨
      (samePeriod (s.metric p) (t.metric p) ∧ (t.metric p).observed = true ∧
        ((∃ k, i = .addPacket k p) ∨
         (∃ k r, i = .dispatch k ∧ readRecord s.recs k.toNat = .ok r ∧ r.pid = p) ∨
         (∃ r, i = .dispatchAll ∧ readRecord s.recs s.daNext.toNat = .ok r ∧ r.pid = p)))) := by
  have pk : ∀ (p : Pid) (r : RecView) (t : State), packetHeld p r s = false →
      t.fifo = (addPacket p r s).fifo →
      (t.fifo = s.fifo ∨ ∃ p, t.fifo = s.fifo ++ [p] ∧ s.evtEn = true ∧ s.fifo.length < s.cfg.evtDepth) := by
    intro p r t hh ht
    rw [ht, addPacket_eq]
    cases hp : pushes p r s
    · exact .inl (by simp)
    · exact .inr ⟨p, by simp, room_of_not_held hh hp⟩
  have pm : ∀ (p q : Pid) (r : RecView), (addPacket p r s).metric q = s.metric q ∨
      (q = p ∧ samePeriod (s.metric q) ((addPacket p r s).metric q) ∧
        ((addPacket p r s).metric q).observed = true) := by
    intro p q r
    by_cases hq : q = p
    · subst hq
      refine .inr ⟨rfl, ?_⟩
      obtain ⟨h1, h2, h3, h4, h5, h6⟩ := packetMetric_frame q r (scaleWall s.cfg s.wall) (s.metric q)
      simp only [addPacket_metric_same]
      exact ⟨⟨h1, h2, h3, h4, h5⟩, h6⟩
    · exact .inl (addPacket_metric_other hq r s)
  cases i with
  | nop => cases h; simp
  | locate a =>
    obtain ⟨r, -, h⟩ := orFault_next.1 h
    cases h
    simp [setResult, State.metric]
  | frame =>
    simp only [exec] at h
    rcases execFrame_cases s with ⟨-, h'⟩ | ⟨_, _, -, -, h'⟩ | ⟨_, _, _, _, -, -, -, -, -, h'⟩ | ⟨a, -, h1, h'⟩
      <;> rw [h'] at h <;> cases h
    · simp [frameNoSync, State.metric]
    · simp [frameCommit, State.metric]
    · simp [frameFailed, State.metric]
  | addPacket k p =>
    simp only [exec] at h
    rcases execAddPacket_cases k p s with ⟨-, h'⟩ | ⟨-, ⟨f, hr, h'⟩ | ⟨r, hr, ⟨hp, h'⟩ | ⟨-, h'⟩⟩⟩
      <;> rw [h'] at h <;> cases h
    · simp [State.metric]
    · rcases packetCommand_cases (encode (.addPacket k p)) p r s with ⟨hh, h⟩ | ⟨hh, h⟩ <;> rw [h]
      · simp [State.metric]
      · have := pk p r (complete (addPacket p r s)) hh rfl
        refine ⟨?_, ?_, ?_, ?_, ?_, ?_, ?_, ?_, ?_, this, fun q => ?_⟩
        iterate 9 (· rw [addPacket_eq]; simp)
        rcases pm p q r with h | ⟨rfl, h, h'⟩
        · exact .inl h
        · exact .inr (.inr ⟨h, h', .inl ⟨k, rfl⟩⟩)
    · simp [State.metric]
  | dispatch k =>
    simp only [exec] at h
    rcases execDispatch_cases k s with ⟨-, h'⟩ | ⟨-, ⟨f, hr, h'⟩ | ⟨r, hr, h'⟩⟩
      <;> rw [h'] at h <;> cases h
    · simp [State.metric]
    · rcases packetCommand_cases (encode (.dispatch k)) r.pid r s with ⟨hh, h⟩ | ⟨hh, h⟩ <;> rw [h]
      · simp [State.metric]
      · have := pk r.pid r (complete (addPacket r.pid r s)) hh rfl
        refine ⟨?_, ?_, ?_, ?_, ?_, ?_, ?_, ?_, ?_, this, fun q => ?_⟩
        iterate 9 (· rw [addPacket_eq]; simp)
        rcases pm r.pid q r with h | ⟨rfl, h, h'⟩
        · exact .inl h
        · exact .inr (.inr ⟨h, h', .inr (.inl ⟨k, r, rfl, hr, rfl⟩)⟩)
  | dispatchAll =>
    simp only [exec] at h
    rcases execDispatchAll_cases s with ⟨-, h'⟩ | ⟨-, ⟨f, hr, h'⟩ | ⟨r, hr, ⟨-, h'⟩ | ⟨hh, h'⟩⟩⟩
      <;> rw [h'] at h <;> cases h
    · simp [dispatchAllAccept, State.metric]
    · simp
    · have := pk r.pid r (dispatchAllAdvance (addPacket r.pid r s)) hh rfl
      refine ⟨?_, ?_, ?_, ?_, ?_, ?_, ?_, ?_, ?_, this, fun q => ?_⟩
      iterate 9 (· rw [addPacket_eq]; simp [dispatchAllAdvance])
      rcases pm r.pid q r with h | ⟨rfl, h, h'⟩
      · exact .inl h
      · exact .inr (.inr ⟨h, h', .inr (.inr ⟨r, rfl, hr, rfl⟩)⟩)
  | windowTick => cases h; simp [windowRequest, State.metric]; tauto
  | readMetric f p => cases h; simp [setResult, State.metric]
  | clearSession => cases h; simp

/-- What a host access that is no CMD write may change. -/
theorem hostAccess_frame {run : Word → State → Out} {a : HostAccess} {s t : State}
    (hw : ∀ v, a ≠ .regWrite 4#4 v) (h : hostAccess run a s = .next t) :
    t.metrics = s.metrics ∧ t.cfg = s.cfg ∧
    ((∃ v, a = .regWrite 2#4 v ∧ t = writeStatus v s) ∨
      (t.usageErr = s.usageErr ∧ t.cmdErr = s.cmdErr ∧ t.tickOverrun = s.tickOverrun)) ∧
    t.resultLo = s.resultLo ∧ t.resultHi = s.resultHi ∧ t.recCount = s.recCount ∧ t.errInfo = s.errInfo ∧
    (t.fifo = s.fifo ∨ (a = .regRead 10#4 ∧ t.fifo = s.fifo.drop 1)) := by
  cases a with
  | regRead x =>
    cases h
    have : x = 10#4 ∨ ∀ s, popIfEvtPop (regAt x) s = s := by
      have h1 : ∀ x, x = 10#4 ∨ regAt x ≠ .evtPop := by decide
      rcases h1 x with h | h
      · exact .inl h
      · refine .inr fun s => ?_
        cases hx : regAt x <;> first | rfl | exact absurd hx h
    rcases this with rfl | h
    · exact ⟨rfl, rfl, .inr ⟨rfl, rfl, rfl⟩, rfl, rfl, rfl, rfl, .inr ⟨rfl, rfl⟩⟩
    · rw [readReg, h]; exact ⟨rfl, rfl, .inr ⟨rfl, rfl, rfl⟩, rfl, rfl, rfl, rfl, .inl rfl⟩
  | regWrite x v =>
    simp only [hostAccess] at h
    rw [if_neg] at h
    · cases h
      have h1 : ∀ x, x = 2#4 ∨ regAt x ≠ .status := by decide
      rcases h1 x with rfl | h
      · exact ⟨rfl, rfl, .inl ⟨v, rfl, rfl⟩, rfl, rfl, rfl, rfl, .inl rfl⟩
      · cases hx : regAt x <;> first
        | exact ⟨rfl, rfl, .inr ⟨rfl, rfl, rfl⟩, rfl, rfl, rfl, rfl, .inl rfl⟩
        | exact absurd hx h
    · intro hx
      have h1 : ∀ x : BitVec 4, regAt x = .cmd → x = 4#4 := by decide
      exact hw v (by rw [h1 x hx])
  | bufRead i =>
    simp only [hostAccess, readBuf] at h
    split at h
    · obtain ⟨b, -, h⟩ := orFault_next.1 h
      cases h; exact ⟨rfl, rfl, .inr ⟨rfl, rfl, rfl⟩, rfl, rfl, rfl, rfl, .inl rfl⟩
    · cases h; exact ⟨rfl, rfl, .inr ⟨rfl, rfl, rfl⟩, rfl, rfl, rfl, rfl, .inl rfl⟩
  | bufWrite i b =>
    cases h; unfold writeBuf
    split <;> exact ⟨rfl, rfl, .inr ⟨rfl, rfl, rfl⟩, rfl, rfl, rfl, rfl, .inl rfl⟩
  | recRead k x =>
    simp only [hostAccess, readRec] at h
    split at h
    · obtain ⟨b, -, h⟩ := orFault_next.1 h
      cases h; exact ⟨rfl, rfl, .inr ⟨rfl, rfl, rfl⟩, rfl, rfl, rfl, rfl, .inl rfl⟩
    · cases h; exact ⟨rfl, rfl, .inr ⟨rfl, rfl, rfl⟩, rfl, rfl, rfl, rfl, .inl rfl⟩
  | recWrite k x v =>
    cases h; unfold writeRec
    split <;> exact ⟨rfl, rfl, .inr ⟨rfl, rfl, rfl⟩, rfl, rfl, rfl, rfl, .inl rfl⟩


end Sys2Proof.Machine
end

