-- ==== Sys2Proof/Laws/Inv.lean ====
section
/-! SUPPORT. The shared operations keep the invariant (`State.Inv`): one lemma for each of them. -/

namespace Sys2Proof.Machine

/-! ### Metric entries -/

theorem umax_toNat (a b : U64) : (umax a b).toNat = max a.toNat b.toNat := by
  unfold umax
  split <;> rename_i h <;> rw [BitVec.le_def] at h <;> omega

/-- A drift's magnitude is at most floor(2^63 / 27000) (rule R293). -/
theorem pcrDrift_le (a b : Pcr) (c d : U64) :
    (BitVec.ofNat 64 (pcrDrift a b c d).natAbs).toNat ≤ 341606371735362 := by
  unfold pcrDrift
  generalize (c - d) - (a.setWidth 64 - b.setWidth 64) = x
  rw [Int.natAbs_tdiv]
  have h1 := BitVec.toInt_lt (x := x)
  have h2 := BitVec.le_toInt (x := x)
  have h3 : x.toInt.natAbs ≤ 2 ^ 63 := by omega
  have h4 : x.toInt.natAbs.div (pcrTicksPerMs : Int).natAbs ≤ 2 ^ 63 / 27000 := Nat.div_le_div_right h3
  rw [BitVec.toNat_ofNat]
  exact le_trans (Nat.mod_le _ _) (le_trans h4 (by norm_num))

/-- `Metric.Inv` but for `observed`: what an entry that is all zero meets as well. -/
structure Metric.Sound (e : Metric) : Prop where
  ccUnset       : e.ccValid = false → e.lastCc = 0
  refUnset      : e.refValid = false → e.refPcr = 0 ∧ e.refWall = 0
  pcrSeen       : e.pcrPresent = e.lastPcrValid
  lastPcrUnset  : e.lastPcrValid = false → e.lastPcr = 0
  winDriftBound : e.winMaxDrift.toNat ≤ 341606371735362
  perDriftBound : e.perDriftMs.toNat ≤ 341606371735362
  perDeltaBound : e.perDeltaMs.toNat ≤ 683212743470724

theorem Metric.inv_iff (e : Metric) : e.Inv ↔ e.observed = true ∧ e.Sound :=
  ⟨fun ⟨a, b, c, d, f, g, h, i⟩ => ⟨a, ⟨b, c, d, f, g, h, i⟩⟩,
   fun ⟨a, ⟨b, c, d, f, g, h, i⟩⟩ => ⟨a, b, c, d, f, g, h, i⟩⟩

theorem Metric.zero_sound : Metric.zero.Sound :=
  ⟨fun _ => rfl, fun _ => ⟨rfl, rfl⟩, rfl, fun _ => rfl, by decide, by decide, by decide⟩

theorem packetMetric_sound {p : Pid} {r : RecView} {ws : U64} {e : Metric} (h : e.Sound) :
    (packetMetric p r ws e).Sound := by
  obtain ⟨h1, h2, h3, h4, h5, h6, h7⟩ := h
  unfold packetMetric
  cases ht : r.tei
  · simp only [Bool.false_eq_true, if_false]
    have he1 : (applyCc (ccOutcome p r e) r ws (countPacket e)).Sound := by
      rw [applyCc_eq]
      refine ⟨h1, ?_, h3, h4, h5, h6, h7⟩
      simp only [countPacket]
      by_cases ho : ccOutcome p r e = .discontinuity
      · simp only [ho, if_true]; intro hh; simp [hh]
      · simp only [ho, if_false]; exact h2
    generalize applyCc (ccOutcome p r e) r ws (countPacket e) = e1 at he1 ⊢
    obtain ⟨g1, g2, g3, g4, g5, g6, g7⟩ := he1
    cases eligible r
    · exact ⟨fun hh => by simp [recordCc] at hh, g2, g3, g4, g5, g6, g7⟩
    · simp only [if_true]
      rw [pcrStep_eq]
      refine ⟨fun hh => by simp [recordCc] at hh, fun hh => by simp [recordCc] at hh, rfl,
        fun hh => by simp [recordCc] at hh, ?_, g6, g7⟩
      simp only [recordCc]
      split
      · rw [umax_toNat]; exact max_le g5 (pcrDrift_le _ _ _ _)
      · exact g5
  · simp only [if_true]; exact ⟨h1, h2, h3, h4, h5, h6, h7⟩

theorem swapMetric_sound {e : Metric} (h : e.Sound) : (swapMetric e).Sound := by
  obtain ⟨h1, h2, h3, h4, h5, h6, h7⟩ := h
  refine ⟨h1, h2, h3, h4, by simp [swapMetric], h5, ?_⟩
  have := e.winMaxDelta.isLt
  simp only [swapMetric, BitVec.toNat_ofNat, pcrTicksPerMs]; omega

/-! ### Operations on the state -/

variable {s t : State} {p : Pid} {r : RecView}

/-- A state that agrees on every field the invariant speaks of. -/
theorem State.Inv.congr (h : s.Inv) (e1 : t.cfg = s.cfg) (e2 : t.buf = s.buf) (e3 : t.recs = s.recs)
    (e4 : t.metrics = s.metrics) (e5 : t.fifo = s.fifo) (e6 : t.pending = s.pending) (e7 : t.cur = s.cur)
    (e8 : t.daNext = s.daNext) (e9 : t.daEnd = s.daEnd) (e10 : t.bufLen = s.bufLen)
    (e11 : t.recCount = s.recCount) (e12 : t.frameStatus = s.frameStatus) (e13 : t.errInfo = s.errInfo) :
    t.Inv := by
  obtain ⟨a1, a2, a3, a4, a5, a6, a7, a8, a9, a10, a11, a12, a13, a14, a15, a16, a17, a18, a19, a20⟩ := h
  constructor <;> first
    | (simp only [e1, e2, e3, e4, e5, e6, e8, e9, e10, e11, e12, e13]; assumption)
    | skip
  intro w hw
  rw [e7] at hw; rw [e1]
  obtain ⟨i, hd, hp⟩ := a20 w hw
  refine ⟨i, hd, ?_⟩
  cases i <;> simp only [State.canProgress, e3, e8, e9, e11] at hp ⊢ <;> exact hp

theorem takeTurn_inv (h : s.Inv) : (takeTurn s).2.Inv := by
  obtain ⟨w, ts, n, hf⟩ := takeTurn_frame s
  rw [hf]
  exact h.congr rfl rfl rfl rfl rfl rfl rfl rfl rfl rfl rfl rfl rfl

theorem metric_sound (h : s.Inv) (p : Nat) : (getMetric s.metrics p).Sound := by
  unfold getMetric
  cases hr : Memory.read s.metrics p with
  | none => exact Metric.zero_sound
  | some e => exact (e.inv_iff.1 (h.entries _ (Memory.mem_of_read hr))).2

/-- Storing an observed, sound entry. -/
theorem setMetric_inv (h : s.Inv) (p : Pid) (e : Metric) (he : e.Inv) : (setMetric p e s).Inv := by
  obtain ⟨a1, a2, a3, a4, a5, a6, a7, a8, a9, a10, a11, a12, a13, a14, a15, a16, a17, a18, a19, a20⟩ := h
  constructor <;> try assumption
  · exact putMetric_metricsWf _ _ _ a6
  · intro x hx
    rcases mem_putMetric hx with rfl | hx
    · exact p.isLt
    · exact a7 x hx
  · intro x hx
    rcases mem_putMetric hx with rfl | hx
    · exact he
    · exact a8 x hx
  · intro q hq
    simp only [setMetric_metrics, getMetric_putMetric]
    split
    · exact he.observed
    · exact a11 q hq

theorem addPacket_inv (h : s.Inv) (hh : packetHeld p r s = false) : (addPacket p r s).Inv := by
  have he : (packetMetric p r (scaleWall s.cfg s.wall) (s.metric p)).Inv :=
    (Metric.inv_iff _).2 ⟨(packetMetric_frame _ _ _ _).2.2.2.2.2, packetMetric_sound (metric_sound h _)⟩
  have h1 := setMetric_inv h p _ he
  unfold addPacket
  simp only
  by_cases hp : pushes p r s = true
  · rw [if_pos hp]
    have hroom := (room_of_not_held hh hp).2
    obtain ⟨a1, a2, a3, a4, a5, a6, a7, a8, a9, a10, a11, a12, a13, a14, a15, a16, a17, a18, a19, a20⟩ := h1
    constructor <;> try assumption
    simp only [pushEvent_fifo, setMetric_fifo, pushEvent_cfg, setMetric_cfg, List.length_append,
      List.length_singleton]
    omega
  · rw [if_neg hp]; exact h1

theorem complete_inv (h : s.Inv) : (complete s).Inv := by
  obtain ⟨a1, a2, a3, a4, a5, a6, a7, a8, a9, a10, a11, a12, a13, a14, a15, a16, a17, a18, a19, a20⟩ := h
  constructor <;> first | assumption | (intro w hw; cases hw)

/-- A command that can be in progress stays so. -/
theorem keepBusy_inv (h : s.Inv) {w : Word} {i : Instr} (hd : decode s.cfg w = .ok i) (hp : s.canProgress i) :
    (keepBusy w s).Inv := by
  obtain ⟨a1, a2, a3, a4, a5, a6, a7, a8, a9, a10, a11, a12, a13, a14, a15, a16, a17, a18, a19, a20⟩ := h
  constructor <;> try assumption
  intro w' hw
  cases hw
  refine ⟨i, hd, ?_⟩
  cases i <;> exact hp

theorem packetCommand_inv (h : s.Inv) {w : Word} (hk : (keepBusy w s).Inv) : (packetCommand w p r s).Inv := by
  rcases packetCommand_cases w p r s with ⟨-, e⟩ | ⟨hh, e⟩ <;> rw [e]
  · exact hk
  · exact complete_inv (addPacket_inv h hh)

theorem swapStep_inv (h : s.Inv) (hp : p.toNat ∈ s.pending) : (swapStep p s).Inv := by
  have he : (swapMetric (s.metric p)).Inv :=
    (Metric.inv_iff _).2
      ⟨by rw [swapMetric_observed]; exact h.pendingObserved _ hp, swapMetric_sound (metric_sound h _)⟩
  have h1 := setMetric_inv h p _ he
  obtain ⟨a1, a2, a3, a4, a5, a6, a7, a8, a9, a10, a11, a12, a13, a14, a15, a16, a17, a18, a19, a20⟩ := h1
  constructor <;> try assumption
  · exact List.Pairwise.filter _ a9
  · intro q hq; exact a10 q (List.mem_filter.1 hq).1
  · intro q hq; exact a11 q (List.mem_filter.1 hq).1

theorem windowRequest_inv (h : s.Inv) : (windowRequest s).Inv := by
  have hm := fun x => mem_windowRequest_pending (x := x) h.metricsWf.1
  obtain ⟨a1, a2, a3, a4, a5, a6, a7, a8, a9, a10, a11, a12, a13, a14, a15, a16, a17, a18, a19, a20⟩ := h
  constructor <;> try assumption
  · exact unionPids_wf a9
  · intro q hq
    rcases (hm q).1 hq with hq | hq
    · exact a10 q hq
    · unfold getMetric at hq
      cases hr : Memory.read s.metrics q with
      | none => rw [hr] at hq; cases hq
      | some e => exact a7 _ (Memory.mem_of_read hr)
  · intro q hq
    rcases (hm q).1 hq with hq | hq
    · exact a11 q hq
    · exact hq

/-- A host access that is not held and is no CMD write. -/
theorem hostAccess_inv {run : Word → State → Out} {a : HostAccess} (h : s.Inv)
    (hb : (busy s && heldWhileBusy a) = false) (hw : ∀ v, a ≠ .regWrite 4#4 v)
    (ht : hostAccess run a s = .next t) : t.Inv := by
  have hnb : heldWhileBusy a = true → s.cur = none := by
    intro hh; rw [hh, Bool.and_true, busy] at hb
    cases hc : s.cur
    · rfl
    · rw [hc] at hb; cases hb
  cases a with
  | regRead x =>
    cases ht
    unfold readReg
    have : (popIfEvtPop (regAt x) s).Inv := by
      unfold popIfEvtPop
      split
      · obtain ⟨a1, a2, a3, a4, a5, a6, a7, a8, a9, a10, a11, a12, a13, a14, a15, a16, a17, a18, a19, a20⟩ := h
        constructor <;> try assumption
        simp only [List.length_drop]; omega
      · exact h
    exact this.congr rfl rfl rfl rfl rfl rfl rfl rfl rfl rfl rfl rfl rfl
  | regWrite x v =>
    simp only [hostAccess] at ht
    split at ht
    · next hx =>
      have h1 : ∀ x : BitVec 4, regAt x = .cmd → x = 4#4 := by decide
      exact absurd (by rw [h1 x hx]) (hw v)
    · cases ht
      unfold writeReg
      split
      · exact h.congr rfl rfl rfl rfl rfl rfl rfl rfl rfl rfl rfl rfl rfl
      · exact h.congr rfl rfl rfl rfl rfl rfl rfl rfl rfl rfl rfl rfl rfl
      · obtain ⟨a1, a2, a3, a4, a5, a6, a7, a8, a9, a10, a11, a12, a13, a14, a15, a16, a17, a18, a19, a20⟩ := h
        constructor <;> try assumption
        simp only [writeBufLen, BitVec.toNat_ofNat]
        exact le_trans (Nat.mod_le _ _) (min_le_right _ _)
      · exact h
  | bufRead i =>
    simp only [hostAccess, readBuf] at ht
    split at ht
    · obtain ⟨b, -, ht⟩ := orFault_next.1 ht
      cases ht; exact h.congr rfl rfl rfl rfl rfl rfl rfl rfl rfl rfl rfl rfl rfl
    · cases ht; exact h.congr rfl rfl rfl rfl rfl rfl rfl rfl rfl rfl rfl rfl rfl
  | bufWrite i b =>
    cases ht; unfold writeBuf
    split
    · next hi =>
      obtain ⟨a1, a2, a3, a4, a5, a6, a7, a8, a9, a10, a11, a12, a13, a14, a15, a16, a17, a18, a19, a20⟩ := h
      constructor <;> try assumption
      · exact Memory.write_wf a2
      · exact Memory.write_bound a3 hi
    · exact h
  | recRead k x =>
    simp only [hostAccess, readRec] at ht
    split at ht
    · obtain ⟨b, -, ht⟩ := orFault_next.1 ht
      cases ht; exact h.congr rfl rfl rfl rfl rfl rfl rfl rfl rfl rfl rfl rfl rfl
    · cases ht; exact h.congr rfl rfl rfl rfl rfl rfl rfl rfl rfl rfl rfl rfl rfl
  | recWrite k x v =>
    cases ht; unfold writeRec
    split
    · next hi =>
      have hc := hnb rfl
      obtain ⟨a1, a2, a3, a4, a5, a6, a7, a8, a9, a10, a11, a12, a13, a14, a15, a16, a17, a18, a19, a20⟩ := h
      constructor <;> try assumption
      · exact Memory.write_wf a4
      · refine Memory.write_bound a5 ?_
        have := x.isLt; simp only [recKey]; omega
      · intro k' hk' w hw'; exact Memory.read_isSome_write (a16 k' hk' w hw')
      · intro w hw; rw [show s.cur = some w from hw] at hc; cases hc
    · exact h

end Sys2Proof.Machine
end

