-- ==== Sys2Proof/Laws/PerInstr.lean ====
section
/-! SUPPORT. The statements made for each command. Family `EncodeRow`: the word of a command fits its own row of
rule R151, whatever its operands. -/

namespace Sys2Proof.Laws.EncodeRow

/-- The row of rule R151 a command belongs to. -/
def rowName : Instr → Mnemonic
  | .nop => .nop
  | .locate _ => .locate
  | .frame => .frame
  | .addPacket _ _ => .addPacket
  | .dispatch _ => .dispatch
  | .dispatchAll => .dispatchAll
  | .windowTick => .windowTick
  | .readMetric _ _ => .readMetric
  | .clearSession => .clearSession

/-- The word of `i` fits `i`'s row. -/
def Statement (i : Instr) : Prop := fitsNumber (rowName i) (encode i).toNat

theorem nop : Statement .nop := rfl

theorem locate (start : BitVec 24) : Statement (.locate start) := by
  have := start.isLt
  simp only [Statement, rowName, fitsNumber, encode, append_toNat, BitVec.toNat_ofNat]; omega

theorem frame : Statement .frame := rfl

theorem addPacket (slot : BitVec 12) (pid : Pid) : Statement (.addPacket slot pid) := by
  have := slot.isLt; have := pid.isLt
  simp only [Statement, rowName, fitsNumber, encode, append_toNat, BitVec.toNat_ofNat]; omega

theorem dispatch (slot : BitVec 12) : Statement (.dispatch slot) := by
  have := slot.isLt
  simp only [Statement, rowName, fitsNumber, encode, append_toNat, BitVec.toNat_ofNat]; omega

theorem dispatchAll : Statement .dispatchAll := rfl

theorem windowTick : Statement .windowTick := rfl

theorem readMetric (field : MetricField) (pid : Pid) : Statement (.readMetric field pid) := by
  have := metricFieldCode_le field; have := pid.isLt
  simp only [Statement, rowName, fitsNumber, encode, append_toNat, BitVec.toNat_ofNat]; omega

theorem clearSession : Statement .clearSession := rfl

end Sys2Proof.Laws.EncodeRow
end

