-- ==== Sys2Proof/Laws/Unwritten.lean ====
section
/-! SUPPORT. What unwritten bytes do to the locator and the framer: an answer that did not stop on one stays the
same when more bytes are written, and a scan or a unit loop that comes to one stops there. -/

namespace Sys2Proof.Machine

/-! ### Answers that stay -/

/-- `y` answers what `x` answers, unless `x` stops in a way that `stop` names. -/
def Kept {ε α : Type} (stop : ε → Prop) (x y : Except ε α) : Prop := (∀ e, stop e → x ≠ .error e) → y = x

section
variable {ε α β : Type} {stop : ε → Prop} {x y : Except ε α}

theorem kept_refl (x : Except ε α) : Kept stop x x := fun _ => rfl

theorem kept_bind {g g' : α → Except ε β} (h : Kept stop x y) (hg : ∀ a, Kept stop (g a) (g' a)) :
    Kept stop (x >>= g) (y >>= g') := by
  intro hs
  cases hx : x with
  | error e =>
    have hy : y = .error e := by
      rw [h (fun e' he hx' => by rw [hx'] at hs; exact hs e' he rfl), hx]
    rw [hy]; rfl
  | ok a =>
    have hy : y = .ok a := by rw [h (fun e' _ hx' => by rw [hx] at hx'; cases hx'), hx]
    rw [hx] at hs
    rw [hy]; exact hg a hs

theorem kept_ite {c : Prop} [Decidable c] {x' y' : Except ε α} (h : Kept stop x y) (h' : Kept stop x' y') :
    Kept stop (if c then x else x') (if c then y else y') := by
  by_cases hc : c
  · rw [if_pos hc, if_pos hc]; exact h
  · rw [if_neg hc, if_neg hc]; exact h'

end

/-- Every byte written in `b` is the same in `b'`. -/
def Extends (b b' : List Host.Cell) : Prop := ∀ i v, Memory.read b i = some v → Memory.read b' i = some v

/-- Writing a byte where none was written. -/
theorem extends_write {b : List Host.Cell} {a : Nat} (h : Memory.read b a = none) (v : Byte) :
    Extends b (Memory.write a v b) := by
  intro i w hi
  rw [Memory.read_write_other (fun hia => by rw [hia, h] at hi; cases hi)]
  exact hi

/-- Any fault: what a read of the buffer stops with. -/
abbrev anyFault : Fault → Prop := fun _ => True

/-- A fault, not a framing-fatal error. -/
abbrev isFault : FrameStop → Prop := fun e => ∃ f, e = .fault f

section
variable {b b' : List Host.Cell} {n i k o j cur : Nat} (h : Extends b b')
include h

theorem readByte_kept : Kept anyFault (readByte b i) (readByte b' i) := by
  intro hs
  cases hb : readByte b i with
  | error f => exact absurd hb (hs f trivial)
  | ok v => exact readByte_ok.2 (h _ _ (readByte_ok.1 hb))

theorem syncConfirmed_kept (ds : List Nat) : Kept anyFault (syncConfirmed b n i ds) (syncConfirmed b' n i ds) := by
  induction ds with
  | nil => exact kept_refl _
  | cons d ds ih =>
    refine kept_bind ?_ fun _ => kept_bind ih fun _ => kept_refl _
    exact kept_ite (kept_bind (readByte_kept h) fun _ => kept_refl _) (kept_refl _)

theorem locateFrom_kept : Kept anyFault (locateFrom b n k i) (locateFrom b' n k i) := by
  induction k generalizing i with
  | zero => exact kept_refl _
  | succ k ih =>
    refine kept_bind (readByte_kept h) fun _ => kept_ite ?_ ih
    exact kept_bind (syncConfirmed_kept h _) fun _ => kept_ite (kept_refl _) ih

theorem locate_kept {start : Nat} : Kept anyFault (locate b n start) (locate b' n start) :=
  kept_ite (kept_refl _) (locateFrom_kept h)

theorem unitByte_kept : Kept isFault (unitByte b o j) (unitByte b' o j) := by
  intro hs
  cases hb : unitByte b o j with
  | ok v => exact unitByte_ok.2 (h _ _ (unitByte_ok.1 hb))
  | error e =>
    unfold unitByte at hb
    split at hb <;> cases hb
    exact absurd (by unfold unitByte; rw [‹readByte b (o + j) = _›]) (hs _ ⟨_, rfl⟩)

theorem afFlags_kept {l : Byte} : Kept isFault (afFlags b o l) (afFlags b' o l) :=
  kept_ite (unitByte_kept h) (kept_refl _)

theorem afPcr_kept {mode : PcrMode} {l flags : Byte} :
    Kept isFault (afPcr b mode o l flags) (afPcr b' mode o l flags) := by
  refine kept_ite ?_ (kept_refl _)
  exact kept_bind (unitByte_kept h) fun _ => kept_bind (unitByte_kept h) fun _ =>
    kept_bind (unitByte_kept h) fun _ => kept_bind (unitByte_kept h) fun _ =>
    kept_bind (unitByte_kept h) fun _ => kept_bind (unitByte_kept h) fun _ => kept_refl _

theorem decodeAf_kept {mode : PcrMode} : Kept isFault (decodeAf b mode o) (decodeAf b' mode o) :=
  kept_bind (unitByte_kept h) fun _ => kept_ite (kept_refl _) <|
    kept_bind (afFlags_kept h) fun _ => kept_bind (afPcr_kept h) fun _ => kept_refl _

theorem timestamp_kept {code : BitVec 4} {dts : Bool} :
    Kept isFault (timestamp b o j code dts) (timestamp b' o j code dts) :=
  kept_bind (unitByte_kept h) fun _ => kept_bind (unitByte_kept h) fun _ =>
    kept_bind (unitByte_kept h) fun _ => kept_bind (unitByte_kept h) fun _ =>
    kept_bind (unitByte_kept h) fun _ => kept_refl _

theorem pesPrefix_kept : Kept isFault (pesPrefix b o cur) (pesPrefix b' o cur) :=
  kept_bind (unitByte_kept h) fun _ => kept_ite (kept_refl _) <|
    kept_bind (unitByte_kept h) fun _ => kept_ite (kept_refl _) <|
    kept_bind (unitByte_kept h) fun _ => kept_refl _

theorem ptsField_kept {f : BitVec 2} : Kept isFault (ptsField b o cur f) (ptsField b' o cur f) :=
  kept_ite (kept_bind (timestamp_kept h) fun _ => kept_refl _) <|
    kept_ite (kept_bind (timestamp_kept h) fun _ => kept_refl _) (kept_refl _)

theorem dtsField_kept {f : BitVec 2} : Kept isFault (dtsField b o cur f) (dtsField b' o cur f) :=
  kept_ite (kept_bind (timestamp_kept h) fun _ => kept_refl _) (kept_refl _)

theorem decodePes_kept : Kept isFault (decodePes b o cur) (decodePes b' o cur) :=
  kept_ite (kept_refl _) <| kept_bind (unitByte_kept h) fun _ => kept_bind (unitByte_kept h) fun _ =>
    kept_ite (kept_refl _) <| kept_ite (kept_refl _) <| kept_bind (ptsField_kept h) fun _ =>
    kept_bind (dtsField_kept h) fun _ => kept_bind (unitByte_kept h) fun _ => kept_refl _

theorem probePes_kept {pusi : Bool} : Kept isFault (probePes b o cur pusi) (probePes b' o cur pusi) :=
  kept_ite (kept_bind (pesPrefix_kept h) fun _ => kept_ite (decodePes_kept h) (kept_refl _)) (kept_refl _)

theorem decodeUnit_kept {mode : PcrMode} : Kept isFault (decodeUnit b mode o) (decodeUnit b' mode o) :=
  kept_bind (unitByte_kept h) fun _ => kept_bind (unitByte_kept h) fun _ =>
    kept_bind (unitByte_kept h) fun _ => kept_bind (unitByte_kept h) fun _ => kept_ite
      (kept_ite (kept_bind (decodeAf_kept h) fun _ => kept_bind (probePes_kept h) fun _ => kept_refl _)
        (kept_bind (probePes_kept h) fun _ => kept_refl _))
      (kept_refl _)

theorem frameUnits_kept {mode : PcrMode} : Kept isFault (frameUnits b mode n k o) (frameUnits b' mode n k o) := by
  induction k generalizing o with
  | zero => exact kept_refl _
  | succ k ih =>
    refine kept_ite (kept_bind (decodeUnit_kept h) fun _ => kept_bind ?_ fun _ => ?_) (kept_refl _)
    · exact kept_ite (kept_bind (unitByte_kept h) fun _ => kept_refl _) (kept_refl _)
    · exact kept_ite (kept_bind ih fun _ => kept_refl _) (kept_refl _)

end

/-! ### Where a scan and a unit loop stop -/

variable {buf : List Host.Cell} {mode : PcrMode} {n o i k : Nat} {e : FrameStop}

/-- The confirmation loop answers if every in-bounds offset is written. -/
theorem syncConfirmed_written {ds : List Nat} (h : ∀ d ∈ ds, i + d < n → Memory.read buf (i + d) ≠ none) :
    ∃ ok, syncConfirmed buf n i ds = .ok ok := by
  cases hc : syncConfirmed buf n i ds with
  | ok ok => exact ⟨ok, rfl⟩
  | error f =>
    obtain ⟨d, hd, hn, hr, -⟩ := syncConfirmed_error hc
    exact absurd hr (h d hd hn)

/-- The confirmation loop stops on the first unwritten in-bounds offset. -/
theorem syncConfirmed_stops {pre post : List Nat} {d : Nat} (hn : i + d < n) (hr : Memory.read buf (i + d) = none)
    (h : ∀ d' ∈ pre, i + d' < n → Memory.read buf (i + d') ≠ none) :
    syncConfirmed buf n i (pre ++ d :: post) = .error (.bufUnwritten (i + d)) := by
  induction pre with
  | nil => simp [syncConfirmed, confirms, hn, readByte_error.2 ⟨hr, rfl⟩]
  | cons p pre ih =>
    have hp : ∃ ok, confirms buf n (i + p) = .ok ok := by
      cases hc : confirms buf n (i + p) with
      | ok ok => exact ⟨ok, rfl⟩
      | error f => obtain ⟨h1, h2, -⟩ := confirms_error hc; exact absurd h2 (h p (by simp) h1)
    obtain ⟨ok, hp⟩ := hp
    rw [List.cons_append, syncConfirmed, hp, ih (fun d' hd' => h d' (by simp [hd']))]
    rfl

/-- The scan passes a written candidate that is not confirmed and whose confirmation bytes are written. -/
theorem locateFrom_passes (hw : Memory.read buf i ≠ none) (hs : ¬ SyncAt buf n i)
    (hc : Memory.read buf i = some syncByte → ∀ d ∈ syncConfirmOffsets, i + d < n → Memory.read buf (i + d) ≠ none) :
    locateFrom buf n (k + 1) i = locateFrom buf n k (i + 1) := by
  by_cases hb : Memory.read buf i = some syncByte
  · rcases locateFrom_round buf n k i with ⟨f, -, ⟨h, -⟩ | ⟨d, hd, hn, hr, -⟩⟩ | ⟨hs', -⟩ | ⟨-, h⟩
    · exact absurd h hw
    · exact absurd hr (hc hb d hd hn)
    · exact absurd hs' hs
    · exact h
  · obtain ⟨b, hb'⟩ := Option.ne_none_iff_exists'.1 hw
    have hne : b ≠ syncByte := fun h => hb (by rw [hb', h])
    rw [locateFrom, readByte_ok.2 hb', ok_bind, if_neg hne]

/-- A byte of a unit that nothing has written. -/
theorem unitByte_unwritten {j : Nat} (h : Memory.read buf (o + j) = none) :
    unitByte buf o j = .error (.fault (.bufUnwritten (o + j))) := by
  rw [unitByte, readByte_error.2 ⟨h, rfl⟩]

/-- Decoding a unit stops on the first unwritten byte of its header. -/
theorem decodeUnit_header_stops {y : Nat} (hy : y < 4) (h : Memory.read buf (o + y) = none)
    (hz : ∀ z < y, Memory.read buf (o + z) ≠ none) :
    decodeUnit buf mode o = .error (.fault (.bufUnwritten (o + y))) := by
  have hw : ∀ z, z < y → ∃ b, unitByte buf o z = .ok b := fun z hzy => by
    obtain ⟨b, hb⟩ := Option.ne_none_iff_exists'.1 (hz z hzy)
    exact ⟨b, unitByte_ok.2 hb⟩
  have he := unitByte_unwritten h
  have hy' : y = 0 ∨ y = 1 ∨ y = 2 ∨ y = 3 := by omega
  unfold decodeUnit
  rcases hy' with rfl | rfl | rfl | rfl
  · rw [he]; rfl
  · obtain ⟨b0, h0⟩ := hw 0 (by decide)
    rw [h0, ok_bind, he]; rfl
  · obtain ⟨b0, h0⟩ := hw 0 (by decide)
    obtain ⟨b1, h1⟩ := hw 1 (by decide)
    rw [h0, ok_bind, h1, ok_bind, he]; rfl
  · obtain ⟨b0, h0⟩ := hw 0 (by decide)
    obtain ⟨b1, h1⟩ := hw 1 (by decide)
    obtain ⟨b2, h2⟩ := hw 2 (by decide)
    rw [h0, ok_bind, h1, ok_bind, h2, ok_bind, he]; rfl

/-- Decoding a gated unit with an adaptation field stops on that field's length byte. -/
theorem decodeUnit_af_stops {b0 b1 b2 b3 : Byte} (h0 : Memory.read buf o = some b0)
    (h1 : Memory.read buf (o + 1) = some b1) (h2 : Memory.read buf (o + 2) = some b2)
    (h3 : Memory.read buf (o + 3) = some b3) (h4 : Memory.read buf (o + 4) = none) (hpl : b3.getLsbD 4 = true)
    (haf : b3.getLsbD 5 = true) (htei : b1.getLsbD 7 = false) (hpid : b1.toNat % 32 * 256 + b2.toNat ≠ 0x1FFF) :
    decodeUnit buf mode o = .error (.fault (.bufUnwritten (o + 4))) := by
  have hg : gated (headerRecord o b0 b1 b2 b3) = true := by
    simp only [gated, headerRecord, hpl, htei, Bool.not_false, Bool.true_and, bne_iff_ne, ne_eq]
    intro hp
    have hn := congrArg BitVec.toNat hp
    rw [append_toNat, extract_toNat, nullPid_toNat, Nat.pow_zero, Nat.div_one] at hn
    exact hpid hn
  unfold decodeUnit
  rw [show unitByte buf o 0 = .ok b0 from unitByte_ok.2 h0, ok_bind, unitByte_ok.2 h1, ok_bind, unitByte_ok.2 h2,
    ok_bind, unitByte_ok.2 h3, ok_bind]
  simp only [hg, if_true, decodeBody, show (headerRecord o b0 b1 b2 b3).afcAf = true from haf]
  rw [decodeAf, unitByte_unwritten h4]; rfl

/-- The unit loop passes a decoded unit that a sync byte follows. -/
theorem frameUnits_passes {r : UnitRecord} (hd : decodeUnit buf mode o = .ok r) (hn : o + 188 < n)
    (hs : Memory.read buf (o + 188) = some syncByte) (h : frameUnits buf mode n k (o + 188) = .error e) :
    frameUnits buf mode n (k + 1) o = .error e := by
  have hm : framingGoesOn buf n (o + 188) = .ok true := by
    rw [framingGoesOn, if_pos hn, show unitByte buf (o + 188) 0 = .ok syncByte from unitByte_ok.2 hs]; rfl
  rw [frameUnits, if_pos (by rw [show tsPacketSize = 188 from rfl]; omega), hd, ok_bind,
    show tsPacketSize = 188 from rfl, hm, ok_bind, if_pos rfl, h]
  rfl

/-- The unit loop stops, after `k` decoded units, on what decoding the next one stops on, or on the unwritten byte
where its sync byte should stand. -/
theorem frameUnits_stops (k : Nat) {fuel o : Nat} (hd : ∀ j < k, ∃ r, decodeUnit buf mode (o + 188 * j) = .ok r)
    (hs : ∀ j, 0 < j → j < k → Memory.read buf (o + 188 * j) = some syncByte) (hf : k < fuel)
    (he : (Memory.read buf (o + 188 * k) = some syncByte ∧ o + 188 * k + 188 ≤ n ∧
        decodeUnit buf mode (o + 188 * k) = .error e) ∨
      (0 < k ∧ o + 188 * k < n ∧ Memory.read buf (o + 188 * k) = none ∧
        e = .fault (.bufUnwritten (o + 188 * k)))) :
    frameUnits buf mode n fuel o = .error e := by
  induction k generalizing fuel o with
  | zero =>
    obtain ⟨fuel, rfl⟩ : ∃ f, fuel = f + 1 := ⟨fuel - 1, by omega⟩
    rcases he with ⟨-, hn, he⟩ | ⟨h, -⟩
    · rw [frameUnits, if_pos (by simp [tsPacketSize]; omega), show decodeUnit buf mode o = _ from he]; rfl
    · exact absurd h (Nat.lt_irrefl 0)
  | succ k ih =>
    obtain ⟨fuel, rfl⟩ : ∃ f, fuel = f + 1 := ⟨fuel - 1, by omega⟩
    obtain ⟨r, hr⟩ := hd 0 (Nat.succ_pos k)
    have hr : decodeUnit buf mode o = .ok r := hr
    have ho : ∀ j, o + 188 * (j + 1) = o + 188 + 188 * j := fun j => by omega
    rw [ho] at he
    by_cases hk : k = 0
    · subst hk
      rcases he with ⟨hb, hn, he⟩ | ⟨-, hn, hb, rfl⟩
      · exact frameUnits_passes hr (by omega) hb (ih (by omega) (by omega) (by omega) (.inl ⟨hb, hn, he⟩))
      · rw [frameUnits, if_pos (by simp [tsPacketSize]; omega), hr, ok_bind, show tsPacketSize = 188 from rfl,
          framingGoesOn, if_pos hn, unitByte_unwritten (j := 0) hb]
        rfl
    · have hlt : o + 188 + 188 * k < n := by rcases he with h | h <;> omega
      refine frameUnits_passes hr (by omega) (hs 1 (by omega) (by omega)) (ih (fun j hj => ?_) (fun j hj hj' => ?_)
        (by omega) (he.imp id (fun h => ⟨by omega, h.2⟩)))
      · rw [← ho]; exact hd _ (by omega)
      · rw [← ho]; exact hs _ (by omega) (by omega)

end Sys2Proof.Machine
end

