-- ==== Sys2Proof/Tests/Slice0.lean ====
section
/-! SUPPORT. The model's own tests. Every expected value is one of spec/95_test_vectors.md's (the vector's name
stands in the test's comment) or is worked out by hand from the rule the comment names. A test is one step on a
small state. -/

namespace Sys2Proof.Tests
open Sys2Proof.Machine Sys2Proof.Spec

/-! ### Well-formedness: each check refuses an ill-formed term -/

theorem test_wellFormed_addPacket_last_slot : Instr.wellFormed Config.default (.addPacket 347#12 0x100#13) = true := by
  decide

theorem test_wellFormed_addPacket_slot_out_of_range :
    Instr.wellFormed Config.default (.addPacket 348#12 0x100#13) = false := by decide

theorem test_wellFormed_dispatch_slot_out_of_range :
    Instr.wellFormed Config.default (.dispatch 4095#12) = false := by decide

/-! ### Decoding: words written out from rule R151's bit patterns (95_test_vectors.md, 2.6) -/

theorem test_decode_nop :
    decode Config.default 0b00000000000000000000000000000000#32 = .ok .nop := by decide

theorem test_decode_locate :
    decode Config.default 0b00010000000000000000001110101100#32 = .ok (.locate 940#24) := by decide

theorem test_decode_frame :
    decode Config.default 0b00100000000000000000000000000000#32 = .ok .frame := by decide

theorem test_decode_addPacket :
    decode Config.default 0b00110001010110110000000100000000#32 = .ok (.addPacket 347#12 0x100#13) := by decide

theorem test_decode_dispatch :
    decode Config.default 0b01000000000000100000000000000000#32 = .ok (.dispatch 2#12) := by decide

theorem test_decode_dispatchAll :
    decode Config.default 0b01010000000000000000000000000000#32 = .ok .dispatchAll := by decide

theorem test_decode_windowTick :
    decode Config.default 0b01100000000000000000000000000000#32 = .ok .windowTick := by decide

theorem test_decode_readMetric :
    decode Config.default 0b01110000000100000000000100000000#32 = .ok (.readMetric .winMaxDrift 0x100#13) := by
  decide

theorem test_decode_clearSession :
    decode Config.default 0b10000000000000000000000000000000#32 = .ok .clearSession := by decide

theorem test_decode_rejects_reserved_bits :
    [0x00000001#32, 0x01000000#32, 0x11000000#32, 0x20000001#32, 0x30002100#32, 0x40020001#32, 0x70200100#32].map
      (decode Config.default) = List.replicate 7 (.error .reservedBits) := by decide

theorem test_decode_rejects_reserved_opcodes :
    [0x90000000#32, 0xF0000000#32].map (decode Config.default) = List.replicate 2 (.error .reservedOpcode) := by
  decide

theorem test_decode_rejects_slot_348 : decode Config.default 0x315C0100#32 = .error .recOutOfRange := by decide

theorem test_decode_rejects_field_17 : decode Config.default 0x70110100#32 = .error .fieldReserved := by decide

theorem test_decodeTableWord_readMetric : decodeTableWord 32 0x70010100 = some (.readMetric .pkt 0x100#13) := by
  decide

theorem test_encode_matches_words :
    encode (.addPacket 347#12 0x100#13) = 0x315B0100#32 ∧ encode (.locate 940#24) = 0x100003AC#32 ∧
    encode (.readMetric .winMaxDrift 0x100#13) = 0x70100100#32 ∧ encode (.dispatch 2#12) = 0x40020000#32 := by
  decide

/-! ### Small states -/

/-- The state an outcome goes on with. -/
def after (o : Out) : Option State :=
  match o with
  | .next t => some t
  | _ => none

/-- The fault an outcome stops with. -/
def faultOf (o : Out) : Option Fault :=
  match o with
  | .fault f => some f
  | _ => none

/-- Bytes `bs` written to the buffer from index `i` on. -/
def bytesAt (i : Nat) (bs : List Byte) : List Host.Cell := (List.range' i bs.length).zip bs

/-- After reset, with the given buffer cells and BUF_LEN = n. -/
def framing (n : Nat) (cells : List Host.Cell) : State :=
  { State.reset with buf := cells, bufLen := BitVec.ofNat 24 n }

/-- After reset, with EVT_EN = 1 and the words W0 to W3 of slot 0 written. -/
def withRecord (w0 w1 w2 w3 : Word) : State :=
  { State.reset with evtEn := true, recs := [(0, w0), (1, w1), (2, w2), (3, w3)] }

/-- An observed entry of one packet whose continuity counter was `cc`. -/
def seen (cc : BitVec 4) : Metric :=
  { Metric.zero with observed := true, pkt := 1, winPkt := 1, ccValid := true, lastCc := cc }

/-- Words of slot 0 that a state's record memory holds. -/
def slot0 (t : State) : List (Option Word) := (List.range 11).map (fun w => Memory.read t.recs (recKey 0 w))

/-! ### NOP, LOCATE, FRAME -/

/-- Rule R330. -/
theorem test_nop_leaves_every_register : after (execNop State.reset) = some State.reset := by decide

/-- Vector S3, cut down to the bytes the scan uses: candidate 3 fails at 191, candidate 10 holds. -/
theorem test_locate_skips_unconfirmed_candidate :
    (after (execLocate 0#24 (framing 198
        (bytesAt 0 [0, 0, 0, 0x47, 0, 0, 0, 0, 0, 0, 0x47] ++ [(191, 0xFF#8)])))).map (fun t => (t.resultLo, t.resultHi))
      = some (10#32, 0#32) := by decide

/-- Vector L3: fewer than 188 bytes, and nothing is read. -/
theorem test_locate_short_buffer :
    (after (execLocate 0#24 (framing 187 []))).map (·.resultLo) = some 0xFFFFFFFF#32 := by decide

/-- Vector F2, mode 0 (W0 to W10). -/
theorem test_frame_pcr_unit :
    (after (execFrame (framing 188
        (bytesAt 0 [0x47, 0x01, 0x01, 0x35, 0x07, 0x10, 0x91, 0xA2, 0xB3, 0xC4, 0xFF, 0x2B])))).map slot0
      = some ([0xA10105C1#32, 0x00011008#32, 0x555555B6#32, 0x00000155#32, 0#32, 0xFFFFFFFF#32, 0xFFFFFFFF#32,
          0xFFFFFFFF#32, 0xFFFFFFFF#32, 0#32, 0x0000B00C#32].map some) := by decide

/-- Vector F7: PTS and DTS (W0, W4 to W8, W10). -/
theorem test_frame_pts_dts_unit :
    (after (execFrame (framing 188
        (bytesAt 0 [0x47, 0x41, 0x00, 0x10, 0x00, 0x00, 0x01, 0xE0, 0x00, 0x00, 0x80, 0xC0, 0x0A, 0x39, 0x8D, 0x15, 0xCF, 0x13,
          0x15, 0x1D, 0x95, 0x86, 0x43])))).map slot0
      = some ([0xC1000085#32, 0#32, 0#32, 0#32, 0x030A01E0#32, 0x23456789#32, 0x00000001#32, 0x87654321#32,
          0x00000000#32, 0#32, 0x1304A517#32].map some) := by decide

/-- Vector F8: the second unit's PTS_DTS_flags are `01`, and nothing is committed. -/
theorem test_frame_error_in_second_unit :
    (after (execFrame (framing 376
        (bytesAt 0 [0x47, 0x01, 0x00, 0x10] ++
          bytesAt 188 [0x47, 0x41, 0x00, 0x11, 0x00, 0x00, 0x01, 0xE0, 0x00, 0x00, 0x80, 0x40, 0x05])))).map
        (fun t => (errInfoWord t.errInfo, statusWord t, t.recCount, t.recs))
      = some (0x020000BC#32, 3#32, 0#16, []) := by decide

/-- Rule R63: a byte nothing has written. -/
theorem test_frame_unwritten_byte_faults :
    faultOf (execFrame (framing 188 (bytesAt 0 [0x47, 0x01]))) = some (.bufUnwritten 2) := by decide

/-! ### ADD_PACKET, DISPATCH, DISPATCH_ALL -/

/-- Rule R240's example: CC 3 after CC 1 on PID 0x100 is a discontinuity with one event. -/
theorem test_addPacket_discontinuity :
    (after (execAddPacket 0#12 0x100#13
        { withRecord 0x81000381#32 0 0 0 with metrics := [(0x100, seen 1)] })).map
        (fun t => ((t.metric 0x100#13).ccerr, (t.metric 0x100#13).winCcerr, (t.metric 0x100#13).lastCc, t.fifo, t.cur))
      = some (1#64, 1#64, 3#4, [0x100#13], none) := by decide

/-- Vector U1 (and program P4): a PID mismatch sets USAGE_ERR and observes nothing. -/
theorem test_addPacket_usage_error :
    (after (execAddPacket 0#12 0x101#13 (withRecord 0x81000781#32 0 0 0))).map (fun t => (statusWord t, t.metrics))
      = some (0x100#32, []) := by decide

/-- Vector H1's third packet, at EVT_DEPTH = 1: it is held, with the command in CUR and nothing counted. -/
theorem test_addPacket_held_on_full_fifo :
    (after (execAddPacket 0#12 0x100#13
        { withRecord 0x81000481#32 0 0 0 with
          cfg := { Config.default with evtDepth := 1 }, fifo := [0x100#13], metrics := [(0x100, seen 2)] })).map
        (fun t => (t.cur, (t.metric 0x100#13).pkt, t.fifo))
      = some (some 0x30000100#32, 1#64, [0x100#13]) := by decide

/-- Vector T2: PCR 27,000,000 at W = 10,100,000, after a first PCR of 0 at W = 0. -/
theorem test_dispatch_pcr_drift :
    (after (execDispatch 0#12
        { withRecord 0xA10101C1#32 0x00011008#32 0x019BFCC0#32 0 with
          wall := 10100000
          metrics := [(0x101, { seen 0 with refValid := true, lastPcrValid := true, pcrPresent := true })] })).map
        (fun t => ((t.metric 0x101#13).winMaxDelta, (t.metric 0x101#13).winMaxDrift, (t.metric 0x101#13).lastPcr))
      = some (27000000#64, 10#64, 27000000#42) := by decide

/-- Rule R258's example: the null PID is counted and its counter recorded, without a check. -/
theorem test_dispatch_null_pid :
    (after (execDispatch 0#12 { withRecord 0x1FFF0981#32 0 0 0 with metrics := [(0x1FFF, seen 3)] })).map
        (fun t => ((t.metric 0x1FFF#13).pkt, (t.metric 0x1FFF#13).ccerr, (t.metric 0x1FFF#13).lastCc))
      = some (2#64, 0#64, 9#4) := by decide

/-- Rule R260, accept: REC_COUNT is captured and the command stays in progress. -/
theorem test_dispatchAll_accepts :
    (after (execDispatchAll { State.reset with recCount := 2 })).map (fun t => (t.cur, t.daNext, t.daEnd, statusWord t))
      = some (some 0x50000000#32, 0#16, 2#16, 4#32) := by decide

/-- Rule R260, the last record step: the record is added and the command completes. -/
theorem test_dispatchAll_last_record :
    (after (execDispatchAll
        { withRecord 0x81000181#32 0 0 0 with cur := some 0x50000000#32, daEnd := 1, recCount := 1 })).map
        (fun t => (t.cur, t.daNext, (t.metric 0x100#13).pkt)) = some (none, 1#16, 1#64) := by decide

/-! ### WINDOW_TICK, READ_METRIC, CLEAR_SESSION -/

/-- Vector Y2: a request while 0x100 is pending and 0x200 has been observed since. -/
theorem test_windowTick_overrun :
    (after (execWindowTick
        { State.reset with metrics := [(0x100, seen 0), (0x200, seen 0)], pending := [0x100] })).map
        (fun t => (t.pending, statusWord t)) = some ([0x100, 0x200], 0x408#32) := by decide

/-- Vector Y6: no observed PID. -/
theorem test_windowTick_nothing_observed : after (execWindowTick State.reset) = some State.reset := by decide

/-- Vectors T4 and Y3: a swap takes the snapshot, in whole milliseconds, and zeroes the accumulators. -/
theorem test_swap_takes_snapshot :
    (fun e => (e.perPkt, e.perDeltaMs, e.perDriftMs, e.winPkt, e.winMaxDelta, e.pkt))
        (swapMetric { seen 0 with winMaxDelta := 27026999, winMaxDrift := 10 })
      = (1#64, 1000#64, 10#64, 0#64, 0#64, 1#64) := by decide

/-- READ_METRIC 0x100, STATE after vector C2. -/
theorem test_readMetric_state :
    (after (execReadMetric .state 0x100#13 { State.reset with metrics := [(0x100, seen 3)] })).map
        (fun t => (t.resultLo, t.resultHi)) = some (0x00350100#32, 0#32) := by decide

/-- `READ_METRIC 0x123, STATE` after reset (rule R333). -/
theorem test_readMetric_never_observed :
    (after (execReadMetric .state 0x123#13 State.reset)).map (·.resultLo) = some 0x123#32 := by decide

/-- Vector Y7, and rule R335: events stay. -/
theorem test_clearSession :
    (after (execClearSession
        { State.reset with metrics := [(0x100, seen 0)], pending := [0x100], fifo := [0x100#13] })).map
        (fun t => (t.metrics, t.pending, t.fifo)) = some ([], [], [0x100#13]) := by decide

/-! ### Ports and steps -/

/-- Rule R40: EVT_POP. -/
theorem test_evtPop_read :
    (fun t => (t.lastRead, t.fifo)) (readReg (regAt 10#4) { State.reset with fifo := [0x100#13, 0x101#13] })
      = (some 0x80000100#32, [0x101#13]) := by decide

/-- Rules R32, R34 and R337: PCR_MODE 3 stores 0, BUF_LEN is clamped, STATUS bit 9 is cleared by a 1. -/
theorem test_register_writes :
    ctrlWord (writeReg (regAt 1#4) 0xFFFFFFFF#32 State.reset) = 3#32 ∧
    (writeReg (regAt 3#4) 0x00FFFFFF#32 State.reset).bufLen = 65536#24 ∧
    statusWord (writeReg (regAt 2#4) 0x200#32 { State.reset with cmdErr := true, usageErr := true }) = 0x100#32 := by
  decide

/-- Scale of 95_test_vectors.md, 2.4. -/
theorem test_scaleWall :
    [1#64, 3#64, 10000000#64, 0xFFFFFFFFFFFFFFFF#64].map (scaleWall Config.default)
      = [2#64, 8#64, 27000000#64, 12912720851596686128#64] := by decide

/-- The first step after reset runs the command placed for it (rule R35). -/
theorem test_step_runs_placed_command :
    (after (step (State.reset.withFetchWord 32 0x70000123))).map (·.resultLo) = some 0x123#32 := by decide

/-- Program P3: an illegal word sets CMD_ERR. -/
theorem test_step_illegal_word :
    (after (step (State.reset.withFetchWord 32 0x90000000))).map statusWord = some 0x200#32 := by decide

/-! ### Witnesses: what meets the hypotheses of each statement of Certificates/Slice0/Obligations.lean -/

/-- After reset, with one turn and one host access given. -/
def hosted (a : HostAccess) : State :=
  { State.reset with turns := [{ agent := .host, wall := 5 }], hostQueue := [a] }

/-- After reset, with one turn of another agent given. -/
def turning (a : Agent) (s : State) : State := { s with turns := [{ agent := a, wall := 5 }] }

/-- A packet of PID 0x100 with CC 4 waits on a full FIFO of depth 1. -/
def held : State :=
  { withRecord 0x81000481#32 0 0 0 with
    cfg := { Config.default with evtDepth := 1 }, fifo := [0x100#13], metrics := [(0x100, seen 2)]
    cur := some 0x30000100#32
    turns := [{ agent := .host, wall := 1 }, { agent := .engine, wall := 2 }]
    hostQueue := [.regRead 10#4] }

/-- The record of `held`. -/
def heldRecord : RecView :=
  { tei := false, afcPl := true, cc := 4, pid := 0x100, afAttached := false, disc := false, pcrFlag := false,
    pcrValid := false, pcr := 0 }

theorem seen_inv (cc : BitVec 4) : (seen cc).Inv :=
  ⟨rfl, fun h => (by cases h), fun _ => ⟨rfl, rfl⟩, rfl, fun _ => rfl, Nat.zero_le _, Nat.zero_le _, Nat.zero_le _⟩

theorem held_inv : held.Inv where
  cfgValid := by decide
  bufWf := by decide
  bufBound := by decide
  recsWf := by decide
  recsBound := by decide
  metricsWf := by decide
  metricsBound := by decide
  entries := by intro x hx; simp [held] at hx; subst hx; exact seen_inv 2
  pendingWf := by decide
  pendingBound := by decide
  pendingObserved := by decide
  fifoBound := by decide
  bufLenBound := by decide
  recCountBound := by decide
  recCountZero := by decide
  recordsWritten := by intro k hk; exact absurd hk (Nat.not_lt_zero _)
  errTs := by decide
  daOrder := by decide
  daBound := by decide
  curLegal := by intro w hw; cases hw; exact ⟨.addPacket 0#12 0x100#13, by decide, heldRecord, by decide, rfl⟩

/-- After a FRAME of one unit, with a DISPATCH_ALL to come and two turns to run it in. -/
def framed : State :=
  { State.reset with
    frameStatus := .ok, recCount := 1
    recs := (List.range 16).map (fun w => (w, if w = 0 then 0x81000181#32 else 0))
    turns := [{ agent := .host, wall := 1 }, { agent := .engine, wall := 2 }]
    hostQueue := [.regWrite 4#4 0x50000000#32] }

theorem framed_inv : framed.Inv where
  cfgValid := by decide
  bufWf := by decide
  bufBound := by decide
  recsWf := by decide
  recsBound := by decide
  metricsWf := by decide
  metricsBound := by decide
  entries := by intro x hx; cases hx
  pendingWf := by decide
  pendingBound := by decide
  pendingObserved := by decide
  fifoBound := by decide
  bufLenBound := by decide
  recCountBound := by decide
  recCountZero := by intro h; exact absurd rfl h
  recordsWritten := by decide
  errTs := by decide
  daOrder := by decide
  daBound := by decide
  curLegal := by intro w hw; cases hw

theorem witness_ResetInputGivesResetValues :
    (turning .reset held).turns = { agent := .reset, wall := 5 } :: [] := rfl

/-- The smallest and the largest legal parameters. -/
theorem witness_ResetMeetsInvariant :
    ({ bufMax := 188, evtDepth := 1, wallHz := 1 } : Config).Valid ∧
    ({ bufMax := 770235, evtDepth := 255, wallHz := 1 } : Config).Valid := by decide

theorem witness_StepKeepsInvariant : held.Inv ∧ ∃ t, step held = .next t := ⟨held_inv, _, rfl⟩

theorem witness_DecodeOfEncode :
    (Instr.addPacket 347#12 0x1FFF#13).wellFormed Config.default = true ∧
    (Instr.readMetric .winMaxDrift 0x1FFF#13).wellFormed Config.default = true ∧
    (Instr.locate 0xFFFFFF#24).wellFormed Config.default = true := by decide

theorem witness_EncodeOfDecode : decode Config.default 0x7010FFFF#32 = .error .reservedBits ∧
    decode Config.default 0x70101FFF#32 = .ok (.readMetric .winMaxDrift 0x1FFF#13) := by decide

theorem witness_IllegalWordsByRule :
    HostMoves (hosted (.regWrite 4#4 0x90000000#32)) 5 [] (.regWrite 4#4 0x90000000#32) [] ∧
    (hosted (.regWrite 4#4 0x90000000#32)).cur = none := by
  unfold HostMoves
  decide

/-- Words for each of rule R152's conditions: no row fits; slot 348; field 17. -/
theorem witness_IllegalWord :
    ∀ w ∈ [0x90000000#32, 0x315C0100#32, 0x415C0000#32, 0x70110100#32], IllegalWord Config.default w := by
  simp [IllegalWord, commandRows, Config.default]

/-- The words next to them are legal. -/
theorem witness_LegalWord : ∀ w ∈ [0x315B0100#32, 0x415B0000#32, 0x70100100#32], ¬ IllegalWord Config.default w := by
  simp [IllegalWord, commandRows, Config.default]

/-- For each of the four clauses: an idle block, a command in progress, a held write, and a read. -/
theorem witness_StepRunsTheIssuedCommand :
    (HostMoves (hosted (.regWrite 4#4 0#32)) 5 [] (.regWrite 4#4 0#32) [] ∧
      (hosted (.regWrite 4#4 0#32)).cur = none ∧ decode Config.default 0#32 = .ok .nop) ∧
    ((turning .engine held).turns = [{ agent := .engine, wall := 5 }] ∧ held.cur = some 0x30000100#32 ∧
      decode held.cfg 0x30000100#32 = .ok (.addPacket 0#12 0x100#13)) ∧
    (HostMoves { hosted (.regWrite 4#4 0#32) with cur := some 0x50000000#32 } 5 [] (.regWrite 4#4 0#32) []) ∧
    HostMoves (hosted (.regRead 4#4)) 5 [] (.regRead 4#4) [] := by
  unfold HostMoves
  decide

/-- A buffer of one written byte, and an empty one. -/
theorem witness_LocateGivesFirstConfirmedOffset :
    (framing 1 [(0, 0x47)]).bufferWritten ∧ (framing 0 []).bufferWritten := by
  unfold State.bufferWritten
  decide

theorem witness_LocateReadsOnlyBelowLength :
    ∀ i < 2, Memory.read [(0, 0x47#8), (1, 0#8)] i = Memory.read [(0, 0x47#8), (1, 0#8), (2, 9#8)] i := by decide

/-- 188 bytes: a sync byte, PID 0x100, `b3`, and zeros. -/
def unitCells (b3 : Byte) : List Host.Cell :=
  (List.range 188).map (fun j => (j, if j = 0 then 0x47#8 else if j = 1 then 0x01#8 else if j = 3 then b3 else 0))

/-- Each of the three outcomes: no sync, OK, and (AFC_AF = 1 with L = 183) a framing error. -/
theorem witness_FrameHasThreeOutcomes :
    (framing 0 []).bufferWritten ∧
    (framing 188 (unitCells 0x10)).bufferWritten ∧
    (framing 188 (Memory.write 4 183#8 (unitCells 0x30))).bufferWritten ∧
    (after (execFrame (framing 0 []))).map (·.frameStatus) = some .noSync ∧
    (after (execFrame (framing 188 (unitCells 0x10)))).map (·.frameStatus) = some .ok ∧
    (after (execFrame (framing 188 (Memory.write 4 183#8 (unitCells 0x30))))).map (·.frameStatus)
      = some .framingError := by
  unfold State.bufferWritten
  decide +kernel

/-- One unit at offset 0. -/
theorem witness_FrameCommitsUnitsInOrder :
    Config.default.Valid ∧ LocatedAt (bytesAt 0 [0x47, 0x01, 0x00, 0x10]) 188 0 0 ∧
    ∃ t, exec .frame (framing 188 (bytesAt 0 [0x47, 0x01, 0x00, 0x10])) = .next t ∧ t.frameStatus = .ok := by
  refine ⟨by decide, ⟨by decide, by decide, ⟨by decide, by decide, by decide⟩, ?_⟩, _, rfl, rfl⟩
  intro j _ h; exact absurd h (Nat.not_lt_zero _)

/-- The buffer of vector F8, cut down to the bytes it uses. -/
def f8Cells : List Host.Cell :=
  bytesAt 0 [0x47, 0x01, 0x00, 0x10] ++
    bytesAt 188 [0x47, 0x41, 0x00, 0x11, 0x00, 0x00, 0x01, 0xE0, 0x00, 0x00, 0x80, 0x40, 0x05]

/-- Vector F8: the second unit is the fatal one. -/
theorem witness_FrameStopsAtFirstFatalUnit :
    LocatedAt f8Cells 376 0 0 ∧ (∀ i < 0, Memory.read f8Cells i ≠ none) ∧
    (∀ d ∈ [188, 376, 564, 752], ∀ i ≤ 0, i + d < 376 → Memory.read f8Cells (i + d) ≠ none) ∧
    (∀ j < 1, ∃ r, decodeUnit f8Cells .sourceExtLsb (0 + 188 * j) = .ok r) ∧
    (∀ j ≤ 1, Memory.read f8Cells (0 + 188 * j) = some 0x47#8) ∧ 0 + 188 * 1 + 188 ≤ 376 ∧
    decodeUnit f8Cells .sourceExtLsb (0 + 188 * 1) = .error (.fatal .ptsDtsFlag false 188) := by
  refine ⟨⟨by decide, by decide, ⟨by decide, by decide, by decide⟩, ?_⟩, ?_, by decide, ?_, by decide, by decide,
    by decide⟩
  · intro j _ h; exact absurd h (Nat.not_lt_zero _)
  · intro i h; exact absurd h (Nat.not_lt_zero _)
  · intro j hj; obtain rfl : j = 0 := by omega
    exact ⟨_, rfl⟩

/-- Two states that agree below BUF_LEN and differ above it and in the records they held: one unit that is committed,
and a buffer whose byte 1 is unwritten. -/
theorem witness_FrameDependsOnlyOnBuffer :
    (∀ i < 188, Memory.read (bytesAt 0 [0x47, 0x01, 0x00, 0x10]) i
        = Memory.read (bytesAt 0 [0x47, 0x01, 0x00, 0x10] ++ [(188, 9#8)]) i) ∧
    (∃ t, exec .frame (framing 188 (bytesAt 0 [0x47, 0x01, 0x00, 0x10])) = .next t ∧ t.recCount = 1) ∧
    ({ framing 188 (bytesAt 0 [0x47, 0x01, 0x00, 0x10]) with recs := [(0, 7#32)] } : State).recs
      ≠ (framing 188 (bytesAt 0 [0x47, 0x01, 0x00, 0x10])).recs ∧
    exec .frame (framing 188 (bytesAt 0 [0x47])) = .fault (.bufUnwritten 1) :=
  ⟨by decide +kernel, ⟨_, rfl, rfl⟩, by decide, rfl⟩

/-- A unit that gives a record, and one (L = 183) that gives a framing-fatal error. -/
theorem witness_DecodeUnitMeetsPseudocode :
    (∀ j < 188, Memory.read (unitCells 0x10) (0 + j)
      = some (if j = 0 then 0x47#8 else if j = 1 then 0x01#8 else if j = 3 then 0x10#8 else 0)) ∧
    (∀ j < 188, Memory.read (Memory.write 4 183#8 (unitCells 0x30)) (0 + j)
      = some (if j = 0 then 0x47#8 else if j = 1 then 0x01#8 else if j = 3 then 0x30#8
          else if j = 4 then 183#8 else 0)) := by
  decide +kernel

theorem witness_HeaderFieldsAtTheirBits :
    Memory.read (unitCells 0x10) 0 = some 0x47#8 ∧ Memory.read (unitCells 0x10) 1 = some 0x01#8 ∧
    Memory.read (unitCells 0x10) 2 = some 0#8 ∧ Memory.read (unitCells 0x10) 3 = some 0x10#8 ∧
    ∃ u, decodeUnit (unitCells 0x10) .standard 0 = .ok u := ⟨by decide, by decide, by decide, by decide, _, rfl⟩

/-- Each of the gate's three ways to fail: no payload, transport error, the null PID. -/
theorem witness_UngatedUnitIsHeaderOnly :
    (0x20#8).getLsbD 4 = false ∧ (0x81#8).getLsbD 7 = true ∧ (0x1F#8).toNat % 32 * 256 + (0xFF#8).toNat = 0x1FFF ∧
    ([0x47#8, 0x1F#8, 0xFF#8, 0x10#8].zipIdx.all
      (fun x => Memory.read (bytesAt 0 [0x47, 0x1F, 0xFF, 0x10]) x.2 == some x.1)) = true := by decide

/-- L = 183 is fatal; L = 182, with seven bytes and more, L = 6 and L = 0 are decoded. -/
theorem witness_AdaptationFieldDecode :
    (0x30#8).getLsbD 4 = true ∧ (0x01#8).getLsbD 7 = false ∧ (0x01#8).toNat % 32 * 256 + (0x00#8).toNat ≠ 0x1FFF ∧
    (0x30#8).getLsbD 5 = true ∧
    (∀ j < 188, (Memory.read (Memory.write 4 182#8 (unitCells 0x30)) (0 + j)).isSome = true) ∧
    183 ≤ (183#8).toNat ∧
    ∀ l ∈ [182#8, 7#8, 6#8, 0#8], ∃ u, decodeUnit (Memory.write 4 l (unitCells 0x30)) .standard 0 = .ok u := by
  refine ⟨by decide, by decide, by decide, by decide, by decide +kernel, by decide, ?_⟩
  simp only [List.forall_mem_cons, List.not_mem_nil, false_imp_iff, implies_true, and_true]
  exact ⟨⟨_, rfl⟩, ⟨_, rfl⟩, ⟨_, rfl⟩, ⟨_, rfl⟩⟩

/-- A good PTS of vector F7, one with another code, one with a marker bit 0. -/
theorem witness_TimestampField :
    (∀ i < 5, Memory.read (bytesAt 13 [0x39, 0x8D, 0x15, 0xCF, 0x13]) (0 + (13 + i))
      = some ([0x39#8, 0x8D#8, 0x15#8, 0xCF#8, 0x13#8][13 + i - 13]?.getD 0)) ∧
    stampAt (fun i => [0x39, 0x8D, 0x15, 0xCF, 0x13][i - 13]?.getD 0) 13 3 false = .ok 0x123456789 ∧
    stampAt (fun i => [0x29, 0x8D, 0x15, 0xCF, 0x13][i - 13]?.getD 0) 13 3 false = .error (.tsCode, false) ∧
    stampAt (fun i => [0x39, 0x8D, 0x14, 0xCF, 0x13][i - 13]?.getD 0) 13 3 true = .error (.tsMarker, true) := by
  decide

/-- The unit of vector F7: a PES header and a payload. -/
def f7Cells : List Host.Cell :=
  bytesAt 0 [0x47, 0x41, 0x00, 0x10, 0x00, 0x00, 0x01, 0xE0, 0x00, 0x00, 0x80, 0xC0, 0x0A, 0x39, 0x8D, 0x15, 0xCF, 0x13,
    0x15, 0x1D, 0x95, 0x86, 0x43]

theorem witness_RecordRangesInsideUnit :
    ∃ u w9 w10, decodeUnit f7Cells .standard 0 = .ok u ∧ (recordWords u)[9]? = some w9 ∧
      (recordWords u)[10]? = some w10 ∧ u.payload ≠ none ∧ u.pes ≠ none :=
  ⟨_, _, _, rfl, rfl, rfl, by decide, by decide⟩

theorem witness_RecordFieldsAtTheirBits :
    Memory.read held.recs (16 * 0) = some 0x81000481#32 ∧ Memory.read held.recs (16 * 0 + 1) = some 0 ∧
    Memory.read held.recs (16 * 0 + 2) = some 0 ∧ Memory.read held.recs (16 * 0 + 3) = some 0 := by decide

/-! #### Packets -/

/-- One record, and an entry of its PID. -/
def packetState (w0 w1 w2 : Word) (p : Nat) (e : Metric) : State :=
  { withRecord w0 w1 w2 0 with metrics := [(p, e)] }

/-- The record of a PID 0x100 packet with payload, with counter `cc`. -/
def plain (cc : BitVec 4) : RecView := { heldRecord with cc := cc }

/-- The record of a PID 0x101 packet with PCR 27,000,000 and counter 1. -/
def pcrRecord : RecView :=
  { heldRecord with cc := 1, pid := 0x101, afAttached := true, pcrFlag := true, pcrValid := true, pcr := 27000000 }

/-- A state with `pcrRecord` in slot 0 and an entry for its PID. -/
def pcrState (e : Metric) : State := packetState 0xA10101C1#32 0x00011008#32 0x019BFCC0#32 0x101 e

theorem witness_PacketIsCounted :
    Holds (packetState 0x81000381#32 0 0 0x100 (seen 1)) 0#12 (plain 3) ∧
    ¬ MustWait (packetState 0x81000381#32 0 0 0x100 (seen 1)) (plain 3) := by
  unfold Holds MustWait Discontinuous
  decide

theorem witness_TeiPacketOnlyCounts :
    Holds (packetState 0x81000383#32 0 0 0x100 (seen 1)) 0#12 { plain 3 with tei := true } := by
  unfold Holds
  decide

/-- No prior counter, and the null PID with one. -/
theorem witness_FirstOrNullPacketIsNotCompared :
    (Holds (packetState 0x81000381#32 0 0 0x101 (seen 1)) 0#12 (plain 3) ∧
      ((packetState 0x81000381#32 0 0 0x101 (seen 1)).metric (plain 3).pid).ccValid = false) ∧
    Holds (packetState 0x9FFF0381#32 0 0 0x1FFF (seen 1)) 0#12 { plain 3 with pid := 0x1FFF#13 } := by
  unfold Holds
  decide

/-- With payload, and without. -/
theorem witness_RepeatedCounter :
    Holds (packetState 0x81000381#32 0 0 0x100 (seen 3)) 0#12 (plain 3) ∧
    Holds (packetState 0x81000301#32 0 0 0x100 (seen 3)) 0#12 { plain 3 with afcPl := false } ∧
    ((packetState 0x81000381#32 0 0 0x100 (seen 3)).metric 0x100#13).ccValid = true ∧
    (plain 3).cc = ((packetState 0x81000381#32 0 0 0x100 (seen 3)).metric 0x100#13).lastCc := by
  unfold Holds
  decide

/-- 15 is followed by 0. -/
theorem witness_InSequenceCounter :
    Holds (packetState 0x81000081#32 0 0 0x100 (seen 15)) 0#12 (plain 0) ∧
    ((packetState 0x81000081#32 0 0 0x100 (seen 15)).metric 0x100#13).ccValid = true ∧
    (plain 0).cc.toNat = (((packetState 0x81000081#32 0 0 0x100 (seen 15)).metric 0x100#13).lastCc.toNat + 1) % 16 := by
  unfold Holds
  decide

/-- A discontinuity, with events on and with events off. -/
theorem witness_DiscontinuityIsCountedAndNotified :
    Holds (packetState 0x81000381#32 0 0 0x100 (seen 1)) 0#12 (plain 3) ∧
    Discontinuous (plain 3) ((packetState 0x81000381#32 0 0 0x100 (seen 1)).metric 0x100#13) ∧
    ¬ MustWait (packetState 0x81000381#32 0 0 0x100 (seen 1)) (plain 3) ∧
    ¬ MustWait { packetState 0x81000381#32 0 0 0x100 (seen 1) with evtEn := false } (plain 3) := by
  unfold Holds MustWait Discontinuous
  decide

/-- A discontinuity packet with a PCR, and one with a PCR and DISC = 1; the one above has none. -/
theorem witness_DiscontinuityRebases :
    (Holds (pcrState (seen 5)) 0#12 pcrRecord ∧
      Discontinuous pcrRecord ((pcrState (seen 5)).metric pcrRecord.pid) ∧
      ¬ MustWait (pcrState (seen 5)) pcrRecord ∧ CarriesPcr pcrRecord) ∧
    (Holds (packetState 0xA10101C1#32 0x00019008#32 0x019BFCC0#32 0x101 (seen 5)) 0#12 { pcrRecord with disc := true } ∧
      CarriesPcr { pcrRecord with disc := true } ∧ ¬ Eligible { pcrRecord with disc := true }) ∧
    ¬ CarriesPcr (plain 3) ∧ ¬ Eligible (plain 3) := by
  unfold Holds MustWait Discontinuous Eligible CarriesPcr
  decide

theorem witness_RebaseComesBeforePcrStep :
    Holds (pcrState (seen 5)) 0#12 pcrRecord ∧
    Discontinuous pcrRecord ((pcrState (seen 5)).metric pcrRecord.pid) ∧
    ¬ MustWait (pcrState (seen 5)) pcrRecord ∧ Eligible pcrRecord := by
  unfold Holds MustWait Discontinuous Eligible CarriesPcr
  decide

theorem witness_FirstPcrSetsReference :
    Holds (pcrState (seen 0)) 0#12 pcrRecord ∧
    ¬ Discontinuous pcrRecord ((pcrState (seen 0)).metric pcrRecord.pid) ∧ Eligible pcrRecord ∧
    ((pcrState (seen 0)).metric pcrRecord.pid).refValid = false := by
  unfold Holds Discontinuous Eligible CarriesPcr
  decide

/-- An entry with a reference pair and a last PCR, and (after a rebase) one with a pair only. -/
theorem witness_SubsequentPcrTracksDeltaAndDrift :
    (∀ b : Bool, Holds (pcrState { seen 0 with refValid := true, lastPcrValid := b }) 0#12 pcrRecord ∧
      ¬ Discontinuous pcrRecord ((pcrState { seen 0 with refValid := true, lastPcrValid := b }).metric pcrRecord.pid) ∧
      ((pcrState { seen 0 with refValid := true, lastPcrValid := b }).metric pcrRecord.pid).refValid = true) ∧
    Eligible pcrRecord := by
  unfold Holds Discontinuous Eligible CarriesPcr
  decide

/-- A PCR with DISC = 1. -/
theorem witness_IneligiblePcrIsIgnored :
    Holds (packetState 0xA10101C1#32 0x00019008#32 0x019BFCC0#32 0x101 (seen 0)) 0#12
      { pcrRecord with disc := true } ∧
    ¬ Discontinuous { pcrRecord with disc := true }
      ((packetState 0xA10101C1#32 0x00019008#32 0x019BFCC0#32 0x101 (seen 0)).metric 0x101#13) ∧
    ¬ Eligible { pcrRecord with disc := true } := by
  unfold Holds Discontinuous Eligible CarriesPcr
  decide

/-- A held one-packet command, and a held DISPATCH_ALL. -/
theorem witness_HeldOnFullFifo :
    Holds held 0#12 heldRecord ∧ MustWait held heldRecord ∧
    MustWait { held with cur := some 0x50000000#32, daEnd := 1, recCount := 1 } heldRecord ∧
    readRecord held.recs held.daNext.toNat = .ok heldRecord := by
  unfold Holds MustWait Discontinuous
  decide

theorem witness_HeldPacketGoesOnAfterPop :
    held.Inv ∧ Holds held 0#12 heldRecord ∧ MustWait held heldRecord ∧
    held.cur = some (encode (.addPacket 0#12 heldRecord.pid)) ∧
    held.turns = { agent := .host, wall := 1 } :: { agent := .engine, wall := 2 } :: [] ∧
    held.hostQueue = .regRead 10#4 :: [] := by
  refine ⟨held_inv, ?_⟩
  unfold Holds MustWait Discontinuous
  decide

theorem witness_UsageErrorOnPidMismatch : Holds held 0#12 heldRecord ∧ heldRecord.pid ≠ 0x101#13 := by
  unfold Holds
  decide

/-- An accepting step of an empty DISPATCH_ALL and of one with a record, and the last record step. -/
theorem witness_DispatchAllStepByStep :
    State.reset.cur = none ∧ State.reset.recCount.toNat = 0 ∧ framed.cur = none ∧ framed.recCount.toNat = 1 ∧
    ({ framed with cur := some 0x50000000#32, daEnd := 1 } : State).daNext + 1 = 1#16 ∧
    (0#12).toNat = framed.daNext.toNat ∧ Holds framed 0#12 (plain 1) ∧ ¬ MustWait framed (plain 1) := by
  unfold Holds MustWait Discontinuous
  decide

theorem witness_DispatchAllRunsToTheEnd :
    framed.Inv ∧ framed.cur = none ∧ framed.evtEn = false ∧ [2#64].length = framed.recCount.toNat ∧
    framed.turns = { agent := .host, wall := 1#64 } :: ([2#64].map (fun x => { agent := .engine, wall := x })) ++ [] ∧
    framed.hostQueue = .regWrite 4#4 0x50000000#32 :: [] := by
  refine ⟨framed_inv, ?_⟩
  decide

/-- A slot in range that holds a record of the PID named, and the first slot out of range. -/
theorem witness_PacketCommandFrame :
    (∃ t, exec (.addPacket 0#12 0x100#13) held = .next t) ∧ (∃ t, exec (.dispatch 0#12) held = .next t) ∧
    (0#12).toNat < held.cfg.bufMax / 188 ∧ readRecord held.recs (0#12).toNat = .ok heldRecord ∧
    heldRecord.pid = 0x100#13 ∧ (∃ t, exec (.dispatch 348#12) held = .next t) ∧
    ∃ t, exec .dispatchAll framed = .next t :=
  ⟨⟨_, rfl⟩, ⟨_, rfl⟩, by decide, by decide, rfl, ⟨_, rfl⟩, ⟨_, rfl⟩⟩

/-- Nothing written; and a slot of which W3 alone is not. -/
theorem witness_UnwrittenRecordFaults :
    (0#12).toNat < State.reset.cfg.bufMax / 188 ∧ Memory.read State.reset.recs (16 * (0#12).toNat + 0) = none ∧
    Memory.read [(0, 1#32), (1, 0#32), (2, 0#32)] (16 * (0#12).toNat + 3) = none ∧
    ∀ y < 3, Memory.read [(0, 1#32), (1, 0#32), (2, 0#32)] (16 * (0#12).toNat + y) ≠ none := by decide

/-! #### Windowing, metrics and ports -/

theorem witness_WindowRequestMarksObserved :
    Memory.wf held.metrics ∧ (turning .tickSrc held).turns = { agent := .tickSrc, wall := 5 } :: [] := by decide

theorem witness_SwapTakesSnapshot :
    (turning (.sweeper 0x100#13) { held with pending := [0x100] }).turns
      = { agent := .sweeper 0x100#13, wall := 5 } :: [] ∧
    (0x100#13).toNat ∈ (turning (.sweeper 0x100#13) { held with pending := [0x100] }).pending := by decide

/-- Two PIDs, swapped in falling order. -/
theorem witness_SweepEndsInAnyOrder :
    pidSetWf [0x100, 0x101] ∧
    ([(0x101#13, 7#64), (0x100#13, 8#64)].map (fun x => x.1.toNat)).Perm [0x100, 0x101] := by decide

theorem witness_NeverObservedReadsZero : held.Inv ∧ (held.metric 0x123#13).observed = false :=
  ⟨held_inv, by decide⟩

/-- A write of each register, and BUF_LEN's clamp at both sides of BUF_MAX. -/
theorem witness_CtrlStatusAndBufLenWrites :
    HostMoves (hosted (.regWrite 1#4 0xC#32)) 5 [] (.regWrite 1#4 0xC#32) [] ∧
    HostMoves (hosted (.regWrite 2#4 0x700#32)) 5 [] (.regWrite 2#4 0x700#32) [] ∧
    HostMoves (hosted (.regWrite 3#4 0x10000#32)) 5 [] (.regWrite 3#4 0x10000#32) [] ∧
    HostMoves (hosted (.regWrite 3#4 0x10001#32)) 5 [] (.regWrite 3#4 0x10001#32) [] ∧
    (hosted (.regWrite 3#4 0x10000#32)).cur = none ∧ (hosted (.regWrite 3#4 0x10000#32)).cfg.Valid := by
  unfold HostMoves
  decide

theorem witness_RegisterReads :
    HostMoves (hosted (.regRead 10#4)) 5 [] (.regRead 10#4) [] ∧
    HostMoves (hosted (.regRead 15#4)) 5 [] (.regRead 15#4) [] ∧ 15#4 ≠ 10#4 ∧
    held.fifo = 0x100#13 :: [] ∧ State.reset.fifo = [] := by
  unfold HostMoves
  decide

theorem witness_ReadOnlyRegisterValues : held.cfg.Valid ∧ held.fifo.length ≤ held.cfg.evtDepth := by decide

/-- The first and the last offset of each range. -/
theorem witness_IgnoredWritesAndReservedReads :
    (∀ x ∈ [0#4, 5#4, 15#4], HostMoves (hosted (.regWrite x 1#32)) 5 [] (.regWrite x 1#32) [] ∧ (x = 0#4 ∨ 5#4 ≤ x)) ∧
    ∀ x ∈ [13#4, 15#4], HostMoves (hosted (.regRead x)) 5 [] (.regRead x) [] ∧ 13#4 ≤ x := by
  unfold HostMoves
  decide

theorem witness_HostAccessWhileBusy :
    ∀ a ∈ [HostAccess.regWrite 4#4 0, .regWrite 3#4 0, .bufWrite 0 0, .recWrite 0 0 0, .regRead 0, .regWrite 1#4 0,
        .regWrite 2#4 0],
      HostMoves { hosted a with cur := some 0x50000000#32 } 5 [] a [] ∧
      ({ hosted a with cur := some 0x50000000#32 } : State).cur ≠ none := by
  unfold HostMoves
  decide

/-- The last index in range and the first out of range, of both ports; reads while a command is in progress; and a
written and an unwritten place. -/
theorem witness_BufferAndRecordPorts :
    HostMoves { hosted (.bufRead 65535#24) with cur := some 0x50000000#32 } 5 [] (.bufRead 65535#24) [] ∧
    HostMoves { hosted (.recRead 347 15) with cur := some 0x50000000#32 } 5 [] (.recRead 347 15) [] ∧
    Memory.read State.reset.buf (65535#24).toNat = none ∧ Memory.read State.reset.recs (16 * 347 + 15) = none ∧
    HostMoves (hosted (.bufWrite 65535#24 1)) 5 [] (.bufWrite 65535#24 1) [] ∧
    HostMoves (hosted (.bufWrite 65536#24 1)) 5 [] (.bufWrite 65536#24 1) [] ∧
    HostMoves (hosted (.bufRead 65535#24)) 5 [] (.bufRead 65535#24) [] ∧
    HostMoves (hosted (.bufRead 65536#24)) 5 [] (.bufRead 65536#24) [] ∧
    (∀ k ∈ [347, 348], HostMoves (hosted (.recWrite k 15 1)) 5 [] (.recWrite k 15 1) [] ∧
      HostMoves (hosted (.recRead k 15)) 5 [] (.recRead k 15) []) ∧
    (65535#24).toNat < State.reset.cfg.bufMax ∧ State.reset.cfg.bufMax ≤ (65536#24).toNat ∧
    347 < State.reset.cfg.bufMax / 188 ∧ State.reset.cfg.bufMax / 188 ≤ 348 ∧
    Memory.read [(65535, 7#8)] (65535#24).toNat = some 7#8 ∧ Memory.read [(16 * 347 + 15, 7#32)] (16 * 347 + 15) = some 7 := by
  unfold HostMoves
  decide

/-! #### Whole-machine rules -/

/-- A swap and a CLEAR_SESSION each change the entry of PID 0x100. -/
theorem witness_MetricTableWriters :
    (∃ t, step (turning (.sweeper 0x100#13) { held with pending := [0x100] }) = .next t ∧
      t.metric 0x100#13 ≠ (seen 2)) ∧
    (held.metric 0x100#13) = seen 2 := ⟨⟨_, rfl, by decide⟩, by decide⟩

theorem witness_ObservedStaysSet :
    ∃ t, step { hosted (.regWrite 4#4 0x80000000#32) with metrics := [(0x100, seen 2)] } = .next t ∧
      ((hosted (.regWrite 4#4 0x80000000#32)).metric 0x100#13).observed = false ∧
      (t.metric 0x100#13).observed = false := ⟨_, rfl, by decide, by decide⟩

/-- A write of STATUS that clears all three bits. -/
theorem witness_StickyBitsStaySet :
    ∃ t, step { hosted (.regWrite 2#4 0x700#32) with usageErr := true, cmdErr := true, tickOverrun := true } = .next t ∧
      t.usageErr = false ∧ t.cmdErr = false ∧ t.tickOverrun = false := ⟨_, rfl, rfl, rfl, rfl⟩

theorem witness_EventsAreQueuedAndNeverDropped : ∃ t, step held = .next t ∧ t.fifo ≠ held.fifo :=
  ⟨_, rfl, by decide⟩

/-- A READ_METRIC and a FRAME. -/
theorem witness_ResultAndFrameRegisterWriters :
    (∃ t, step (hosted (.regWrite 4#4 0x70000123#32)) = .next t ∧ t.resultLo ≠ 0) ∧
    ∃ t, step { hosted (.regWrite 4#4 0x20000000#32) with bufLen := 188, buf := bytesAt 0 [0x47, 0x01, 0x00, 0x10] }
        = .next t ∧ t.recCount ≠ 0 := ⟨⟨_, rfl, by decide⟩, ⟨_, rfl, by decide⟩⟩

/-- The headers of five null-PID units, 188 bytes apart. -/
def fiveUnits : List Host.Cell :=
  (List.range 5).flatMap (fun k => bytesAt (188 * k) [0x47, 0x1F, 0xFF, 0x10])

/-- A scan stops on an unwritten candidate, on its first confirmation byte, or on its last one. -/
theorem witness_locatorStops :
    LocatorStopsAt [] 188 0 0 ∧ LocatorStopsAt [(0, 0x47#8)] 189 0 188 ∧
    LocatorStopsAt [(0, 0x47#8), (188, 0#8), (376, 0#8), (564, 0#8)] 753 0 752 := by
  have h0 : ∀ b n, 188 ≤ n → ScanReaches b n 0 0 := fun b n h =>
    ⟨h, Nat.le_refl 0, by omega, fun j _ hj => absurd hj (Nat.not_lt_zero j)⟩
  exact ⟨⟨rfl, .inl (h0 _ _ (by decide))⟩,
    ⟨by decide, .inr ⟨0, h0 _ _ (by decide), by decide, 188, by decide, by decide, by decide, by decide⟩⟩,
    ⟨by decide, .inr ⟨0, h0 _ _ (by decide), by decide, 752, by decide, by decide, by decide, by decide⟩⟩⟩

/-- Framing stops on the first and the last unwritten byte a header can have, on an adaptation field's length byte,
and on the byte after five units. -/
theorem witness_framerStops :
    FramerStopsAt [(0, 0x47#8)] .standard 188 1 ∧
    FramerStopsAt (bytesAt 0 [0x47, 0x01, 0x00]) .standard 188 3 ∧
    FramerStopsAt (bytesAt 0 [0x47, 0x01, 0x00, 0x30]) .standard 188 4 ∧
    FramerStopsAt fiveUnits .standard 941 940 := by
  have h0 : ∀ b n, 188 ≤ n → ScanReaches b n 0 0 := fun b n h =>
    ⟨h, Nat.le_refl 0, by omega, fun j _ hj => absurd hj (Nat.not_lt_zero j)⟩
  have hl : ∀ b n, 188 ≤ n → Confirmed b n 0 → LocatedAt b n 0 0 := fun b n h hc =>
    ⟨h, Nat.le_refl 0, hc, fun j _ hj => absurd hj (Nat.not_lt_zero j)⟩
  have hn : ∀ (P : Nat → Prop), ∀ j < 0, P j := fun P j hj => absurd hj (Nat.not_lt_zero j)
  refine ⟨⟨by decide, 0, 0, hl _ _ (by decide) ⟨by decide, by decide, by decide⟩, h0 _ _ (by decide), by decide,
      hn _, .inr ⟨by decide, by decide, .inl ⟨1, by decide, by decide, by decide⟩⟩⟩,
    ⟨by decide, 0, 0, hl _ _ (by decide) ⟨by decide, by decide, by decide⟩, h0 _ _ (by decide), by decide,
      hn _, .inr ⟨by decide, by decide, .inl ⟨3, by decide, by decide, by decide⟩⟩⟩,
    ⟨by decide, 0, 0, hl _ _ (by decide) ⟨by decide, by decide, by decide⟩, h0 _ _ (by decide), by decide,
      hn _, .inr ⟨by decide, by decide, .inr ⟨by decide, _, _, _, rfl, rfl, rfl, rfl, rfl, rfl, by decide⟩⟩⟩,
    ⟨by decide, 0, 5, hl _ _ (by decide) ⟨by decide, by decide, by decide⟩, h0 _ _ (by decide), by decide,
      fun j hj => ?_, .inl ⟨by decide, by decide, by decide, by decide⟩⟩⟩
  have hj' : j = 0 ∨ j = 1 ∨ j = 2 ∨ j = 3 ∨ j = 4 := by omega
  rcases hj' with rfl | rfl | rfl | rfl | rfl <;> exact ⟨by decide, _, rfl⟩

/-- A LOCATE and a FRAME that go on past unwritten bytes, and a DISPATCH_ALL on a slot with an unwritten W0 and on one
with an unwritten W3. -/
theorem witness_OnlyUnwrittenMemoryStops :
    (∃ t, exec (.locate 0#24) (framing 187 []) = .next t) ∧ Memory.read (framing 187 []).buf 0 = none ∧
    (∃ t, exec .frame (framing 188 (bytesAt 0 [0x47, 0x1F, 0xFF, 0x10])) = .next t) ∧
    Memory.read (framing 188 (bytesAt 0 [0x47, 0x1F, 0xFF, 0x10])).buf 4 = none ∧
    ({ State.reset with cur := some 0x50000000#32 } : State).cur = some 0x50000000#32 ∧
    Memory.read State.reset.recs (16 * State.reset.daNext.toNat + 0) = none ∧
    Memory.read [(0, 1#32), (1, 0#32), (2, 0#32)] (16 * State.reset.daNext.toNat + 3) = none ∧
    ∀ y < 3, Memory.read [(0, 1#32), (1, 0#32), (2, 0#32)] (16 * State.reset.daNext.toNat + y) ≠ none :=
  ⟨⟨_, rfl⟩, rfl, ⟨_, rfl⟩, rfl, rfl, rfl, rfl, by decide⟩

theorem witness_EngineNeverStops :
    (turning .engine held).Inv ∧ Moves (turning .engine held) .engine ∧
    (turning .engine held).cur = some 0x30000100#32 := by
  refine ⟨held_inv.congr rfl rfl rfl rfl rfl rfl rfl rfl rfl rfl rfl rfl rfl, rfl, rfl⟩

end Sys2Proof.Tests
end

section
/-! The values of the read-only registers as numbers (rules R31 to R42), one lemma for each packed word, and O50. -/

namespace Sys2Proof.Machine
open Sys2Proof.Spec

/-- A one-bit field as a number. -/
theorem ofBool_toNat_eq_flag (b : Bool) : (BitVec.ofBool b).toNat = flag b := ofBool_toNat b

/-- Reserved high bits add nothing (rule R43). -/
theorem zero_append_toNat {n m : Nat} (b : BitVec m) : (0#n ++ b).toNat = b.toNat := by
  rw [append_toNat, BitVec.toNat_ofNat, Nat.zero_mod, Nat.zero_mul, Nat.zero_add]

theorem tickPending_eq_decide (s : State) : tickPending s = decide (s.pending ≠ []) := by
  cases h : s.pending <;> simp [tickPending, h]

/-- `REC_MAX` fits PARAMS[15:0]: rule R13 bounds it by 4096. -/
theorem recMax_lt_of_valid {c : Config} (hc : c.Valid) : c.recMax < 2 ^ 16 := by
  obtain ⟨-, -, hrec, -⟩ := hc
  omega

/-- `EVT_DEPTH` fits its eight bits in PARAMS and EVT_COUNT (rule R14). -/
theorem evtDepth_lt_of_valid {c : Config} (hc : c.Valid) : c.evtDepth < 2 ^ 8 := by
  obtain ⟨-, -, -, -, hevt, -⟩ := hc
  omega

/-- STATUS (rule R33): FRAME_STATUS in [1:0], BUSY 2, TICK_PENDING 3, the sticky bits 8 to 10, and no other bit. -/
theorem statusWord_toNat (s : State) :
    (statusWord s).toNat =
      (frameStatusBits s.frameStatus).toNat + 4 * flag (busy s) + 8 * flag (tickPending s) + 256 * flag s.usageErr
        + 512 * flag s.cmdErr + 1024 * flag s.tickOverrun := by
  simp only [statusWord, append_toNat, ofBool_toNat_eq_flag, BitVec.toNat_ofNat]
  omega

/-- ERR_INFO (rule R38): the offset in [23:0], ERR_CODE in [27:24], ERR_TS 28, and no other bit. -/
theorem errInfoWord_toNat (e : ErrInfo) :
    (errInfoWord e).toNat = e.unitOffset.toNat + 2 ^ 24 * (frameErrBits e.code).toNat + 2 ^ 28 * flag e.dts := by
  simp only [errInfoWord, append_toNat, ofBool_toNat_eq_flag, BitVec.toNat_ofNat]
  omega

/-- EVT_COUNT (rule R39) loses no event of a FIFO its eight bits can count. -/
theorem evtCountWord_toNat {s : State} (h : s.fifo.length < 2 ^ 8) : (evtCountWord s).toNat = s.fifo.length := by
  rw [evtCountWord, zero_append_toNat, BitVec.toNat_ofNat, Nat.mod_eq_of_lt h]

/-- PARAMS (rule R41): `REC_MAX` in [15:0], `EVT_DEPTH` in [23:16], and no other bit. -/
theorem paramsWord_toNat {c : Config} (hc : c.Valid) : (paramsWord c).toNat = c.recMax + 2 ^ 16 * c.evtDepth := by
  simp only [paramsWord, append_toNat, BitVec.toNat_ofNat, Nat.mod_eq_of_lt (recMax_lt_of_valid hc),
    Nat.mod_eq_of_lt (evtDepth_lt_of_valid hc)]
  omega

/-- BUF_MAX (rule R42): rule R12's bound 2^24 fits the word. -/
theorem bufMaxWord_toNat {c : Config} (hc : c.Valid) : (bufMaxWord c).toNat = c.bufMax := by
  obtain ⟨-, hbuf, -⟩ := hc
  rw [bufMaxWord, BitVec.toNat_ofNat, Nat.mod_eq_of_lt (by omega)]

/-- The IRQ output (rule R361). -/
theorem irq_iff (s : State) : irq s = true ↔ s.irqEn = true ∧ s.fifo ≠ [] := by
  simp [irq]

/-- Settles O50: each packed word is the sum of its fields at their places, and legal parameters and a FIFO within
its depth fit the fields that hold them. -/
theorem readOnlyRegisterValues : Obligations.ReadOnlyRegisterValues := by
  unfold Obligations.ReadOnlyRegisterValues
  intro s hc hfifo
  have hcount : s.fifo.length < 2 ^ 8 := lt_of_le_of_lt hfifo (evtDepth_lt_of_valid hc)
  refine ⟨rfl, ?status, rfl, rfl, ?recCount, ?errInfo, evtCountWord_toNat hcount, paramsWord_toNat hc,
    bufMaxWord_toNat hc, irq_iff s⟩
  case status =>
    rw [← tickPending_eq_decide]
    refine (statusWord_toNat s).trans ?_
    cases s.frameStatus <;> rfl
  case recCount => exact zero_append_toNat s.recCount
  case errInfo =>
    refine (errInfoWord_toNat s.errInfo).trans ?_
    cases s.errInfo.code <;> rfl

end Sys2Proof.Machine
end

section
/-! The bits of the record words W0 and W9 that FRAME writes and of the words W0 to W3 that a packet command reads
(rules R111, R131 to R133, R136 and R141): O17 and O23. -/

namespace Sys2Proof.Machine
open Sys2Proof.Spec

/-! ### A word's bits as numbers -/

theorem flag_le_one (b : Bool) : flag b ≤ 1 := by cases b <;> decide

theorem flag_getLsbD {n : Nat} (v : BitVec n) (i : Nat) : flag (v.getLsbD i) = bits v.toNat i 1 := by
  rw [← ofBool_toNat_eq_flag, ofBool_getLsbD, extract_toNat, bits]

theorem extract_toNat_eq_bits {n : Nat} (v : BitVec n) (lo len : Nat) :
    (v.extractLsb' lo len).toNat = bits v.toNat lo len := extract_toNat v lo len

/-! ### W0 and W9 of a record -/

/-- W0 (rule R131): every field at its place, and no other bit. -/
theorem recordW0_toNat (u : UnitRecord) :
    (recordW0 u).toNat =
      flag u.syncValid + 2 * flag u.tei + 4 * flag u.pusi + 8 * flag u.prio + 16 * u.sc.toNat + 64 * flag u.afcAf
        + 128 * flag u.afcPl + 256 * u.cc.toNat + 4096 * flag u.teiHdr + 2 ^ 16 * u.pid.toNat
        + 2 ^ 29 * flag u.af.isSome + 2 ^ 30 * flag u.pes.isSome + 2 ^ 31 * flag u.payload.isSome := by
  simp only [recordW0, append_toNat, ofBool_toNat_eq_flag, BitVec.toNat_ofNat]
  omega

/-- The header fields of a record read back from its W0 (rules R111 and R131). -/
theorem recordW0_bits (u : UnitRecord) :
    let w0 := (recordW0 u).toNat
    bits w0 0 1 = flag u.syncValid ∧ bits w0 12 1 = flag u.teiHdr ∧ bits w0 2 1 = flag u.pusi ∧
    bits w0 3 1 = flag u.prio ∧ bits w0 16 13 = u.pid.toNat ∧ bits w0 4 2 = u.sc.toNat ∧
    bits w0 6 1 = flag u.afcAf ∧ bits w0 7 1 = flag u.afcPl ∧ bits w0 8 4 = u.cc.toNat := by
  have hsync := flag_le_one u.syncValid
  have htei := flag_le_one u.tei
  have hpusi := flag_le_one u.pusi
  have hprio := flag_le_one u.prio
  have hsc := u.sc.isLt
  have haf := flag_le_one u.afcAf
  have hpl := flag_le_one u.afcPl
  have hcc := u.cc.isLt
  have hhdr := flag_le_one u.teiHdr
  have hpid := u.pid.isLt
  simp only [recordW0_toNat, bits]
  refine ⟨?_, ?_, ?_, ?_, ?_, ?_, ?_, ?_, ?_⟩ <;> omega

/-- W9 (rule R136): UNIT_OFFSET in [23:0], and no other bit. -/
theorem recordWords_w9_toNat (u : UnitRecord) : ((recordWords u)[9]?).map BitVec.toNat = some u.unitOffset.toNat :=
  congrArg some (zero_append_toNat u.unitOffset)

/-! ### The header and a slot, as numbers -/

/-- The header fields of a unit as numbers (rule R111), each from its own bits of the first four bytes. -/
theorem headerRecord_bits (o : Nat) (b0 b1 b2 b3 : Byte) :
    let r := headerRecord o b0 b1 b2 b3
    flag r.syncValid = flag (b0 == 0x47#8) ∧ flag r.teiHdr = b1.toNat / 128 ∧ flag r.pusi = b1.toNat / 64 % 2 ∧
    flag r.prio = b1.toNat / 32 % 2 ∧ r.pid.toNat = b1.toNat % 32 * 256 + b2.toNat ∧ r.sc.toNat = b3.toNat / 64 ∧
    flag r.afcAf = b3.toNat / 32 % 2 ∧ flag r.afcPl = b3.toNat / 16 % 2 ∧ r.cc.toNat = b3.toNat % 16 := by
  have h1 := b1.isLt
  have h3 := b3.isLt
  simp only [headerRecord, flag_getLsbD, append_toNat, extract_toNat_eq_bits, bits]
  refine ⟨rfl, ?_, ?_, ?_, ?_, ?_, ?_, ?_, ?_⟩ <;> omega

/-- The fields of rule R141 as numbers, each from its own bits of W0 to W3 (rules R131 to R133). -/
theorem recViewOf_bits (w0 w1 w2 w3 : Word) :
    let r := recViewOf w0 w1 w2 w3
    flag r.tei = bits w0.toNat 1 1 ∧ flag r.afcPl = bits w0.toNat 7 1 ∧ r.cc.toNat = bits w0.toNat 8 4 ∧
    r.pid.toNat = bits w0.toNat 16 13 ∧ flag r.afAttached = bits w0.toNat 29 1 ∧
    flag r.disc = bits w1.toNat 15 1 ∧ flag r.pcrFlag = bits w1.toNat 12 1 ∧
    flag r.pcrValid = bits w1.toNat 16 1 ∧ r.pcr.toNat = w2.toNat + 2 ^ 32 * (w3.toNat % 2 ^ 10) := by
  refine ⟨flag_getLsbD .., flag_getLsbD .., extract_toNat_eq_bits .., extract_toNat_eq_bits .., flag_getLsbD ..,
    flag_getLsbD .., flag_getLsbD .., flag_getLsbD .., ?pcr⟩
  case pcr =>
    simp only [recViewOf, append_toNat, extract_toNat]
    omega

/-! ### The obligations -/

/-- Settles O17: only the header writes the fields of W0's header bits and the offset of W9, whatever the body of the
unit adds (`decodeUnit_header`). -/
theorem headerFieldsAtTheirBits : Obligations.HeaderFieldsAtTheirBits := by
  unfold Obligations.HeaderFieldsAtTheirBits
  intro buf mode o b0 b1 b2 b3 u ho h0 h1 h2 h3 hu
  obtain ⟨c0, c1, c2, c3, e0, e1, e2, e3, hsame, -⟩ := decodeUnit_header hu
  cases h0.symm.trans e0
  cases h1.symm.trans e1
  cases h2.symm.trans e2
  cases h3.symm.trans e3
  obtain ⟨hsync, hpusi, hprio, hsc, haf, hpl, hcc, htei, hpid, hoff⟩ := hsame
  have hw0 := recordW0_bits u
  have hhdr := headerRecord_bits o b0 b1 b2 b3
  simp only [hsync, hpusi, hprio, hsc, haf, hpl, hcc, htei, hpid, hhdr] at hw0
  obtain ⟨w0sync, w0tei, w0pusi, w0prio, w0pid, w0sc, w0af, w0pl, w0cc⟩ := hw0
  refine ⟨w0sync, w0tei, w0pusi, w0prio, w0pid, w0sc, w0af, w0pl, w0cc, (recordWords_w9_toNat u).trans ?offset⟩
  case offset => rw [hoff, headerRecord, BitVec.toNat_ofNat, Nat.mod_eq_of_lt ho]

/-- Settles O23: the record read is `recViewOf` of the four words (`readRecord_ok`), whose fields are those bits. -/
theorem recordFieldsAtTheirBits : Obligations.RecordFieldsAtTheirBits := by
  unfold Obligations.RecordFieldsAtTheirBits
  intro recs k w0 w1 w2 w3 h0 h1 h2 h3
  exact ⟨recViewOf w0 w1 w2 w3, readRecord_ok.2 ⟨w0, w1, w2, w3, h0, h1, h2, h3, rfl⟩, recViewOf_bits w0 w1 w2 w3⟩

end Sys2Proof.Machine
end

section
/-! What the locator answers in the spec's words (`LocatedAt`, `NothingLocated`), what LOCATE leaves in RESULT, and
that the scan uses no byte at or past `n` (spec/40_sync_locator.md): O10 and O11. -/

namespace Sys2Proof.Machine
open Sys2Proof.Spec

variable {buf b b' : List Host.Cell} {n start i k : Nat}

/-! ### The locator's answer in the spec's words -/

/-- A confirmed offset is a candidate below `n` whose checks all hold. -/
theorem confirmed_iff : Confirmed buf n i ↔ i < n ∧ SyncAt buf n i := Iff.rfl

/-- On a buffer written below `n` the locator answers the first confirmed offset, or that there is none. -/
theorem locate_written (hw : ∀ i < n, (Memory.read buf i).isSome = true) :
    (∃ i, locate buf n start = .ok (some i) ∧ LocatedAt buf n start i) ∨
    (locate buf n start = .ok none ∧ NothingLocated buf n start) := by
  rcases locate_cases buf n start with ⟨f, -, hstop, -⟩ | ⟨i, hfound, hsize, hstart, hi, hsync, hfirst⟩ | ⟨hnone, hno⟩
  · obtain ⟨a, ha, hunwritten, -⟩ := locate_fault hstop
    exact absurd (hw a ha) (by simp [hunwritten])
  · exact .inl ⟨i, hfound, hsize, hstart, ⟨hi, hsync⟩, fun j h1 h2 hj => hfirst j h1 h2 (confirmed_iff.1 hj).2⟩
  · refine .inr ⟨hnone, hno.imp_right fun hno j hj hc => ?_⟩
    obtain ⟨hjn, hsync⟩ := confirmed_iff.1 hc
    exact hno j hj hjn hsync

/-! ### LOCATE's result -/

/-- LOCATE completes when the locator answers. -/
theorem exec_locate_of_ok {s : State} {start : BitVec 24} {r : Option Nat}
    (h : locate s.buf s.bufLen.toNat start.toNat = .ok r) :
    exec (.locate start) s = .next (setResult (locateResult r) s) :=
  orFault_next.2 ⟨r, h, rfl⟩

/-- An offset that fits RESULT_LO is the whole result (rules R36 and R160). -/
theorem setResult_locateResult_some (s : State) (hi : i < 2 ^ 32) :
    setResult (locateResult (some i)) s = { s with resultLo := BitVec.ofNat 32 i, resultHi := 0 } := by
  have hlo : (BitVec.ofNat 64 i).extractLsb' 0 32 = BitVec.ofNat 32 i := by
    apply BitVec.eq_of_toNat_eq
    simp only [extract_toNat, BitVec.toNat_ofNat]
    omega
  have hhi : (BitVec.ofNat 64 i).extractLsb' 32 32 = 0#32 := by
    apply BitVec.eq_of_toNat_eq
    simp only [extract_toNat, BitVec.toNat_ofNat]
    omega
  rw [setResult, locateResult, hlo, hhi]
  rfl

/-- LOCATE with an offset found (rule R160). -/
theorem exec_locate_found {s : State} {start : BitVec 24}
    (h : locate s.buf s.bufLen.toNat start.toNat = .ok (some i)) (hi : i < 2 ^ 32) :
    exec (.locate start) s = .next { s with resultLo := BitVec.ofNat 32 i, resultHi := 0 } := by
  rw [exec_locate_of_ok h, setResult_locateResult_some s hi]

/-- LOCATE with none found: 0xFFFFFFFF in RESULT_LO (rule R165). -/
theorem exec_locate_notFound {s : State} {start : BitVec 24}
    (h : locate s.buf s.bufLen.toNat start.toNat = .ok none) :
    exec (.locate start) s = .next { s with resultLo := 0xFFFFFFFF#32, resultHi := 0 } :=
  exec_locate_of_ok h

/-! ### The bytes the locator uses -/

/-- A scan of candidates below `n` uses no byte at or past `n`: the confirmation loop reads in-bounds offsets only
(`syncConfirmed_congr`). -/
theorem locateFrom_congr (h : ∀ i < n, Memory.read b i = Memory.read b' i) (hk : i + k ≤ n) :
    locateFrom b n k i = locateFrom b' n k i := by
  induction k generalizing i with
  | zero => rfl
  | succ k ih =>
    have hbyte : readByte b i = readByte b' i := by simp only [readByte, h i (by omega)]
    rw [locateFrom, locateFrom, hbyte, syncConfirmed_congr h, ih (by omega)]

/-- `Locate(n, start)` uses no byte at or past `n` (rule R164). -/
theorem locate_congr (h : ∀ i < n, Memory.read b i = Memory.read b' i) : locate b n start = locate b' n start := by
  unfold locate
  by_cases hstart : start ≤ n
  · rw [locateFrom_congr h (by omega)]
  · rw [Nat.sub_eq_zero_of_le (by omega), locateFrom, locateFrom]

/-! ### The obligations -/

/-- Settles O10: a written buffer leaves the locator nothing to stop on (`locate_written`), and an offset below
BUF_LEN fits RESULT_LO. -/
theorem locateGivesFirstConfirmedOffset : Obligations.LocateGivesFirstConfirmedOffset := by
  unfold Obligations.LocateGivesFirstConfirmedOffset
  intro s start hw
  rcases locate_written (start := start.toNat) hw with ⟨i, hfound, hat⟩ | ⟨hnone, hno⟩
  · have hi : i < 2 ^ 32 := by
      obtain ⟨-, -, ⟨hlt, -⟩, -⟩ := hat
      have := s.bufLen.isLt
      omega
    have hlo : (BitVec.ofNat 32 i).toNat = i := by rw [BitVec.toNat_ofNat, Nat.mod_eq_of_lt hi]
    exact ⟨_, exec_locate_found hfound hi, rfl, .inl ⟨i, hat, hlo⟩⟩
  · exact ⟨_, exec_locate_notFound hnone, rfl, .inr ⟨hno, rfl⟩⟩

/-- Settles O11: every byte the scan uses lies below `n` (`locate_congr`). -/
theorem locateReadsOnlyBelowLength : Obligations.LocateReadsOnlyBelowLength := by
  unfold Obligations.LocateReadsOnlyBelowLength
  intro b b' n start h
  exact locate_congr h

end Sys2Proof.Machine
end

section
/-! FRAME's output is a function of the bytes below BUF_LEN, BUF_LEN and CTRL.PCR_MODE (spec/41_packet_framer.md, rule
R220): the unit loop uses no byte at or past BUF_LEN, and what FRAME then writes does not look at the state. O15. -/

namespace Sys2Proof.Machine
open Sys2Proof.Spec

/-! ### The bytes the unit loop uses -/

section
variable {b b' : List Host.Cell} {n k o : Nat}

/-- The test for another unit looks at a byte inside the buffer only (rule R183). -/
theorem framingGoesOn_congr (h : ∀ i < n, Memory.read b i = Memory.read b' i) :
    framingGoesOn b n o = framingGoesOn b' n o := by
  unfold framingGoesOn
  by_cases ho : o < n
  · simp only [unitByte, readByte, Nat.add_zero, h o ho]
  · rw [if_neg ho, if_neg ho]

/-- Every unit the loop decodes fits below `n`, so the loop uses no byte at or past `n`. -/
theorem frameUnits_congr (h : ∀ i < n, Memory.read b i = Memory.read b' i) (mode : PcrMode) :
    frameUnits b mode n k o = frameUnits b' mode n k o := by
  induction k generalizing o with
  | zero => rfl
  | succ k ih =>
    unfold frameUnits
    by_cases ho : o + tsPacketSize ≤ n
    · have hunit : decodeUnit b mode o = decodeUnit b' mode o :=
        decodeUnit_congr (fun j hj => h _ (by simp only [tsPacketSize] at ho; omega)) mode
      rw [hunit, framingGoesOn_congr h, ih]
    · rw [if_neg ho, if_neg ho]

end

/-! ### What FRAME writes -/

/-- What rule R220 calls FRAME's output is the same in both states: status, count, the error of a failed run, and the
committed words. -/
def SameFrameOutput (t t' : State) : Prop :=
  t'.frameStatus = t.frameStatus ∧ t'.recCount = t.recCount ∧
  (t.frameStatus = .framingError → t'.errInfo = t.errInfo) ∧
  ∀ a < 16 * t.recCount.toNat, Memory.read t'.recs a = Memory.read t.recs a

theorem frameNoSync_sameOutput (s s' : State) : SameFrameOutput (frameNoSync s) (frameNoSync s') :=
  ⟨rfl, rfl, nofun, fun _ ha => absurd ha (Nat.not_lt_zero _)⟩

theorem frameFailed_sameOutput (s s' : State) (code : FrameErr) (dts : Bool) (u : Nat) :
    SameFrameOutput (frameFailed code dts u s) (frameFailed code dts u s') :=
  ⟨rfl, rfl, fun _ => rfl, fun _ ha => absurd ha (Nat.not_lt_zero _)⟩

/-- A committed word does not depend on what its slot held before (`read_commitRecords`). -/
theorem frameCommit_sameOutput (s s' : State) (rs : List UnitRecord) :
    SameFrameOutput (frameCommit rs s) (frameCommit rs s') := by
  refine ⟨rfl, rfl, nofun, fun a ha => ?_⟩
  have hcount : (BitVec.ofNat 16 rs.length).toNat ≤ rs.length := Nat.mod_le ..
  have hin : 16 * 0 ≤ a ∧ a < 16 * (0 + (rs.map recordWords).length) := by
    simp only [frameCommit] at ha
    rw [List.length_map]
    omega
  have h16 : ∀ ws ∈ rs.map recordWords, ws.length = 16 := by simp
  simp only [frameCommit]
  rw [read_commitRecords _ h16, read_commitRecords _ h16, if_pos hin, if_pos hin]

/-! ### The obligation -/

/-- Settles O15: both states locate the same unit (`locate_congr`), decode the same records or the same stop
(`frameUnits_congr`), and write the same output. -/
theorem frameDependsOnlyOnBuffer : Obligations.FrameDependsOnlyOnBuffer := by
  unfold Obligations.FrameDependsOnlyOnBuffer
  intro s s' t hlen hmode hbuf
  have hloc : locate s'.buf s'.bufLen.toNat 0 = locate s.buf s.bufLen.toNat 0 := by
    rw [← hlen, locate_congr hbuf]
  have hunits (o : Nat) : frameUnits s'.buf s'.pcrMode s'.bufLen.toNat s'.bufLen.toNat o =
      frameUnits s.buf s.pcrMode s.bufLen.toNat s.bufLen.toNat o := by
    rw [← hlen, ← hmode, frameUnits_congr hbuf]
  simp only [exec, execFrame, frameFrom, hloc, hunits]
  cases locate s.buf s.bufLen.toNat 0 with
  | error f => exact ⟨nofun, fun _ h => h⟩
  | ok found =>
    cases found with
    | none => exact ⟨fun h => by cases h; exact ⟨_, rfl, frameNoSync_sameOutput s s'⟩, nofun⟩
    | some o =>
      simp only [orFault]
      cases frameUnits s.buf s.pcrMode s.bufLen.toNat s.bufLen.toNat o with
      | ok rs => exact ⟨fun h => by cases h; exact ⟨_, rfl, frameCommit_sameOutput s s' rs⟩, nofun⟩
      | error e =>
        cases e with
        | fatal code dts u =>
          exact ⟨fun h => by cases h; exact ⟨_, rfl, frameFailed_sameOutput s s' code dts u⟩, nofun⟩
        | fault f => exact ⟨nofun, fun _ h => h⟩

end Sys2Proof.Machine
end

section
/-! The parts of a unit as numbers (spec/41_packet_framer.md): the PCR of rules R113, R196 and R197 (O20), the timestamp
field of rules R116 and R209 (O21), and the adaptation field of rules R189 to R196 (O19). -/

namespace Sys2Proof.Machine
open Sys2Proof.Spec

variable {buf : List Host.Cell} {mode : PcrMode} {o j cur : Nat} {b : Nat → Byte} {u : UnitRecord}

/-! ### The PCR -/

/-- The base of rule R113's layout. -/
theorem pcrBase_toNat (p0 p1 p2 p3 p4 : Byte) :
    (p0 ++ p1 ++ p2 ++ p3 ++ p4.extractLsb' 7 1).toNat =
      p0.toNat * 2 ^ 25 + p1.toNat * 2 ^ 17 + p2.toNat * 2 ^ 9 + p3.toNat * 2 + bits p4.toNat 7 1 := by
  simp only [append_toNat, extract_toNat_eq_bits]
  omega

/-- The extension of rule R113's layout. -/
theorem pcrExt_toNat (p4 p5 : Byte) : (p4.extractLsb' 0 1 ++ p5).toNat = bits p4.toNat 0 1 * 2 ^ 8 + p5.toNat := by
  rw [append_toNat, extract_toNat_eq_bits]

/-- A PCR is its base times 300 plus its extension: no base and extension are too large for 42 bits (rule R197). -/
theorem ofNat_base_ext_toNat (base : BitVec 33) (ext : BitVec 9) :
    (BitVec.ofNat 42 (base.toNat * 300 + ext.toNat)).toNat = base.toNat * 300 + ext.toNat := by
  rw [BitVec.toNat_ofNat, Nat.mod_eq_of_lt (by omega)]

/-- PcrRebuild is the number the spec's formula gives, in every mode (rule R196). -/
theorem pcrRebuild_toNat (mode : PcrMode) (p0 p1 p2 p3 p4 p5 : Byte) :
    (pcrRebuild mode p0 p1 p2 p3 p4 p5).toNat =
      pcrValue (modeNumber mode) p0.toNat p1.toNat p2.toNat p3.toNat p4.toNat p5.toNat := by
  unfold pcrRebuild pcrValue
  rw [ofNat_base_ext_toNat]
  cases mode with
  | sourceExtLsb => simp only [modeNumber, clearBit0_9, pcrBase_toNat, pcrExt_toNat, reduceIte, Nat.reduceEqDiff]
  | standard => simp [modeNumber, pcrBase_toNat, pcrExt_toNat]
  | sourceBaseLsb => simp only [modeNumber, clearBit0_33, pcrBase_toNat, pcrExt_toNat, reduceIte, Nat.reduceEqDiff]

/-- Settles O20: the value is the spec's (`pcrRebuild_toNat`), of a 33-bit base and a 9-bit extension. -/
theorem pcrRebuildValue : Obligations.PcrRebuildValue := by
  unfold Obligations.PcrRebuildValue
  intro mode p0 p1 p2 p3 p4 p5
  refine ⟨pcrRebuild_toNat mode p0 p1 p2 p3 p4 p5, ?_⟩
  unfold pcrRebuild
  rw [ofNat_base_ext_toNat]
  omega

/-! ### The pseudocode's answers as the model's -/

/-- A framing-fatal error of the spec's formulas, as what stops the model on the unit at `o` (rule R216). -/
def fatalOf (o : Nat) (e : FrameErr × Bool) : FrameStop := .fatal e.1 e.2 o

section
variable {ε ε' α α' β β' : Type} {x : Except ε α} {y : Except ε' β} {f : α → β} {g : ε' → ε} {v : β} {e : ε'}

theorem exists_ok_of_map_eq (h : x.map f = (.ok v : Except ε' β).mapError g) : ∃ a, x = .ok a ∧ f a = v := by
  cases x with
  | error e => cases h
  | ok a => cases h; exact ⟨a, rfl, rfl⟩

theorem eq_error_of_map_eq (h : x.map f = (.error e : Except ε' β).mapError g) : x = .error (g e) := by
  cases x with
  | error e => cases h; rfl
  | ok a => cases h

/-- Two chains agree when their first steps agree and the rest agrees on what these answer. -/
theorem bind_eq_mapError_bind {k : α → Except ε β'} {k' : β → Except ε' β'} (h : x.map f = y.mapError g)
    (hk : ∀ a, k a = (k' (f a)).mapError g) : (x >>= k) = (y >>= k').mapError g := by
  cases y with
  | error e =>
    rw [eq_error_of_map_eq h]
    rfl
  | ok v =>
    obtain ⟨a, rfl, rfl⟩ := exists_ok_of_map_eq h
    exact hk a

theorem except_map_bind {k : α → Except ε α'} {f : α' → β'} : (x >>= k).map f = x >>= fun a => (k a).map f := by
  cases x <;> rfl

end

/-! ### The timestamp field -/

/-- The three parts of rule R116. -/
theorem timestampValue_toNat (t0 t1 t2 t3 t4 : Byte) :
    (timestampValue t0 t1 t2 t3 t4).toNat = stampValue t0.toNat t1.toNat t2.toNat t3.toNat t4.toNat := by
  simp only [timestampValue, stampValue, append_toNat, extract_toNat_eq_bits]
  omega

theorem extract_ne_iff {n : Nat} (v : BitVec n) (lo len : Nat) (c : BitVec len) :
    v.extractLsb' lo len ≠ c ↔ bits v.toNat lo len ≠ c.toNat := by
  rw [ne_eq, ← BitVec.toNat_inj, extract_toNat_eq_bits]

/-- The model's marker test is the spec's: some marker bit is 0. -/
theorem marker_iff (t0 t2 t4 : Byte) :
    (!(t0.getLsbD 0 && t2.getLsbD 0 && t4.getLsbD 0)) = true ↔
      t0.toNat % 2 ≠ 1 ∨ t2.toNat % 2 ≠ 1 ∨ t4.toNat % 2 ≠ 1 := by
  simp only [getLsbD_toNat, pow_zero, Nat.div_one, Bool.not_eq_true', Bool.and_eq_false_iff, decide_eq_false_iff_not,
    or_assoc]

/-- On five written bytes the model's `Timestamp` is the spec's (rule R209). -/
theorem timestamp_eq_stampAt {code : BitVec 4} {dts : Bool} (h : ∀ i < 5, unitByte buf o (j + i) = .ok (b (j + i))) :
    (timestamp buf o j code dts).map BitVec.toNat =
      (stampAt (fun i => (b i).toNat) j code.toNat dts).mapError (fatalOf o) := by
  have h0 : unitByte buf o j = .ok (b j) := h 0 (by omega)
  simp only [timestamp, stampAt, h0, h 1 (by omega), h 2 (by omega), h 3 (by omega), h 4 (by omega), ok_bind,
    extract_ne_iff, marker_iff]
  split
  · rfl
  · split
    · rfl
    · exact congrArg Except.ok (timestampValue_toNat ..)

/-- Settles O21: the code is tested first, then the markers, and the value is the 33 bits of the three parts. -/
theorem timestampField : Obligations.TimestampField := by
  unfold Obligations.TimestampField
  intro buf o j code dts b hb
  have heq := timestamp_eq_stampAt (code := code) (dts := dts) fun i hi => unitByte_ok.2 (hb i hi)
  cases hs : stampAt (fun i => (b i).toNat) j code.toNat dts with
  | error e => exact eq_error_of_map_eq (hs ▸ heq)
  | ok v =>
    obtain ⟨x, hx, hv⟩ := exists_ok_of_map_eq (hs ▸ heq)
    exact ⟨hv ▸ x.isLt, x, hx, hv⟩

/-! ### The header and the gate -/

/-- The gate of rule R187 on the header's bytes. -/
theorem gated_headerRecord {b0 b1 b2 b3 : Byte} :
    gated (headerRecord o b0 b1 b2 b3) = true ↔
      b3.getLsbD 4 = true ∧ b1.getLsbD 7 = false ∧ b1.toNat % 32 * 256 + b2.toNat ≠ 0x1FFF := by
  obtain ⟨-, -, -, -, hpid, -⟩ := headerRecord_bits o b0 b1 b2 b3
  simp only [gated, Bool.and_eq_true, Bool.not_eq_true', bne_iff_ne, ne_eq, ← BitVec.toNat_inj, hpid, nullPid_toNat,
    and_assoc]
  rfl

/-- The record of the header of a unit with bytes `b`. -/
def unitHeaderRecord (o : Nat) (b : Nat → Byte) : UnitRecord := headerRecord o (b 0) (b 1) (b 2) (b 3)

/-- The unit at `o` is written, with bytes `b`. -/
abbrev UnitWritten (buf : List Host.Cell) (o : Nat) (b : Nat → Byte) : Prop :=
  ∀ j < 188, unitByte buf o j = .ok (b j)

/-- A written unit is its header, and its body when it passes the gate (rules R186 to R188). -/
theorem decodeUnit_written (h : UnitWritten buf o b) :
    decodeUnit buf mode o =
      if gated (unitHeaderRecord o b) then decodeBody buf mode o (unitHeaderRecord o b)
      else .ok (unitHeaderRecord o b) := by
  rw [decodeUnit, h 0 (by omega), h 1 (by omega), h 2 (by omega), h 3 (by omega)]
  rfl

/-! ### The adaptation field -/

/-- The adaptation field of a written unit (rules R190 to R196). -/
def unitAf (mode : PcrMode) (b : Nat → Byte) : AfPart where
  fieldSize := b 4 + 1#8
  flags     := if 1 ≤ (b 4).toNat then b 5 else 0
  pcr       :=
    if 1 ≤ (b 4).toNat ∧ (b 5).getLsbD 4 = true ∧ 7 ≤ (b 4).toNat then
      some (pcrRebuild mode (b 6) (b 7) (b 8) (b 9) (b 10) (b 11))
    else none

theorem unitAf_fieldSize (mode : PcrMode) (hl : (b 4).toNat < 183) :
    (unitAf mode b).fieldSize.toNat = (b 4).toNat + 1 := by
  simp only [unitAf, BitVec.toNat_add, BitVec.toNat_ofNat]
  omega

theorem afFlags_written (h : UnitWritten buf o b) :
    afFlags buf o (b 4) = .ok (unitAf mode b).flags := by
  simp only [afFlags, unitAf, h 5 (by omega)]
  split <;> rfl

/-- Flags of 0 hold no PCR_FLAG, so a field of length 0 has no PCR (rules R193 and R195). -/
theorem afPcr_written (h : UnitWritten buf o b) :
    afPcr buf mode o (b 4) (unitAf mode b).flags = .ok (unitAf mode b).pcr := by
  simp only [afPcr, unitAf, h 6 (by omega), h 7 (by omega), h 8 (by omega), h 9 (by omega), h 10 (by omega),
    h 11 (by omega), ok_bind, pure_ok]
  by_cases hl : 1 ≤ (b 4).toNat
  · simp only [hl, if_true, true_and, Bool.and_eq_true, decide_eq_true_eq, ge_iff_le]
    split <;> rfl
  · simp [hl]

/-- The size check, then the field (rules R189 to R196). -/
theorem decodeAf_written (h : UnitWritten buf o b) :
    decodeAf buf mode o = if 183 ≤ (b 4).toNat then .error (.fatal .afSize false o) else .ok (unitAf mode b) := by
  simp only [decodeAf, h 4 (by omega), ok_bind, afFlags_written (mode := mode) h, afPcr_written h]
  by_cases hl : 183 ≤ (b 4).toNat
  · rw [if_pos hl, if_pos (by omega)]
  · rw [if_neg hl, if_neg (by omega)]
    rfl

/-- Steps 3 and 4 of rule R185, from the payload cursor `cur` on. -/
def bodyFrom (buf : List Host.Cell) (o cur : Nat) (r : UnitRecord) : Except FrameStop UnitRecord :=
  (probePes buf o cur r.pusi).map (attachPes r cur)

/-- No step after step 2 touches the adaptation field. -/
theorem bodyFrom_af {r : UnitRecord} (h : bodyFrom buf o cur r = .ok u) : u.af = r.af := by
  unfold bodyFrom at h
  cases hp : probePes buf o cur r.pusi with
  | error e => rw [hp] at h; cases h
  | ok p => rw [hp] at h; cases h; exact attachPes_af r cur p

/-- The body of a written unit: step 2 only where AFC_AF = 1 (rule R189). -/
theorem decodeBody_written (h : UnitWritten buf o b) (r : UnitRecord) :
    decodeBody buf mode o r =
      if r.afcAf then
        if 183 ≤ (b 4).toNat then .error (.fatal .afSize false o)
        else bodyFrom buf o (4 + ((b 4).toNat + 1)) { r with af := some (unitAf mode b) }
      else bodyFrom buf o 4 r := by
  rw [decodeBody, decodeAf_written h]
  cases haf : r.afcAf with
  | false => rfl
  | true =>
    by_cases hl : 183 ≤ (b 4).toNat
    · simp only [if_pos hl]
      rfl
    · rw [← unitAf_fieldSize mode (by omega)]
      simp only [if_neg hl]
      rfl

/-- Settles O19: past the gate the size check decides first (`decodeBody_written`), and the field decoded is
`unitAf`, which no later step touches. -/
theorem adaptationFieldDecode : Obligations.AdaptationFieldDecode := by
  unfold Obligations.AdaptationFieldDecode
  intro buf mode o b hb hpl htei hpid haf
  have hw : UnitWritten buf o b := fun j hj => unitByte_ok.2 (hb j hj)
  have hgate : gated (unitHeaderRecord o b) = true := gated_headerRecord.2 ⟨hpl, htei, hpid⟩
  have haf' : (unitHeaderRecord o b).afcAf = true := haf
  rw [decodeUnit_written hw, if_pos hgate, decodeBody_written hw, if_pos haf']
  by_cases hl : 183 ≤ (b 4).toNat
  · rw [if_pos hl]
    exact ⟨fun _ => rfl, fun _ hu => by cases hu⟩
  · rw [if_neg hl]
    refine ⟨fun h => absurd h hl, fun u hu => ⟨by omega, unitAf mode b, bodyFrom_af hu,
      unitAf_fieldSize mode (by omega), ?flags, ?pcrIff, ?pcrValue⟩⟩
    case flags => simp only [unitAf, Nat.one_le_iff_ne_zero, ite_not]
    case pcrIff => simp [unitAf]
    case pcrValue =>
      intro v hv
      simp only [unitAf, Option.ite_none_right_eq_some, Option.some.injEq] at hv
      exact hv.2.symm

end Sys2Proof.Machine
end

section
/-! `DecodeUnit` against rule R185's pseudocode on numbers (spec/41_packet_framer.md): the record as numbers (`flatOf`),
one lemma for each step of the pseudocode, and O16. -/

namespace Sys2Proof.Machine
open Sys2Proof.Spec

variable {buf : List Host.Cell} {mode : PcrMode} {o cur : Nat} {b : Nat → Byte}

/-! ### A record as numbers -/

/-- A timestamp as a number: −1 as 64 bits when absent (rule R118). -/
def stampNumber : Option (BitVec 33) → Nat
  | none => 2 ^ 64 - 1
  | some t => t.toNat

/-- The fields of a record as numbers, those of an absent part as rules R132 to R137 fix them. -/
def flatOf (u : UnitRecord) : FlatRecord where
  sync := flag u.syncValid
  tei := flag u.tei
  pusi := flag u.pusi
  prio := flag u.prio
  sc := u.sc.toNat
  afcAf := flag u.afcAf
  afcPl := flag u.afcPl
  cc := u.cc.toNat
  teiHdr := flag u.teiHdr
  pid := u.pid.toNat
  afAttached := flag u.af.isSome
  pesAttached := flag u.pes.isSome
  payloadAttached := flag u.payload.isSome
  fieldSize := u.af.elim 0 (·.fieldSize.toNat)
  flags := u.af.elim 0 (·.flags.toNat)
  pcrValid := flag (u.af.bind (·.pcr)).isSome
  pcr := (u.af.bind (·.pcr)).elim 0 (·.toNat)
  startCode := u.pes.elim 0 (·.startCode.toNat)
  hdl := u.pes.elim 0 (·.hdl.toNat)
  ptsDts := u.pes.elim 0 (·.ptsDts.toNat)
  pts := stampNumber (u.pes.bind (·.pts))
  dts := stampNumber (u.pes.bind (·.dts))
  payOff := u.payload.elim 0 (·.off.toNat)
  payLen := u.payload.elim 0 (·.len.toNat)
  pesOff := u.pes.elim 0 (·.off.toNat)
  pesLen := u.pes.elim 0 (·.len.toNat)

theorem recordW1_toNat (af : Option AfPart) :
    (recordW1 af).toNat =
      af.elim 0 (·.fieldSize.toNat) + 256 * af.elim 0 (·.flags.toNat) + 2 ^ 16 * flag (af.bind (·.pcr)).isSome := by
  cases af with
  | none => rfl
  | some a =>
    simp only [recordW1, append_toNat, ofBool_toNat_eq_flag, BitVec.toNat_ofNat, Option.elim_some, Option.bind_some]
    omega

theorem recordPcr_toNat (af : Option AfPart) : (recordPcr af).toNat = (af.bind (·.pcr)).elim 0 (·.toNat) := by
  rw [recordPcr]
  cases af.bind (·.pcr) <;> rfl

theorem recordW4_toNat (pes : Option PesPart) :
    (recordW4 pes).toNat =
      pes.elim 0 (·.startCode.toNat) + 2 ^ 16 * pes.elim 0 (·.hdl.toNat) + 2 ^ 24 * pes.elim 0 (·.ptsDts.toNat) := by
  cases pes with
  | none => rfl
  | some p =>
    simp only [recordW4, append_toNat, BitVec.toNat_ofNat, Option.elim_some]
    omega

theorem timestampBits_toNat (t : Option (BitVec 33)) : (timestampBits t).toNat = stampNumber t := by
  cases t with
  | none => rfl
  | some t => exact BitVec.toNat_setWidth_of_le (by omega)

/-- A length and an offset in one half of W10 (rule R137). -/
theorem lenOff_toNat (len off : Byte) : (len ++ off : BitVec 16).toNat = off.toNat + 256 * len.toNat := by
  refine (append_toNat len off).trans ?_
  omega

theorem recordW10_toNat (pes : Option PesPart) (pay : Option PayloadPart) :
    (recordW10 pes pay).toNat =
      pay.elim 0 (·.off.toNat) + 256 * pay.elim 0 (·.len.toNat) + 2 ^ 16 * pes.elim 0 (·.off.toNat) +
        2 ^ 24 * pes.elim 0 (·.len.toNat) := by
  unfold recordW10
  rw [append_toNat]
  cases pes <;> cases pay <;>
    simp only [lenOff_toNat, BitVec.toNat_ofNat, Option.elim_some, Option.elim_none] <;> omega

/-- The low word of a value held in two words. -/
theorem low_word_toNat {n : Nat} (v : BitVec n) : (v.extractLsb' 0 32).toNat = v.toNat % 2 ^ 32 := by
  rw [extract_toNat, pow_zero, Nat.div_one]

/-- The rest of a value held in two words. -/
theorem high_part_toNat {n : Nat} (v : BitVec n) (len : Nat) (h : n ≤ 32 + len) :
    (v.extractLsb' 32 len).toNat = v.toNat / 2 ^ 32 := by
  rw [extract_toNat, Nat.mod_eq_of_lt]
  exact Nat.div_lt_of_lt_mul (lt_of_lt_of_le v.isLt (by rw [← pow_add]; exact Nat.pow_le_pow_right (by omega) h))

/-- The sixteen words of a record are those of its fields as numbers (rules R130 to R138). -/
theorem recordWords_toNat (u : UnitRecord) :
    (recordWords u).map BitVec.toNat = flatWords u.unitOffset.toNat (flatOf u) := by
  simp only [recordWords, List.map_cons, List.map_nil, zero_append_toNat, low_word_toNat,
    high_part_toNat (n := 64) (len := 32) (h := by omega), high_part_toNat (n := 42) (len := 10) (h := by omega),
    recordW0_toNat, recordW1_toNat, recordPcr_toNat, recordW4_toNat, timestampBits_toNat, recordW10_toNat]
  rfl

/-! ### The steps of rule R185 -/

theorem flatOf_unitHeaderRecord (o : Nat) (b : Nat → Byte) :
    flatOf (unitHeaderRecord o b) = unitHeader (fun j => (b j).toNat) := by
  have hsync : flag (b 0 == syncByte) = if (b 0).toNat = 0x47 then 1 else 0 := by
    simp only [flag, syncByte, beq_iff_eq, ← BitVec.toNat_inj, BitVec.toNat_ofNat, Nat.reducePow, Nat.reduceMod]
  have hpid : ((b 1).extractLsb' 0 5 ++ b 2 : Pid).toNat = (b 1).toNat % 32 * 256 + (b 2).toNat :=
    (append_toNat _ _).trans (by rw [extract_toNat_eq_bits]; simp only [bits]; omega)
  simp only [flatOf, unitHeaderRecord, headerRecord, unitHeader, flag_getLsbD, extract_toNat_eq_bits, hsync, hpid]
  rfl

/-- Step 4 (rules R214 and R215). -/
theorem flatOf_attachPayload (r : UnitRecord) (cur : Nat) :
    flatOf (attachPayload r cur) = withPayload cur (flatOf r) := by
  by_cases hc : cur < 188
  · have hoff : cur % 2 ^ 8 = cur := by omega
    have hlen : (188 - cur) % 2 ^ 8 = 188 - cur := by omega
    rw [attachPayload, if_pos hc, withPayload, if_pos (by omega)]
    simp only [flatOf, Option.elim_some, BitVec.toNat_ofNat, hoff, hlen]
    rfl
  · rw [attachPayload, if_neg hc, withPayload, if_neg (by omega)]
    rfl

/-- The test for the start code's three bytes (rule R201). -/
theorem pesPrefix_written (h : UnitWritten buf o b) (hc : cur + 2 < 188) :
    pesPrefix buf o cur =
      .ok (decide ((b cur).toNat = 0 ∧ (b (cur + 1)).toNat = 0 ∧ (b (cur + 2)).toNat = 1)) := by
  have hzero (x : Byte) : x = 0x00#8 ↔ x.toNat = 0 := by rw [← BitVec.toNat_inj]; rfl
  have hone (x : Byte) : x = 0x01#8 ↔ x.toNat = 1 := by rw [← BitVec.toNat_inj]; rfl
  simp only [pesPrefix, h cur (by omega), h (cur + 1) (by omega), h (cur + 2) hc, ok_bind, pure_ok, ne_eq, hzero]
  by_cases ha : (b cur).toNat = 0
  · by_cases hb : (b (cur + 1)).toNat = 0
    · simp [ha, hb, hone, beq_eq_decide]
    · simp [ha, hb]
  · simp [ha]

/-- A timestamp that was decoded is present, so its number is its value. -/
theorem map_stampNumber_some {x : Except FrameStop (BitVec 33)} :
    (do let t ← x; return some t : Except FrameStop (Option (BitVec 33))).map stampNumber = x.map BitVec.toNat := by
  cases x <;> rfl

/-- The PTS that flags of value `f` announce in the pseudocode (rules R207 and R118). -/
def ptsAt (b : Nat → Nat) (cur f : Nat) : Except (FrameErr × Bool) Nat :=
  if f = 2 then stampAt b (cur + 9) 2 false else if f = 3 then stampAt b (cur + 9) 3 false else .ok (2 ^ 64 - 1)

/-- The DTS that flags of value `f` announce in the pseudocode (rules R208 and R118). -/
def dtsAt (b : Nat → Nat) (cur f : Nat) : Except (FrameErr × Bool) Nat :=
  if f = 3 then stampAt b (cur + 14) 1 true else .ok (2 ^ 64 - 1)

theorem ptsField_written (h : UnitWritten buf o b) {f : BitVec 2} (hn : pesNeed f ≤ 188 - cur) :
    (ptsField buf o cur f).map stampNumber = (ptsAt (fun j => (b j).toNat) cur f.toNat).mapError (fatalOf o) := by
  have hstamp (hc : 14 ≤ 188 - cur) (code : BitVec 4) :
      (timestamp buf o (cur + 9) code false).map BitVec.toNat =
        (stampAt (fun j => (b j).toNat) (cur + 9) code.toNat false).mapError (fatalOf o) :=
    timestamp_eq_stampAt fun i hi => h _ (by omega)
  unfold ptsField ptsAt
  by_cases h2 : f = 0b10#2
  · subst h2
    exact map_stampNumber_some.trans (hstamp hn _)
  · by_cases h3 : f = 0b11#2
    · subst h3
      exact map_stampNumber_some.trans (hstamp (le_trans (by decide) hn) _)
    · have hf2 : f.toNat ≠ 2 := fun hf => h2 (BitVec.eq_of_toNat_eq hf)
      have hf3 : f.toNat ≠ 3 := fun hf => h3 (BitVec.eq_of_toNat_eq hf)
      rw [if_neg h2, if_neg h3, if_neg hf2, if_neg hf3]
      rfl

theorem dtsField_written (h : UnitWritten buf o b) {f : BitVec 2} (hn : pesNeed f ≤ 188 - cur) :
    (dtsField buf o cur f).map stampNumber = (dtsAt (fun j => (b j).toNat) cur f.toNat).mapError (fatalOf o) := by
  unfold dtsField dtsAt
  by_cases h3 : f = 0b11#2
  · subst h3
    have hroom : 19 ≤ 188 - cur := hn
    exact map_stampNumber_some.trans (timestamp_eq_stampAt fun i hi => h _ (by omega))
  · have hf3 : f.toNat ≠ 3 := fun hf => h3 (BitVec.eq_of_toNat_eq hf)
    rw [if_neg h3, if_neg hf3]
    rfl

/-- The bytes a PES header needs, as the pseudocode counts them (rule R206). -/
theorem pesNeed_eq (f : BitVec 2) : pesNeed f = 9 + (if f.toNat = 2 then 5 else if f.toNat = 3 then 10 else 0) := by
  revert f
  decide

/-- The PES header at byte `cur` of a written unit, with its timestamps (rule R210). -/
def unitPes (b : Nat → Byte) (cur : Nat) (pts dts : Option (BitVec 33)) : PesPart where
  startCode := 0x100#16 + (b (cur + 3)).setWidth 16
  hdl       := b (cur + 8)
  ptsDts    := (b (cur + 7)).extractLsb' 6 2
  pts       := pts
  dts       := dts
  off       := BitVec.ofNat 8 cur
  len       := BitVec.ofNat 8 (min (9 + (b (cur + 8)).toNat) (188 - cur))

/-- Rules R203 to R210 on a written unit. -/
theorem decodePes_written (h : UnitWritten buf o b) :
    decodePes buf o cur =
      if 188 - cur < 9 then .ok .short
      else if (b (cur + 7)).extractLsb' 6 2 = 1#2 then .error (.fatal .ptsDtsFlag false o)
      else if 188 - cur < pesNeed ((b (cur + 7)).extractLsb' 6 2) then .ok .short
      else do
        let pts ← ptsField buf o cur ((b (cur + 7)).extractLsb' 6 2)
        let dts ← dtsField buf o cur ((b (cur + 7)).extractLsb' 6 2)
        return .attached (unitPes b cur pts dts) := by
  unfold decodePes
  by_cases h9 : 188 - cur < 9
  · rw [if_pos h9, if_pos h9]
  · rw [if_neg h9, if_neg h9, h (cur + 7) (by omega), h (cur + 8) (by omega), h (cur + 3) (by omega)]
    rfl

/-- The pseudocode's test for a PES header at byte `cur` (rule R201). -/
abbrev StartsPes (b : Nat → Nat) (cur : Nat) (r : FlatRecord) : Prop :=
  r.pusi = 1 ∧ 188 - cur ≥ 3 ∧ b cur = 0 ∧ b (cur + 1) = 0 ∧ b (cur + 2) = 1

/-- The pseudocode past the start code (rules R203 to R210). -/
theorem unitFrom_of_startsPes {b : Nat → Nat} {r : FlatRecord} (h : StartsPes b cur r) :
    unitFrom b cur r =
      if 188 - cur < 9 then .ok { r with tei := 1 }
      else if bits (b (cur + 7)) 6 2 = 1 then .error (.ptsDtsFlag, false)
      else if 188 - cur <
          9 + (if bits (b (cur + 7)) 6 2 = 2 then 5 else if bits (b (cur + 7)) 6 2 = 3 then 10 else 0) then
        .ok { r with tei := 1 }
      else do
        let pts ← ptsAt b cur (bits (b (cur + 7)) 6 2)
        let dts ← dtsAt b cur (bits (b (cur + 7)) 6 2)
        return withPayload (cur + 9 + b (cur + 8))
          { r with pts := pts, dts := dts, pesAttached := 1, startCode := 0x100 + b (cur + 3), hdl := b (cur + 8),
                   ptsDts := bits (b (cur + 7)) 6 2, pesOff := cur, pesLen := min (9 + b (cur + 8)) (188 - cur) } := by
  rw [unitFrom, if_pos h]
  cases hp : ptsAt b cur (bits (b (cur + 7)) 6 2) with
  | error e =>
    unfold ptsAt at hp
    simp only [hp]
    rfl
  | ok pts =>
    unfold ptsAt at hp
    simp only [hp]
    cases hd : dtsAt b cur (bits (b (cur + 7)) 6 2) <;>
    · unfold dtsAt at hd
      simp only [hd]
      rfl

theorem flatOf_attachPes_unitPes (r : UnitRecord) (x y : Option (BitVec 33)) (hc : cur < 188) :
    flatOf (attachPes r cur (.attached (unitPes b cur x y))) =
      withPayload (cur + 9 + (b (cur + 8)).toNat)
        { flatOf r with
          pts := stampNumber x, dts := stampNumber y, pesAttached := 1, startCode := 0x100 + (b (cur + 3)).toNat,
          hdl := (b (cur + 8)).toNat, ptsDts := bits (b (cur + 7)).toNat 6 2, pesOff := cur,
          pesLen := min (9 + (b (cur + 8)).toNat) (188 - cur) } := by
  have hcode : (0x100#16 + (b (cur + 3)).setWidth 16).toNat = 0x100 + (b (cur + 3)).toNat := by
    rw [BitVec.toNat_add, BitVec.toNat_setWidth, BitVec.toNat_ofNat]
    omega
  have hoff : cur % 2 ^ 8 = cur := by omega
  have hlen : min (9 + (b (cur + 8)).toNat) (188 - cur) % 2 ^ 8 = min (9 + (b (cur + 8)).toNat) (188 - cur) := by omega
  rw [attachPes, flatOf_attachPayload]
  simp only [unitPes, flatOf, Option.elim_some, Option.bind_some, BitVec.toNat_ofNat, extract_toNat_eq_bits, hcode,
    hoff, hlen]
  rfl

/-- The record with a PES header attached, and the payload behind it (rules R210 to R215). -/
theorem decodePes_eq_unitFrom (h : UnitWritten buf o b) {r : UnitRecord}
    (hstart : StartsPes (fun j => (b j).toNat) cur (flatOf r)) :
    ((decodePes buf o cur).map (attachPes r cur)).map flatOf =
      (unitFrom (fun j => (b j).toNat) cur (flatOf r)).mapError (fatalOf o) := by
  have hf : ((b (cur + 7)).extractLsb' 6 2).toNat = bits (b (cur + 7)).toNat 6 2 := extract_toNat_eq_bits ..
  have h1 : (b (cur + 7)).extractLsb' 6 2 = 1#2 ↔ bits (b (cur + 7)).toNat 6 2 = 1 := by
    rw [← BitVec.toNat_inj, hf]; rfl
  rw [unitFrom_of_startsPes hstart, decodePes_written h, ← hf, ← pesNeed_eq, hf]
  by_cases h9 : 188 - cur < 9
  · rw [if_pos h9, if_pos h9]
    rfl
  by_cases hflag : bits (b (cur + 7)).toNat 6 2 = 1
  · rw [if_neg h9, if_neg h9, if_pos hflag, if_pos (h1.2 hflag)]
    rfl
  by_cases hn : 188 - cur < pesNeed ((b (cur + 7)).extractLsb' 6 2)
  · rw [if_neg h9, if_neg h9, if_neg hflag, if_neg (h1.not.2 hflag), if_pos hn, if_pos hn]
    rfl
  rw [if_neg h9, if_neg h9, if_neg hflag, if_neg (h1.not.2 hflag), if_neg hn, if_neg hn]
  have hpts := ptsField_written h (Nat.le_of_not_lt hn)
  have hdts := dtsField_written h (Nat.le_of_not_lt hn)
  rw [hf] at hpts hdts
  simp only [except_map_bind]
  refine bind_eq_mapError_bind hpts fun x => bind_eq_mapError_bind hdts fun y => ?_
  exact congrArg Except.ok (flatOf_attachPes_unitPes r x y (by omega))

theorem flag_eq_one (x : Bool) : flag x = 1 ↔ x = true := by cases x <;> decide

theorem flag_eq_zero (x : Bool) : flag x = 0 ↔ x = false := by cases x <;> decide

/-- Steps 3 and 4 (rules R200 to R215). -/
theorem bodyFrom_eq_unitFrom (h : UnitWritten buf o b) (r : UnitRecord) :
    (bodyFrom buf o cur r).map flatOf =
      (unitFrom (fun j => (b j).toNat) cur (flatOf r)).mapError (fatalOf o) := by
  have habsent (hno : ¬ StartsPes (fun j => (b j).toNat) cur (flatOf r)) :
      (unitFrom (fun j => (b j).toNat) cur (flatOf r)).mapError (fatalOf o) = .ok (flatOf (attachPayload r cur)) := by
    rw [unitFrom, if_neg hno, flatOf_attachPayload]
    rfl
  unfold bodyFrom probePes
  by_cases hprobe : (r.pusi && decide (188 - cur ≥ 3)) = true
  · rw [if_pos hprobe]
    simp only [Bool.and_eq_true, decide_eq_true_eq] at hprobe
    obtain ⟨hpusi, hroom⟩ := hprobe
    rw [pesPrefix_written h (by omega), ok_bind]
    by_cases hpre : (b cur).toNat = 0 ∧ (b (cur + 1)).toNat = 0 ∧ (b (cur + 2)).toNat = 1
    · rw [if_pos (decide_eq_true hpre)]
      exact decodePes_eq_unitFrom h ⟨(flag_eq_one _).2 hpusi, hroom, hpre⟩
    · rw [if_neg (by simpa using hpre), habsent fun hno => hpre hno.2.2]
      rfl
  · rw [if_neg hprobe, habsent fun ⟨hpusi, hroom, _⟩ =>
      hprobe (by simp only [(flag_eq_one _).1 hpusi, hroom, decide_true, Bool.and_self])]
    rfl

/-- The record with the adaptation field that step 2 attaches (rules R190 to R196). -/
theorem flatOf_unitAf (mode : PcrMode) {r : UnitRecord} (haf : r.af = none) (hl : (b 4).toNat < 183) :
    flatOf { r with af := some (unitAf mode b) } =
      if bits (if (b 4).toNat ≥ 1 then (b 5).toNat else 0) 4 1 = 1 ∧ (b 4).toNat ≥ 7 then
        { flatOf r with
          afAttached := 1, fieldSize := (b 4).toNat + 1, flags := if (b 4).toNat ≥ 1 then (b 5).toNat else 0,
          pcr := pcrValue (modeNumber mode) (b 6).toNat (b 7).toNat (b 8).toNat (b 9).toNat (b 10).toNat (b 11).toNat,
          pcrValid := 1 }
      else
        { flatOf r with
          afAttached := 1, fieldSize := (b 4).toNat + 1, flags := if (b 4).toNat ≥ 1 then (b 5).toNat else 0 } := by
  have hflags : (unitAf mode b).flags.toNat = if (b 4).toNat ≥ 1 then (b 5).toNat else 0 := by
    simp only [unitAf, ge_iff_le]
    split <;> rfl
  have hbit : bits (unitAf mode b).flags.toNat 4 1 = 1 ↔ 1 ≤ (b 4).toNat ∧ (b 5).getLsbD 4 = true := by
    rw [← flag_getLsbD, flag_eq_one]
    simp only [unitAf]
    split <;> simp [*]
  rw [← hflags]
  have hsize := unitAf_fieldSize mode hl
  by_cases hpcr : bits (unitAf mode b).flags.toNat 4 1 = 1 ∧ (b 4).toNat ≥ 7
  · have hval : (unitAf mode b).pcr = some (pcrRebuild mode (b 6) (b 7) (b 8) (b 9) (b 10) (b 11)) :=
      if_pos (by rw [← and_assoc, ← hbit]; exact hpcr)
    rw [if_pos hpcr]
    simp only [flatOf, Option.elim_some, Option.bind_some, hsize, hval, pcrRebuild_toNat]
    rfl
  · have hval : (unitAf mode b).pcr = none := if_neg (by rw [← and_assoc, ← hbit]; exact hpcr)
    rw [if_neg hpcr]
    simp only [flatOf, Option.elim_some, Option.bind_some, hsize, hval, haf]
    rfl

/-- The gate on the header's numbers (rule R187). -/
theorem gated_iff_flat (r : UnitRecord) :
    gated r = true ↔ (flatOf r).afcPl = 1 ∧ (flatOf r).teiHdr = 0 ∧ (flatOf r).pid ≠ 0x1FFF := by
  simp only [gated, flatOf, flag_eq_one, flag_eq_zero, Bool.and_eq_true, Bool.not_eq_true', bne_iff_ne, ne_eq,
    ← BitVec.toNat_inj, nullPid_toNat, and_assoc]

/-- `DecodeUnit` on a written unit is the pseudocode (rule R185). -/
theorem decodeUnit_eq_unitRecord (h : UnitWritten buf o b) :
    (decodeUnit buf mode o).map flatOf =
      (unitRecord (fun j => (b j).toNat) (modeNumber mode)).mapError (fatalOf o) := by
  rw [decodeUnit_written h, unitRecord, ← flatOf_unitHeaderRecord o]
  simp only [← gated_iff_flat]
  have hafIff : (flatOf (unitHeaderRecord o b)).afcAf = 1 ↔ (unitHeaderRecord o b).afcAf = true := flag_eq_one _
  by_cases hgate : gated (unitHeaderRecord o b) = true
  · rw [if_pos hgate, if_neg (not_not_intro hgate), decodeBody_written h]
    by_cases haf : (unitHeaderRecord o b).afcAf = true
    · rw [if_pos haf, if_pos (hafIff.2 haf)]
      by_cases hl : 183 ≤ (b 4).toNat
      · rw [if_pos hl, if_pos (by omega)]
        rfl
      · rw [if_neg hl, if_neg (by omega), bodyFrom_eq_unitFrom h, flatOf_unitAf mode rfl (by omega)]
    · rw [if_neg haf, if_neg (hafIff.not.2 haf), bodyFrom_eq_unitFrom h]
  · rw [if_neg hgate, if_pos hgate]
    rfl

/-! ### The obligation -/

/-- Settles O16: the model's record as numbers is the pseudocode's (`decodeUnit_eq_unitRecord`), and the words of a
record are those of its numbers (`recordWords_toNat`). -/
theorem decodeUnitMeetsPseudocode : Obligations.DecodeUnitMeetsPseudocode := by
  unfold Obligations.DecodeUnitMeetsPseudocode
  intro buf mode o b ho hb
  have heq := decodeUnit_eq_unitRecord (mode := mode) fun j hj => unitByte_ok.2 (hb j hj)
  cases hr : unitRecord (fun j => (b j).toNat) (modeNumber mode) with
  | error e =>
    rw [hr] at heq
    exact eq_error_of_map_eq heq
  | ok r =>
    rw [hr] at heq
    obtain ⟨u, hu, rfl⟩ := exists_ok_of_map_eq heq
    obtain ⟨b0, b1, b2, b3, -, -, -, -, ⟨-, -, -, -, -, -, -, -, -, hoff⟩, -⟩ := decodeUnit_header hu
    have hoffset : u.unitOffset.toNat = o := by
      rw [hoff, headerRecord, BitVec.toNat_ofNat, Nat.mod_eq_of_lt (by omega)]
    exact ⟨u, hu, (recordWords_toNat u).trans (by rw [hoffset])⟩

end Sys2Proof.Machine
end

section
/-! The packet commands in the spec's words: when an AddPacket step must wait, and the state ADD_PACKET and DISPATCH
leave when it need not (rules R240 to R248, R256 and R258): O24, O25 and O37. -/

namespace Sys2Proof.Machine
open Sys2Proof.Spec

variable {s : State} {k : BitVec 12} {r : RecView} {e : Metric} {p : Pid}

/-! ### The spec's conditions -/

/-- The next counter mod 16 (rule R252). -/
theorem cc_eq_next_iff (c last : BitVec 4) : c = last + 1 ↔ c.toNat = (last.toNat + 1) % 16 := by
  rw [← BitVec.toNat_inj, BitVec.toNat_add]
  rfl

theorem ccOutcome_eq_discontinuity_iff (htei : r.tei = false) :
    ccOutcome r.pid r e = .discontinuity ↔ Discontinuous r e := by
  rw [ccOutcome_discontinuity, Discontinuous, (cc_eq_next_iff r.cc e.lastCc).ne]
  exact (and_iff_right htei).symm

theorem notifies_iff_discontinuous : notifies r.pid r e = true ↔ Discontinuous r e := by
  rw [notifies, Bool.and_eq_true, Bool.not_eq_true', beq_iff_eq]
  exact ⟨fun ⟨htei, ho⟩ => (ccOutcome_eq_discontinuity_iff htei).1 ho,
    fun h => ⟨h.1, (ccOutcome_eq_discontinuity_iff h.1).2 h⟩⟩

theorem packetHeld_iff_mustWait : packetHeld r.pid r s = true ↔ MustWait s r := by
  rw [packetHeld, pushes, Bool.and_eq_true, Bool.and_eq_true, decide_eq_true_iff, notifies_iff_discontinuous, MustWait,
    and_assoc, and_comm (a := Discontinuous _ _)]

/-- Only a discontinuity can be made to wait (rule R256). -/
theorem not_mustWait_of_not_discontinuous (h : ¬ Discontinuous r (s.metric r.pid)) : ¬ MustWait s r :=
  fun ⟨_, _, hd⟩ => h hd

/-- A TEI packet is never compared (rule R248). -/
theorem not_discontinuous_of_tei (h : r.tei = true) : ¬ Discontinuous r e := by
  rintro ⟨htei, -⟩
  rw [h] at htei
  cases htei

/-! ### What the commands go on to -/

theorem slotInRange_of_holds (h : Holds s k r) : slotInRange s.cfg k = true := decide_eq_true h.1

/-- ADD_PACKET on a held record: the packet command of its own PID, or a usage error (rule R240). -/
theorem exec_addPacket_of_holds (h : Holds s k r) (p : Pid) :
    exec (.addPacket k p) s =
      if r.pid = p then .next (packetCommand (encode (.addPacket k p)) p r s) else .next (complete (usageError s)) := by
  rw [exec, execAddPacket, if_pos (slotInRange_of_holds h), h.2]
  rfl

theorem exec_dispatch_of_holds (h : Holds s k r) :
    exec (.dispatch k) s = .next (packetCommand (encode (.dispatch k)) r.pid r s) := by
  rw [exec, execDispatch, if_pos (slotInRange_of_holds h), h.2]
  rfl

theorem packetCommand_of_not_mustWait (h : ¬ MustWait s r) (w : Word) :
    packetCommand w r.pid r s = complete (addPacket r.pid r s) :=
  if_neg (packetHeld_iff_mustWait.not.2 h)

/-- Rules R241 and R259: ADD_PACKET with the record's PID and DISPATCH both take the one AddPacket step and complete. -/
theorem bothGoTo_complete_addPacket (h : Holds s k r) (hw : ¬ MustWait s r) :
    BothGoTo s k r (complete (addPacket r.pid r s)) := by
  refine ⟨?addPacket, ?dispatch⟩
  case addPacket => rw [exec_addPacket_of_holds h, if_pos rfl, packetCommand_of_not_mustWait hw]
  case dispatch => rw [exec_dispatch_of_holds h, packetCommand_of_not_mustWait hw]

@[simp] theorem complete_metric (s : State) (p : Pid) : (complete s).metric p = s.metric p := rfl

/-- Rule R255: the FIFO after the step. -/
theorem addPacket_fifo (p : Pid) (r : RecView) (s : State) :
    (addPacket p r s).fifo = if pushes p r s then s.fifo ++ [p] else s.fifo := by
  rw [addPacket_eq]

/-- Only a discontinuity makes an event (rule R255). -/
theorem addPacket_fifo_of_not_discontinuous (h : ¬ Discontinuous r (s.metric r.pid)) :
    (addPacket r.pid r s).fifo = s.fifo := by
  have hpush : ¬ pushes r.pid r s = true := by
    rw [pushes, Bool.and_eq_true, notifies_iff_discontinuous]
    exact fun hp => h hp.2
  rw [addPacket_fifo, if_neg hpush]

/-! ### What every packet does to its entry -/

/-- Rule R247: every packet counts once. -/
theorem packetMetric_counts (p : Pid) (r : RecView) (ws : U64) (e : Metric) :
    (packetMetric p r ws e).pkt = e.pkt + 1 ∧ (packetMetric p r ws e).winPkt = e.winPkt + 1 := by
  cases htei : r.tei
  · rw [packetMetric_notTei htei]
    cases eligible r <;> simp [recordCc, pcrStep_eq, applyCc_eq, countPacket]
  · rw [packetMetric_tei htei]
    exact ⟨rfl, rfl⟩

/-- Rule R246. -/
theorem packetMetric_observed (p : Pid) (r : RecView) (ws : U64) (e : Metric) :
    (packetMetric p r ws e).observed = true := by
  obtain ⟨-, -, -, -, -, hobs⟩ := packetMetric_frame p r ws e
  exact hobs

/-- Rule R257: a packet that is not a TEI packet leaves its counter, valid. -/
theorem packetMetric_lastCc (htei : r.tei = false) (p : Pid) (ws : U64) (e : Metric) :
    (packetMetric p r ws e).lastCc = r.cc ∧ (packetMetric p r ws e).ccValid = true := by
  rw [packetMetric_notTei htei]
  exact ⟨rfl, rfl⟩

/-! ### The obligations -/

/-- Settles O37: the record is there and is of another PID, which is ADD_PACKET's usage error. -/
theorem usageErrorOnPidMismatch : Obligations.UsageErrorOnPidMismatch := by
  unfold Obligations.UsageErrorOnPidMismatch
  intro s k r p hk hp
  rw [exec_addPacket_of_holds hk, if_neg hp]
  rfl

/-- Settles O24: both commands take the AddPacket step (`bothGoTo_complete_addPacket`), whose entry every packet
observes and counts. -/
theorem packetIsCounted : Obligations.PacketIsCounted := by
  unfold Obligations.PacketIsCounted
  intro s k r hk hw
  refine ⟨_, bothGoTo_complete_addPacket hk hw, rfl, ?_⟩
  rw [complete_metric, addPacket_metric_same]
  obtain ⟨hpkt, hwin⟩ := packetMetric_counts r.pid r (scaleWall s.cfg s.wall) (s.metric r.pid)
  exact ⟨packetMetric_observed .., hpkt, hwin, fun htei => packetMetric_lastCc htei ..⟩

/-- Settles O25: a TEI packet is no discontinuity, so it neither waits nor makes an event, and its entry is the one
`packetMetric_tei` gives. -/
theorem teiPacketOnlyCounts : Obligations.TeiPacketOnlyCounts := by
  unfold Obligations.TeiPacketOnlyCounts
  intro s k r hk htei
  have hd : ¬ Discontinuous r (s.metric r.pid) := not_discontinuous_of_tei htei
  refine ⟨_, bothGoTo_complete_addPacket hk (not_mustWait_of_not_discontinuous hd),
    addPacket_fifo_of_not_discontinuous hd, ?_⟩
  rw [complete_metric, addPacket_metric_same, packetMetric_tei htei]
  rfl

end Sys2Proof.Machine
end

section
/-! The continuity check: the outcome of a compared counter, what each outcome does to the entry, and the rebase of a
discontinuity (rules R249 to R254): O26, O27, O28 and O30. -/

namespace Sys2Proof.Machine
open Sys2Proof.Spec

variable {s : State} {k : BitVec 12} {r : RecView} {e : Metric} {p : Pid} {ws : U64}

/-! ### The PCR conditions and the wall sample -/

theorem hasPcr_iff_carriesPcr : hasPcr r = true ↔ CarriesPcr r := by
  rw [hasPcr, Bool.and_eq_true, Bool.and_eq_true, and_assoc, CarriesPcr]

theorem eligible_iff : eligible r = true ↔ Eligible r := by
  rw [eligible, Bool.and_eq_true, Bool.not_eq_true', hasPcr_iff_carriesPcr, Eligible]

/-- Rule R280. -/
theorem scaleWall_toNat (s : State) : (scaleWall s.cfg s.wall).toNat = scaled s :=
  BitVec.toNat_ofNat ..

/-! ### The outcome of the check -/

/-- Rules R249 and R250. -/
theorem ccOutcome_notChecked (h : e.ccValid = false ∨ p = 0x1FFF#13) (r : RecView) :
    ccOutcome p r e = .notChecked := by
  refine if_pos ?_
  rcases h with hcc | hp
  · simp [hcc]
  · simp [hp, nullPid]

/-- A counter that is compared: the null PID and a missing last counter are out of the way. -/
theorem ccOutcome_compared (hp : p ≠ 0x1FFF#13) (hcc : e.ccValid = true) (r : RecView) :
    ccOutcome p r e =
      if r.cc = e.lastCc then (if r.afcPl then .duplicate else .repeated)
      else if r.cc = e.lastCc + 1 then .inSequence else .discontinuity := by
  refine if_neg ?_
  simp [hcc, nullPid, hp]

/-- Rule R251, with payload. -/
theorem ccOutcome_duplicate (hp : p ≠ 0x1FFF#13) (hcc : e.ccValid = true) (h : r.cc = e.lastCc)
    (hpl : r.afcPl = true) : ccOutcome p r e = .duplicate := by
  rw [ccOutcome_compared hp hcc, if_pos h, if_pos hpl]

/-- Rule R251, without payload. -/
theorem ccOutcome_repeated (hp : p ≠ 0x1FFF#13) (hcc : e.ccValid = true) (h : r.cc = e.lastCc)
    (hpl : r.afcPl = false) : ccOutcome p r e = .repeated := by
  rw [ccOutcome_compared hp hcc, if_pos h, if_neg (by simp [hpl])]

/-- Rule R252: the next counter is never the last one, so the equal test (D26) does not take it. -/
theorem ccOutcome_inSequence (hp : p ≠ 0x1FFF#13) (hcc : e.ccValid = true)
    (h : r.cc.toNat = (e.lastCc.toNat + 1) % 16) : ccOutcome p r e = .inSequence := by
  have hne : r.cc ≠ e.lastCc := by
    intro heq
    rw [heq] at h
    omega
  rw [ccOutcome_compared hp hcc, if_neg hne, if_pos ((cc_eq_next_iff ..).2 h)]

/-! ### The entry after the check -/

/-- The entry of a packet that is not a TEI packet, but for PCR state: counted, its counter recorded, and one more
continuity error if its outcome is one (rules R251 to R253). -/
def ccCounted (o : CcOutcome) (r : RecView) (e : Metric) : Metric :=
  if o = .duplicate ∨ o = .discontinuity then plusCcError (counted r e) else counted r e

/-- The PCR step writes PCR state only, whatever entry it starts from (rule R282). -/
theorem pcrStep_withPcrStateOf (pcr : Pcr) (ws : U64) (e : Metric) :
    pcrStep pcr ws e = withPcrStateOf (pcrStep pcr ws e) e := by
  rw [pcrStep_eq]
  rfl

/-- The check, with the counter recorded after it, makes `ccCounted` of the entry and otherwise writes PCR state only. -/
theorem recordCc_applyCc (o : CcOutcome) (r : RecView) (ws : U64) (e : Metric) :
    recordCc r (applyCc o r ws (countPacket e)) =
      withPcrStateOf (applyCc o r ws (countPacket e)) (ccCounted o r e) := by
  rw [applyCc_eq]
  cases o <;> rfl

/-- Rule R245 but for PCR state: `ccCounted` of the packet's outcome is what a packet makes of its entry. -/
theorem packetMetric_eq_ccCounted (htei : r.tei = false) (p : Pid) (ws : U64) (e : Metric) :
    packetMetric p r ws e = withPcrStateOf (packetMetric p r ws e) (ccCounted (ccOutcome p r e) r e) := by
  rw [packetMetric_notTei htei]
  split
  · rw [pcrStep_withPcrStateOf]
    exact congrArg (withPcrStateOf _) (recordCc_applyCc ..)
  · exact recordCc_applyCc ..

/-- Without a rebase and without a PCR step the entry is `ccCounted`, PCR state included (rules R254 and R281). -/
theorem packetMetric_ineligible (htei : r.tei = false) (ho : ccOutcome p r e ≠ .discontinuity) (hel : ¬ Eligible r) :
    packetMetric p r ws e = ccCounted (ccOutcome p r e) r e := by
  rw [packetMetric_notTei htei, if_neg (eligible_iff.not.2 hel), applyCc_eq]
  cases h : ccOutcome p r e with
  | discontinuity => exact absurd h ho
  | _ => rfl

/-- A packet that is neither a TEI packet nor a discontinuity: it completes without an event, and its entry is
`ccCounted` of its outcome, but for the PCR state an eligible record may write. -/
theorem quietPacket (hk : Holds s k r) (htei : r.tei = false) {o : CcOutcome}
    (ho : ccOutcome r.pid r (s.metric r.pid) = o) (hquiet : o ≠ .discontinuity) :
    ∃ t, BothGoTo s k r t ∧ t.fifo = s.fifo ∧
      t.metric r.pid = withPcrStateOf (t.metric r.pid) (ccCounted o r (s.metric r.pid)) ∧
      (¬ Eligible r → t.metric r.pid = ccCounted o r (s.metric r.pid)) := by
  subst ho
  have hd : ¬ Discontinuous r (s.metric r.pid) := (ccOutcome_eq_discontinuity_iff htei).not.1 hquiet
  refine ⟨_, bothGoTo_complete_addPacket hk (not_mustWait_of_not_discontinuous hd),
    addPacket_fifo_of_not_discontinuous hd, ?_⟩
  rw [complete_metric, addPacket_metric_same]
  exact ⟨packetMetric_eq_ccCounted htei .., packetMetric_ineligible htei hquiet⟩

/-! ### The rebase -/

/-- The entry a discontinuity leaves before its PCR step: counted, one error, and rebased (rules R253 and R254). -/
def rebased (r : RecView) (ws : U64) (e : Metric) : Metric := rebase r ws (ccError (countPacket e))

theorem packetMetric_discontinuity (h : Discontinuous r e) (ws : U64) :
    packetMetric r.pid r ws e =
      recordCc r (if eligible r then pcrStep r.pcr ws (rebased r ws e) else rebased r ws e) := by
  rw [packetMetric_notTei h.1, (ccOutcome_eq_discontinuity_iff h.1).2 h]
  rfl

theorem rebased_of_carriesPcr (h : CarriesPcr r) (ws : U64) (e : Metric) :
    rebased r ws e = setReference r.pcr ws (ccError (countPacket e)) := if_pos (hasPcr_iff_carriesPcr.2 h)

theorem rebased_of_not_carriesPcr (h : ¬ CarriesPcr r) (ws : U64) (e : Metric) :
    rebased r ws e = clearReference (ccError (countPacket e)) := if_neg (hasPcr_iff_carriesPcr.not.2 h)

/-- A PCR step keeps a reference pair that is set (rules R284 and R291). -/
theorem pcrStep_keeps_reference (h : e.refValid = true) (pcr : Pcr) (ws : U64) :
    (pcrStep pcr ws e).refValid = true ∧ (pcrStep pcr ws e).refPcr = e.refPcr ∧
    (pcrStep pcr ws e).refWall = e.refWall := by
  rw [pcrStep_eq]
  exact ⟨rfl, if_pos h, if_pos h⟩

/-- Rule R254 with a PCR: the pair is this PCR and this wall sample, whether a PCR step follows or not. -/
theorem packetMetric_rebased_reference (h : Discontinuous r e) (hpcr : CarriesPcr r) (ws : U64) :
    (packetMetric r.pid r ws e).refValid = true ∧ (packetMetric r.pid r ws e).refPcr = r.pcr ∧
    (packetMetric r.pid r ws e).refWall = ws := by
  rw [packetMetric_discontinuity h, rebased_of_carriesPcr hpcr]
  split
  · exact pcrStep_keeps_reference rfl r.pcr ws
  · exact ⟨rfl, rfl, rfl⟩

/-- Without eligibility no PCR step follows the rebase (rules R281 and R292). -/
theorem packetMetric_discontinuity_ineligible (h : Discontinuous r e) (hel : ¬ Eligible r) (ws : U64) :
    packetMetric r.pid r ws e = recordCc r (rebased r ws e) := by
  rw [packetMetric_discontinuity h, if_neg (eligible_iff.not.2 hel)]

/-- The rebase writes the reference pair and no other PCR state (rule R254). -/
theorem rebased_frame (r : RecView) (ws : U64) (e : Metric) :
    (rebased r ws e).lastPcr = e.lastPcr ∧ (rebased r ws e).lastPcrValid = e.lastPcrValid ∧
    (rebased r ws e).pcrPresent = e.pcrPresent ∧ (rebased r ws e).winMaxDelta = e.winMaxDelta ∧
    (rebased r ws e).winMaxDrift = e.winMaxDrift := by
  by_cases h : CarriesPcr r
  · rw [rebased_of_carriesPcr h]
    exact ⟨rfl, rfl, rfl, rfl, rfl⟩
  · rw [rebased_of_not_carriesPcr h]
    exact ⟨rfl, rfl, rfl, rfl, rfl⟩

/-! ### The obligations -/

/-- Settles O26: the outcome is that no comparison is made. -/
theorem firstOrNullPacketIsNotCompared : Obligations.FirstOrNullPacketIsNotCompared := by
  unfold Obligations.FirstOrNullPacketIsNotCompared
  intro s k r hk htei hfree
  exact quietPacket hk htei (ccOutcome_notChecked hfree r) (by decide)

/-- Settles O27: the outcome is a duplicate on a packet with payload and a tolerated repeat on one without. -/
theorem repeatedCounter : Obligations.RepeatedCounter := by
  unfold Obligations.RepeatedCounter
  intro s k r hk htei hp hcc hrep
  cases hpl : r.afcPl with
  | true => exact quietPacket hk htei (ccOutcome_duplicate hp hcc hrep hpl) (by decide)
  | false => exact quietPacket hk htei (ccOutcome_repeated hp hcc hrep hpl) (by decide)

/-- Settles O28: the outcome is in sequence, 15 to 0 included. -/
theorem inSequenceCounter : Obligations.InSequenceCounter := by
  unfold Obligations.InSequenceCounter
  intro s k r hk htei hp hcc hnext
  exact quietPacket hk htei (ccOutcome_inSequence hp hcc hnext) (by decide)

/-- Settles O30: a PCR step that follows the rebase keeps the pair it set, and without a PCR, or with DISC = 1, none
follows. -/
theorem discontinuityRebases : Obligations.DiscontinuityRebases := by
  unfold Obligations.DiscontinuityRebases
  intro s k r hk hd hw
  refine ⟨_, bothGoTo_complete_addPacket hk hw, ?_⟩
  rw [complete_metric, addPacket_metric_same]
  refine ⟨fun hpcr => ?carries, fun hpcr => ?without, fun hel => ?ineligible⟩
  case carries =>
    obtain ⟨hvalid, href, hwall⟩ := packetMetric_rebased_reference hd hpcr (scaleWall s.cfg s.wall)
    exact ⟨hvalid, href, by rw [hwall, scaleWall_toNat]⟩
  case without =>
    rw [packetMetric_discontinuity_ineligible hd fun hel => hpcr hel.1, rebased_of_not_carriesPcr hpcr]
    exact ⟨rfl, rfl, rfl⟩
  case ineligible =>
    rw [packetMetric_discontinuity_ineligible hd hel]
    exact rebased_frame r (scaleWall s.cfg s.wall) (s.metric r.pid)

end Sys2Proof.Machine
end

section
/-! The PCR step: the delta and the drift as numbers, what the step makes of an entry with and without a reference
pair, and the PCR state a packet leaves (rules R280 to R291): O31 to O34. -/

namespace Sys2Proof.Machine
open Sys2Proof.Spec

variable {s : State} {k : BitVec 12} {r : RecView} {e : Metric} {o : CcOutcome}

/-! ### The delta and the drift as numbers -/

/-- Rule R285. -/
theorem pcrDelta_toNat (pcr last : Pcr) :
    (pcrDelta pcr last).toNat = (pcr.toNat + 2 ^ 64 - last.toNat) % 2 ^ 64 := by
  rw [pcrDelta]
  bv_omega

/-- The wrapped subtraction of two words, read as signed (rules R286 to R288). -/
theorem toInt_sub_eq_signed64 (x y : U64) : (x - y).toInt = signed64 ((x.toNat : Int) - y.toNat) := by
  rw [signed64, BitVec.toInt_sub, BitVec.toInt_eq_toNat_bmod, BitVec.toInt_eq_toNat_bmod, Int.sub_bmod_bmod,
    Int.bmod_sub_bmod]

/-- The difference of two PCRs fits a signed word (rule R286). -/
theorem pcr_sub_toInt (pcr ref : Pcr) :
    (pcr.setWidth 64 - ref.setWidth 64 : U64).toInt = (pcr.toNat : Int) - ref.toNat := by
  rw [toInt_sub_eq_signed64, signed64]
  have hpcr := pcr.isLt
  have href := ref.isLt
  simp only [BitVec.toNat_setWidth]
  rw [Int.bmod_eq_of_le] <;> omega

/-- Rules R286 to R288: the model's drift is the spec's. -/
theorem pcrDrift_eq_driftOf (pcr : Pcr) (ws : U64) (e : Metric) :
    pcrDrift pcr e.refPcr ws e.refWall = driftOf pcr ws.toNat e := by
  rw [pcrDrift, BitVec.toInt_sub, pcr_sub_toInt, toInt_sub_eq_signed64]
  rfl

/-- A drift's magnitude fits a word (rule R289). -/
theorem pcrDrift_natAbs_toNat (pcr ref : Pcr) (ws wall : U64) :
    (BitVec.ofNat 64 (pcrDrift pcr ref ws wall).natAbs).toNat = (pcrDrift pcr ref ws wall).natAbs := by
  rw [BitVec.toNat_ofNat]
  apply Nat.mod_eq_of_lt
  rw [pcrDrift]
  generalize ws - wall - (pcr.setWidth 64 - ref.setWidth 64) = x
  have hle := Int.natAbs_tdiv_le_natAbs x.toInt pcrTicksPerMs
  have hlt := BitVec.toInt_lt (x := x)
  have hge := BitVec.le_toInt (x := x)
  omega

/-! ### The PCR step -/

/-- Rule R283. -/
theorem pcrStep_first (h : e.refValid = false) (pcr : Pcr) (ws : U64) :
    pcrStep pcr ws e = recordPcrSeen pcr (setReference pcr ws e) := by
  rw [pcrStep, if_neg (by simp [h])]

/-- Rule R285: the delta enters the window's maximum, if there is a last PCR. -/
theorem pcrStep_winMaxDelta_toNat (h : e.refValid = true) (pcr : Pcr) (ws : U64) :
    (pcrStep pcr ws e).winMaxDelta.toNat = deltaAfter pcr e := by
  simp only [pcrStep_eq, deltaAfter, h, Bool.true_and]
  split
  · rw [umax_toNat, pcrDelta_toNat]
  · rfl

/-- Rule R289: the drift's magnitude enters the window's maximum. -/
theorem pcrStep_winMaxDrift_toNat (h : e.refValid = true) (pcr : Pcr) (ws : U64) :
    (pcrStep pcr ws e).winMaxDrift.toNat = max e.winMaxDrift.toNat (driftOf pcr ws.toNat e).natAbs := by
  simp only [pcrStep_eq, h, if_true]
  rw [umax_toNat, pcrDrift_natAbs_toNat, pcrDrift_eq_driftOf]

/-- Against a pair that is this PCR and this wall sample there is no drift (rule R291). -/
theorem driftOf_setReference (pcr : Pcr) (ws : U64) (e : Metric) :
    driftOf pcr ws.toNat (setReference pcr ws e) = 0 := by
  simp [driftOf, setReference, signed64]

/-- Rule R291: a PCR step right after the pair was set to its own PCR and wall sample leaves the largest drift alone. -/
theorem pcrStep_setReference_winMaxDrift (pcr : Pcr) (ws : U64) (e : Metric) :
    (pcrStep pcr ws (setReference pcr ws e)).winMaxDrift = e.winMaxDrift := by
  apply BitVec.eq_of_toNat_eq
  rw [pcrStep_winMaxDrift_toNat rfl, driftOf_setReference]
  exact Nat.max_zero _

/-! ### The PCR state a packet leaves -/

/-- What the PCR step makes of an entry's PCR state depends on that PCR state alone (rule R282). -/
theorem pcrStep_pcrState_congr (pcr : Pcr) (ws : U64) (e x y : Metric) :
    withPcrStateOf (pcrStep pcr ws (withPcrStateOf e x)) y = withPcrStateOf (pcrStep pcr ws e) y := by
  rw [pcrStep_eq, pcrStep_eq]
  rfl

/-- Without a rebase the continuity check leaves PCR state alone (rules R249 to R252). -/
theorem applyCc_keeps_pcrState (ho : o ≠ .discontinuity) (r : RecView) (ws : U64) (e : Metric) :
    applyCc o r ws (countPacket e) = withPcrStateOf e (applyCc o r ws (countPacket e)) := by
  cases o with
  | discontinuity => exact absurd rfl ho
  | _ => rfl

/-- Rules R245 and R281: an eligible packet that is no discontinuity leaves the PCR state of the PCR step. -/
theorem packetMetric_eligible_pcrState (htei : r.tei = false) (hd : ¬ Discontinuous r e) (hel : Eligible r)
    (ws : U64) :
    packetMetric r.pid r ws e = withPcrStateOf (pcrStep r.pcr ws e) (packetMetric r.pid r ws e) := by
  have ho : ccOutcome r.pid r e ≠ .discontinuity := (ccOutcome_eq_discontinuity_iff htei).not.2 hd
  rw [packetMetric_notTei htei, if_pos (eligible_iff.2 hel), applyCc_keeps_pcrState ho, ← pcrStep_pcrState_congr]
  rfl

/-- Rule R281: a packet that is neither eligible nor a discontinuity, a TEI packet or not, keeps the PCR state. -/
theorem packetMetric_ineligible_pcrState (hd : ¬ Discontinuous r e) (hel : ¬ Eligible r) (ws : U64) :
    packetMetric r.pid r ws e = withPcrStateOf e (packetMetric r.pid r ws e) := by
  cases htei : r.tei with
  | true =>
    rw [packetMetric_tei htei]
    rfl
  | false =>
    have ho : ccOutcome r.pid r e ≠ .discontinuity := (ccOutcome_eq_discontinuity_iff htei).not.2 hd
    rw [packetMetric_notTei htei, if_neg (eligible_iff.not.2 hel), applyCc_keeps_pcrState ho]
    rfl

/-- Rule R291: an eligible discontinuity sets the pair before its PCR step. -/
theorem packetMetric_eligible_discontinuity (hd : Discontinuous r e) (hel : Eligible r) (ws : U64) :
    packetMetric r.pid r ws e =
      recordCc r (pcrStep r.pcr ws (setReference r.pcr ws (ccError (countPacket e)))) := by
  rw [packetMetric_discontinuity hd, if_pos (eligible_iff.2 hel), rebased_of_carriesPcr hel.1]

/-- The command completes on an eligible packet that is no discontinuity, with the PCR state of the PCR step. -/
theorem eligiblePacket (hk : Holds s k r) (htei : r.tei = false) (hd : ¬ Discontinuous r (s.metric r.pid))
    (hel : Eligible r) :
    ∃ t, BothGoTo s k r t ∧
      t.metric r.pid =
        withPcrStateOf (pcrStep r.pcr (scaleWall s.cfg s.wall) (s.metric r.pid)) (t.metric r.pid) := by
  refine ⟨_, bothGoTo_complete_addPacket hk (not_mustWait_of_not_discontinuous hd), ?_⟩
  rw [complete_metric, addPacket_metric_same]
  exact packetMetric_eligible_pcrState htei hd hel _

/-! ### The obligations -/

/-- Settles O31: the step runs on an entry whose pair is this PCR and this wall sample, so its drift is 0
(`pcrStep_setReference_winMaxDrift`), while its last PCR is still the old one. -/
theorem rebaseComesBeforePcrStep : Obligations.RebaseComesBeforePcrStep := by
  unfold Obligations.RebaseComesBeforePcrStep
  intro s k r hk hd hw hel
  refine ⟨_, bothGoTo_complete_addPacket hk hw, ?_⟩
  rw [complete_metric, addPacket_metric_same]
  obtain ⟨hvalid, hpcr, hwall⟩ := packetMetric_rebased_reference hd hel.1 (scaleWall s.cfg s.wall)
  refine ⟨hvalid, hpcr, by rw [hwall, scaleWall_toNat], ?step⟩
  rw [packetMetric_eligible_discontinuity hd hel]
  exact ⟨pcrStep_setReference_winMaxDrift .., pcrStep_winMaxDelta_toNat rfl .., rfl, rfl, rfl⟩

/-- Settles O32: without a pair the step sets it and records the PCR, and does no more (`pcrStep_first`). -/
theorem firstPcrSetsReference : Obligations.FirstPcrSetsReference := by
  unfold Obligations.FirstPcrSetsReference
  intro s k r hk htei hd hel href
  obtain ⟨t, hgo, hentry⟩ := eligiblePacket hk htei hd hel
  refine ⟨t, hgo, ?_⟩
  rw [hentry, pcrStep_first href]
  exact ⟨rfl, rfl, scaleWall_toNat s, rfl, rfl, rfl, rfl, rfl⟩

/-- Settles O33: with a pair the step keeps it and takes the delta and the drift, which are the spec's numbers. -/
theorem subsequentPcrTracksDeltaAndDrift : Obligations.SubsequentPcrTracksDeltaAndDrift := by
  unfold Obligations.SubsequentPcrTracksDeltaAndDrift
  intro s k r hk htei hd hel href
  obtain ⟨t, hgo, hentry⟩ := eligiblePacket hk htei hd hel
  obtain ⟨hvalid, hpcr, hwall⟩ := pcrStep_keeps_reference href r.pcr (scaleWall s.cfg s.wall)
  refine ⟨t, hgo, ?_⟩
  rw [hentry, ← scaleWall_toNat]
  exact ⟨hvalid, hpcr, hwall, pcrStep_winMaxDelta_toNat href .., pcrStep_winMaxDrift_toNat href ..,
    rfl, rfl, rfl⟩

/-- Settles O34: no rebase and no PCR step writes the entry (`packetMetric_ineligible_pcrState`). -/
theorem ineligiblePcrIsIgnored : Obligations.IneligiblePcrIsIgnored := by
  unfold Obligations.IneligiblePcrIsIgnored
  intro s k r hk hd hel
  refine ⟨_, bothGoTo_complete_addPacket hk (not_mustWait_of_not_discontinuous hd), ?_⟩
  rw [complete_metric, addPacket_metric_same]
  exact packetMetric_ineligible_pcrState hd hel _

end Sys2Proof.Machine
end

section
/-! A windowing request, by command or by pin, and the swap of one pending PID (spec/44_windowing.md): O42 and O43. -/

namespace Sys2Proof.Machine
open Sys2Proof.Spec

variable {s : State} {p : Pid} {w : U64} {ts : List Turn}

/-! ### The windowing request -/

/-- Rule R310: the command is the request. -/
theorem exec_windowTick (s : State) : exec .windowTick s = .next (windowRequest s) := rfl

/-- Rule R311: a listed pulse on the TICK pin is the request. -/
theorem step_tickSrc (h : s.turns = { agent := .tickSrc, wall := w } :: ts) :
    step s = .next (windowRequest { s with turns := ts, wall := w }) :=
  step_listed h

/-- Rule R313: the overrun bit is sticky, and a request that finds a sweep pending sets it. -/
theorem windowRequest_tickOverrun_iff (s : State) :
    (windowRequest s).tickOverrun = true ↔ (s.tickOverrun = true ∨ s.pending ≠ []) := by
  rw [windowRequest, Bool.or_eq_true, Bool.not_eq_true', List.isEmpty_eq_false_iff]

/-! ### The swap -/

/-- A delta in whole milliseconds fits its field as it is (rule R316). -/
theorem swapMetric_perDeltaMs_toNat (e : Metric) :
    (swapMetric e).perDeltaMs.toNat = e.winMaxDelta.toNat / 27000 := by
  have hfits : e.winMaxDelta.toNat / pcrTicksPerMs < 2 ^ 64 :=
    (Nat.div_le_self ..).trans_lt e.winMaxDelta.isLt
  exact (BitVec.toNat_ofNat ..).trans (Nat.mod_eq_of_lt hfits)

/-- Rules R316 to R319: the swap of an entry is the one the spec describes. -/
theorem swapped_swapMetric (e : Metric) : Swapped e (swapMetric e) :=
  ⟨rfl, rfl, rfl, swapMetric_perDeltaMs_toNat e, rfl, rfl, rfl, rfl, rfl, rfl, rfl, rfl, rfl, rfl, rfl, rfl, rfl,
    rfl, rfl, rfl, rfl, rfl⟩

/-- Rule R314: a listed turn of the SWEEPER swaps its PID while that PID is pending. -/
theorem step_sweeper_of_pending (h : s.turns = { agent := .sweeper p, wall := w } :: ts)
    (hp : p.toNat ∈ s.pending) :
    step s = .next (swapStep p { s with turns := ts, wall := w }) := by
  have hswap : sweeperTurn p { s with turns := ts, wall := w } = swapStep p { s with turns := ts, wall := w } :=
    if_pos hp
  rw [step_listed h, agentStep, hswap]

/-! ### The obligations -/

/-- Settles O42: both ways in are `windowRequest`, whose pending set is the old one and the observed PIDs
(`mem_windowRequest_pending`). -/
theorem windowRequestMarksObserved : Obligations.WindowRequestMarksObserved := by
  unfold Obligations.WindowRequestMarksObserved
  refine ⟨fun s hwf => ?command, fun s w ts h => ?pin⟩
  case command =>
    exact ⟨windowRequest s, exec_windowTick s, rfl, windowRequest_tickOverrun_iff s,
      fun p => mem_windowRequest_pending hwf⟩
  case pin => rw [step_tickSrc h, exec_windowTick]

/-- Settles O43: the step is `swapStep`, which puts `swapMetric` of the entry in its place and takes the PID from the
pending set. -/
theorem swapTakesSnapshot : Obligations.SwapTakesSnapshot := by
  unfold Obligations.SwapTakesSnapshot
  intro s p w ts h hp
  refine ⟨_, step_sweeper_of_pending h hp, rfl, ?entry, fun q hq => swapStep_metric_other hq _,
    fun x => mem_swapStep_pending⟩
  rw [swapStep_metric_same]
  exact swapped_swapMetric _

end Sys2Proof.Machine
end

section
/-! What READ_METRIC answers for an entry no packet has touched (rules R332 and R333, O46), and what a host write of
CTRL, STATUS and BUF_LEN stores (rules R34, R336 and R337, O48). -/

namespace Sys2Proof.Machine
open Sys2Proof.Spec

variable {s : State} {p : Pid} {w : U64} {ts : List Turn} {x : BitVec 4} {v : Word} {q : List HostAccess}

/-! ### An entry that is not observed -/

/-- Rule R46: the table lists observed entries only, so an entry that is not observed is the reset entry. -/
theorem metric_eq_zero_of_not_observed (h : s.Inv) (ho : (s.metric p).observed = false) :
    s.metric p = Metric.zero := by
  unfold State.metric getMetric at *
  cases hr : Memory.read s.metrics p.toNat with
  | none => rfl
  | some e =>
    have hobs : e.observed = true := (h.entries _ (Memory.mem_of_read hr)).observed
    rw [hr, Option.getD_some, hobs] at ho
    cases ho

/-- The reset entry's STATE field is its PID: every other bit is 0. -/
theorem stateField_zero (p : Pid) : stateField Metric.zero p = p.setWidth 64 := by
  have hbits : stateField Metric.zero p = 0#51 ++ p := rfl
  have hp := p.isLt
  apply BitVec.eq_of_toNat_eq
  rw [hbits, zero_append_toNat, BitVec.toNat_setWidth]
  omega

/-- Rules R62 and R333: the fields of the reset entry. -/
theorem metricField_zero (f : MetricField) (p : Pid) :
    metricField Metric.zero p f = (if f = .state then p.setWidth 32 else 0 : Word).setWidth 64 := by
  cases f
  case state =>
    rw [metricField, stateField_zero, if_pos rfl]
    exact (BitVec.setWidth_setWidth (by decide)).symm
  all_goals rfl

/-- A value of one word stands in RESULT_LO, with RESULT_HI 0 (rule R36). -/
theorem setResult_word (r : Word) (s : State) :
    setResult (r.setWidth 64) s = { s with resultLo := r, resultHi := 0 } := by
  have hr := r.isLt
  have hlo : (r.setWidth 64).extractLsb' 0 32 = r := by
    apply BitVec.eq_of_toNat_eq
    rw [low_word_toNat, BitVec.toNat_setWidth]
    omega
  have hhi : (r.setWidth 64).extractLsb' 32 32 = 0#32 := by
    apply BitVec.eq_of_toNat_eq
    rw [high_part_toNat _ _ (by decide), BitVec.toNat_setWidth, BitVec.toNat_zero]
    omega
  rw [setResult, hlo, hhi]
  rfl

/-- Rule R332: the meaning of READ_METRIC. -/
theorem exec_readMetric (f : MetricField) (p : Pid) (s : State) :
    exec (.readMetric f p) s = .next (setResult (metricField (s.metric p) p f) s) := rfl

/-! ### A host write of a register -/

/-- A write of a register other than CMD that BUSY does not hold: its effect on the state with the access taken. -/
theorem step_regWrite (h : HostMoves s w ts (.regWrite x v) q) (hcmd : regAt x ≠ .cmd)
    (hfree : s.cur = none ∨ regAt x ≠ .bufLen) :
    step s = .next (writeReg (regAt x) v (afterHost s w ts q)) := by
  obtain ⟨hturn, hqueue⟩ := h
  have hb : (busy s && heldWhileBusy (.regWrite x v)) = false := by
    rcases hfree with hidle | hlen
    · simp [busy, hidle]
    · simp [heldWhileBusy, hcmd, hlen]
  rw [step_host hturn hqueue hb]
  exact if_neg hcmd

/-! ### What CTRL, STATUS and BUF_LEN store -/

/-- CTRL.PCR_MODE's bits are the mode's number. -/
theorem pcrModeBits_toNat (m : PcrMode) : (pcrModeBits m).toNat = modeNumber m := by cases m <;> rfl

/-- Rule R336: "Writing 3 stores 0". -/
theorem modeNumber_pcrModeOf : ∀ m : BitVec 2, modeNumber (pcrModeOf m) = if m.toNat = 3 then 0 else m.toNat := by
  decide

/-- CTRL as read (rule R32): EVT_EN 0, IRQ_EN 1, PCR_MODE [3:2], and no other bit. -/
theorem ctrlWord_toNat (s : State) :
    (ctrlWord s).toNat = flag s.evtEn + 2 * flag s.irqEn + 4 * modeNumber s.pcrMode := by
  simp only [ctrlWord, append_toNat, ofBool_toNat_eq_flag, pcrModeBits_toNat, BitVec.toNat_ofNat]
  omega

theorem and_not_eq_ite (a b : Bool) : (a && !b) = if b then false else a := by cases b <;> simp

/-- Rule R337: bits 8, 9 and 10 are write-one-to-clear. -/
theorem writeStatus_eq (v : Word) (s : State) :
    writeStatus v s = { s with
      usageErr := if v.getLsbD 8 then false else s.usageErr
      cmdErr := if v.getLsbD 9 then false else s.cmdErr
      tickOverrun := if v.getLsbD 10 then false else s.tickOverrun } := by
  simp only [writeStatus, and_not_eq_ite]

/-- Rule R34: the 24-bit operand bounds the stored value, so no bit of the minimum is lost. -/
theorem writeBufLen_toNat (v : Word) (s : State) :
    (writeBufLen v s).bufLen.toNat = min (v.toNat % 2 ^ 24) s.cfg.bufMax := by
  rw [writeBufLen, BitVec.toNat_ofNat, extract_toNat]
  omega

/-! ### The obligations -/

/-- Settles O46: the entry is the reset entry, whose fields all fit RESULT_LO. -/
theorem neverObservedReadsZero : Obligations.NeverObservedReadsZero := by
  unfold Obligations.NeverObservedReadsZero
  intro s f p hinv ho
  rw [exec_readMetric, metric_eq_zero_of_not_observed hinv ho, metricField_zero, setResult_word]

/-- Settles O48: each write is `step_regWrite` with the register's own store. -/
theorem ctrlStatusAndBufLenWrites : Obligations.CtrlStatusAndBufLenWrites := by
  unfold Obligations.CtrlStatusAndBufLenWrites
  refine ⟨fun s w ts v q h => ?ctrl, fun s w ts v q h => ?status, fun s w ts v q _ h hidle => ?bufLen⟩
  case ctrl =>
    refine ⟨_, step_regWrite h (by decide) (.inr (by decide)), rfl, flag_getLsbD v 0, flag_getLsbD v 1, ?mode,
      ctrlWord_toNat _, fun hevt r ⟨hevt', _⟩ => Bool.eq_false_iff.1 hevt hevt'⟩
    rw [← extract_toNat_eq_bits]
    exact modeNumber_pcrModeOf _
  case status =>
    rw [step_regWrite h (by decide) (.inr (by decide))]
    exact congrArg _ (writeStatus_eq v _)
  case bufLen =>
    exact ⟨_, step_regWrite h (by decide) (.inl hidle), rfl, writeBufLen_toNat v _, zero_append_toNat _⟩

end Sys2Proof.Machine
end

section
/-! The event FIFO (spec/60_exceptions.md, rule R362): O57. -/

namespace Sys2Proof.Machine

/-! ### What a turn and the steps without an event do to the FIFO -/

@[simp] theorem takeTurn_fifo (s : State) : (takeTurn s).2.fifo = s.fifo := by
  obtain ⟨w, ts, n, hframe⟩ := takeTurn_frame s
  rw [hframe]

@[simp] theorem takeTurn_evtEn (s : State) : (takeTurn s).2.evtEn = s.evtEn := by
  obtain ⟨w, ts, n, hframe⟩ := takeTurn_frame s
  rw [hframe]

@[simp] theorem takeTurn_cfg (s : State) : (takeTurn s).2.cfg = s.cfg := by
  obtain ⟨w, ts, n, hframe⟩ := takeTurn_frame s
  rw [hframe]

@[simp] theorem windowRequest_fifo (s : State) : (windowRequest s).fifo = s.fifo := rfl

@[simp] theorem swapStep_fifo (p : Pid) (s : State) : (swapStep p s).fifo = s.fifo := rfl

@[simp] theorem resetTurn_fifo (s : State) : (resetTurn s).fifo = [] := rfl

/-! ### The push -/

/-- The FIFO is kept, or gets one event at its end, with EVT_EN = 1 and room for it. -/
def FifoKeptOrPushed (s t : State) : Prop :=
  t.fifo = s.fifo ∨ ∃ p, t.fifo = s.fifo ++ [p] ∧ s.evtEn = true ∧ s.fifo.length < s.cfg.evtDepth

/-- The relation reads only FIFO, EVT_EN and the parameters of the state before. -/
theorem FifoKeptOrPushed.congr {s s' t : State} (h : FifoKeptOrPushed s' t) (hfifo : s'.fifo = s.fifo)
    (hevt : s'.evtEn = s.evtEn) (hcfg : s'.cfg = s.cfg) : FifoKeptOrPushed s t := by
  rwa [FifoKeptOrPushed, hfifo, hevt, hcfg] at h

theorem exec_fifo {i : Instr} {s t : State} (h : exec i s = .next t) : FifoKeptOrPushed s t := by
  obtain ⟨-, -, -, -, -, -, -, -, -, hfifo, -⟩ := exec_frame h
  exact hfifo

theorem runWord_fifo {w : Word} {s t : State} (h : runWord w s = .next t) : FifoKeptOrPushed s t := by
  rcases runWord_cases w s with ⟨i, -, hrun⟩ | ⟨r, -, hrun⟩ <;> rw [hrun] at h
  · exact exec_fifo h
  · cases h
    exact .inl rfl

/-- A word is issued in a state that has the FIFO, EVT_EN and the parameters of the state before the step. -/
theorem issues_frame {s s' : State} {w : Word} (h : Issues s w s') :
    s'.fifo = s.fifo ∧ s'.evtEn = s.evtEn ∧ s'.cfg = s.cfg := by
  rcases h with ⟨-, -, q, -, rfl⟩ | ⟨-, -, rfl⟩ <;> simp

/-- Rule R362: the step that runs a word pushes at most one event. -/
theorem fifoKeptOrPushed_of_issues {s s' t : State} {w : Word} (hissue : Issues s w s')
    (h : runWord w s' = .next t) : FifoKeptOrPushed s t := by
  obtain ⟨hfifo, hevt, hcfg⟩ := issues_frame hissue
  exact (runWord_fifo h).congr hfifo hevt hcfg

/-! ### The pop -/

/-- Rule R40: of the host's accesses other than a CMD write, only a read of EVT_POP changes the FIFO. -/
theorem hostAccess_fifo {run : Word → State → Out} {a : HostAccess} {s t : State}
    (hcmd : ∀ v, a ≠ .regWrite 4#4 v) (h : hostAccess run a s = .next t) :
    t.fifo = s.fifo ∨ (a = .regRead 10#4 ∧ t.fifo = s.fifo.drop 1) := by
  obtain ⟨-, -, -, -, -, -, -, hfifo⟩ := hostAccess_frame hcmd h
  exact hfifo

/-! ### The obligation -/

/-- Settles O57, by the cases of a step (`step_cases`): a command word is all that pushes, a read of EVT_POP all that
pops, and a reset all that empties. -/
theorem eventsAreQueuedAndNeverDropped : Obligations.EventsAreQueuedAndNeverDropped := by
  unfold Obligations.EventsAreQueuedAndNeverDropped
  intro s t h
  rcases step_cases s with hidle | ⟨w, s', hissue, hrun⟩ | ⟨a, q, hhost, hqueue, -, hcmd, haccess⟩ |
    ⟨p, -, -, hswap⟩ | ⟨-, htick⟩ | ⟨hmoves, hreset⟩
  · cases hidle.symm.trans h
    exact .inl (takeTurn_fifo s)
  · rcases fifoKeptOrPushed_of_issues hissue (hrun.symm.trans h) with hkept | hpushed
    · exact .inl hkept
    · exact .inr (.inl hpushed)
  · rcases hostAccess_fifo hcmd (haccess.symm.trans h) with hkept | ⟨rfl, hpop⟩
    · exact .inl (hkept.trans (takeTurn_fifo s))
    · exact .inr (.inr (.inl ⟨hhost, ⟨q, hqueue⟩, hpop.trans (congrArg _ (takeTurn_fifo s))⟩))
  · cases hswap.symm.trans h
    exact .inl ((swapStep_fifo p _).trans (takeTurn_fifo s))
  · cases htick.symm.trans h
    exact .inl ((windowRequest_fifo _).trans (takeTurn_fifo s))
  · cases hreset.symm.trans h
    exact .inr (.inr (.inr ⟨hmoves, resetTurn_fifo _⟩))

end Sys2Proof.Machine
end

section
/-! The decoder and the encoder against each other and against rule R152 (spec/30_encoding.md, section 3): O4, O5, O6
and O7. -/
namespace Sys2Proof
open Sys2Proof.Machine Sys2Proof.Spec

variable {c : Config} {w : Word} {i : Instr} {m : Mnemonic}

/-! ### The operands of an encoded command -/

/-- The word of a command fits the command's own row. -/
theorem encode_fits : ∀ i : Instr, Laws.EncodeRow.Statement i
  | .nop => Laws.EncodeRow.nop
  | .locate start => Laws.EncodeRow.locate start
  | .frame => Laws.EncodeRow.frame
  | .addPacket slot pid => Laws.EncodeRow.addPacket slot pid
  | .dispatch slot => Laws.EncodeRow.dispatch slot
  | .dispatchAll => Laws.EncodeRow.dispatchAll
  | .windowTick => Laws.EncodeRow.windowTick
  | .readMetric field pid => Laws.EncodeRow.readMetric field pid
  | .clearSession => Laws.EncodeRow.clearSession

/-- A field of a word read from the word's number. -/
theorem extractLsb'_eq_of_toNat {n len : Nat} {v : BitVec n} {lo : Nat} {x : BitVec len}
    (h : v.toNat / 2 ^ lo % 2 ^ len = x.toNat) : v.extractLsb' lo len = x :=
  BitVec.eq_of_toNat_eq ((extract_toNat v lo len).trans h)

theorem encode_locate_toNat (start : BitVec 24) : (encode (.locate start)).toNat = 2 ^ 28 + start.toNat := by
  simp only [encode, append_toNat, BitVec.toNat_ofNat]
  omega

theorem encode_addPacket_toNat (slot : BitVec 12) (pid : Pid) :
    (encode (.addPacket slot pid)).toNat = 3 * 2 ^ 28 + slot.toNat * 2 ^ 16 + pid.toNat := by
  simp only [encode, append_toNat, BitVec.toNat_ofNat]
  omega

theorem encode_dispatch_toNat (slot : BitVec 12) :
    (encode (.dispatch slot)).toNat = 4 * 2 ^ 28 + slot.toNat * 2 ^ 16 := by
  simp only [encode, append_toNat, BitVec.toNat_ofNat]
  omega

theorem encode_readMetric_toNat (f : MetricField) (pid : Pid) :
    (encode (.readMetric f pid)).toNat = 7 * 2 ^ 28 + (metricFieldCode f).toNat * 2 ^ 16 + pid.toNat := by
  simp only [encode, append_toNat, BitVec.toNat_ofNat]
  omega

theorem startOf_encode (start : BitVec 24) : startOf (encode (.locate start)) = start := by
  refine extractLsb'_eq_of_toNat ?_
  rw [encode_locate_toNat]
  omega

theorem slotOf_encode_addPacket (slot : BitVec 12) (pid : Pid) : slotOf (encode (.addPacket slot pid)) = slot := by
  refine extractLsb'_eq_of_toNat ?_
  rw [encode_addPacket_toNat]
  omega

theorem pidOf_encode_addPacket (slot : BitVec 12) (pid : Pid) : pidOf (encode (.addPacket slot pid)) = pid := by
  refine extractLsb'_eq_of_toNat ?_
  rw [encode_addPacket_toNat]
  omega

theorem slotOf_encode_dispatch (slot : BitVec 12) : slotOf (encode (.dispatch slot)) = slot := by
  refine extractLsb'_eq_of_toNat ?_
  rw [encode_dispatch_toNat]
  omega

theorem fieldOf_encode (f : MetricField) (pid : Pid) : fieldOf (encode (.readMetric f pid)) = metricFieldCode f := by
  refine extractLsb'_eq_of_toNat ?_
  rw [encode_readMetric_toNat]
  omega

theorem pidOf_encode_readMetric (f : MetricField) (pid : Pid) : pidOf (encode (.readMetric f pid)) = pid := by
  refine extractLsb'_eq_of_toNat ?_
  rw [encode_readMetric_toNat]
  omega

theorem checkSlot_of_inRange {slot : BitVec 12} (h : slotInRange c slot = true) (i : Instr) :
    checkSlot c slot i = .ok i := if_pos h

/-- Settles O4: the word fits its own row (`encode_fits`), and each operand is read back from its own bits. -/
theorem decodeOfEncode : Obligations.DecodeOfEncode := by
  unfold Obligations.DecodeOfEncode
  intro c i hwf
  rw [decode_of_fits c (encode_fits i)]
  cases i with
  | nop | frame | dispatchAll | windowTick | clearSession => rfl
  | locate start => exact congrArg (Except.ok <| Instr.locate ·) (startOf_encode start)
  | addPacket slot pid =>
    rw [Laws.EncodeRow.rowName, decodeOperands, slotOf_encode_addPacket, pidOf_encode_addPacket]
    exact checkSlot_of_inRange hwf _
  | dispatch slot =>
    rw [Laws.EncodeRow.rowName, decodeOperands, slotOf_encode_dispatch]
    exact checkSlot_of_inRange hwf _
  | readMetric f pid =>
    rw [Laws.EncodeRow.rowName, decodeOperands, fieldOf_encode, metricFieldOf_code, pidOf_encode_readMetric]

/-! ### The word of a decoded command -/

theorem checkSlot_eq_ok {slot : BitVec 12} {i j : Instr} :
    checkSlot c slot i = .ok j ↔ slotInRange c slot = true ∧ i = j := by
  unfold checkSlot
  split <;> simp [*]

theorem checkSlot_eq_error {slot : BitVec 12} {i : Instr} :
    (∃ r, checkSlot c slot i = .error r) ↔ slotInRange c slot = false := by
  unfold checkSlot
  split <;> simp [*]

/-- A word that decodes fits a row, and its command is read from that row's operands. -/
theorem fits_of_decode (h : decode c w = .ok i) : ∃ m, fitsNumber m w.toNat ∧ decodeOperands c m w = .ok i := by
  by_cases hfit : ∃ m, fitsNumber m w.toNat
  · obtain ⟨m, hm⟩ := hfit
    exact ⟨m, hm, (decode_of_fits c hm).symm.trans h⟩
  · obtain ⟨r, hr⟩ := decode_of_no_fit c fun m hm => hfit ⟨m, hm⟩
    cases hr.symm.trans h

/-- The operands of a word that fits a row give the word back: the row fixes every other bit. -/
theorem encode_of_decodeOperands (hfit : fitsNumber m w.toNat) (h : decodeOperands c m w = .ok i) :
    encode i = w ∧ i.wellFormed c = true := by
  have hw := w.isLt
  cases m with
  | nop | frame | dispatchAll | windowTick | clearSession =>
    cases h
    exact ⟨BitVec.eq_of_toNat_eq hfit.symm, rfl⟩
  | locate =>
    cases h
    refine ⟨BitVec.eq_of_toNat_eq ?_, rfl⟩
    rw [encode_locate_toNat, startOf, extract_toNat]
    simp only [fitsNumber] at hfit
    omega
  | addPacket =>
    obtain ⟨hslot, rfl⟩ := checkSlot_eq_ok.1 h
    refine ⟨BitVec.eq_of_toNat_eq ?_, hslot⟩
    rw [encode_addPacket_toNat, slotOf, pidOf, extract_toNat, extract_toNat]
    simp only [fitsNumber] at hfit
    omega
  | dispatch =>
    obtain ⟨hslot, rfl⟩ := checkSlot_eq_ok.1 h
    refine ⟨BitVec.eq_of_toNat_eq ?_, hslot⟩
    rw [encode_dispatch_toNat, slotOf, extract_toNat]
    simp only [fitsNumber] at hfit
    omega
  | readMetric =>
    rw [decodeOperands] at h
    cases hf : metricFieldOf (fieldOf w) with
    | none => rw [hf] at h; cases h
    | some f =>
      rw [hf] at h
      cases h
      refine ⟨BitVec.eq_of_toNat_eq ?_, rfl⟩
      rw [encode_readMetric_toNat, code_of_metricFieldOf _ _ hf, fieldOf, pidOf, extract_toNat, extract_toNat]
      simp only [fitsNumber] at hfit
      omega

/-- Settles O5: a word that decodes fits a row, whose fixed bits and operands are all its bits. -/
theorem encodeOfDecode : Obligations.EncodeOfDecode := by
  unfold Obligations.EncodeOfDecode
  intro c w i h
  obtain ⟨m, hfit, hops⟩ := fits_of_decode h
  exact encode_of_decodeOperands hfit hops

/-! ### Illegal words -/

/-- The spec's rows are the model's, in its order. -/
theorem commandRows_eq : commandRows = opcodeRows.map fun r => (r.pattern, r.mask) := rfl

/-- The spec's rows are the rows of the nine names. -/
theorem mem_commandRows {x : Word × Word} :
    x ∈ commandRows ↔ ∃ m, x = ((rowOf m).pattern, (rowOf m).mask) := by
  rw [commandRows_eq, opcodeRows_eq]
  constructor
  · intro h
    simp only [List.map_map, List.mem_map] at h
    obtain ⟨m, -, hm⟩ := h
    exact ⟨m, hm.symm⟩
  · rintro ⟨m, rfl⟩
    rw [List.map_map]
    exact List.mem_map.2 ⟨m, by cases m <;> decide, rfl⟩

/-- A word has a row's bits exactly when its number meets the row's arithmetic. -/
theorem and_mask_rowOf (m : Mnemonic) (w : Word) : w &&& (rowOf m).mask = (rowOf m).pattern ↔ fitsNumber m w.toNat := by
  rw [← rowOf_fits, OpcodeRow.fits, beq_iff_eq]

/-- Rule R152's first condition. -/
theorem no_commandRow_iff : (∀ x ∈ commandRows, w &&& x.2 ≠ x.1) ↔ ∀ m, ¬ fitsNumber m w.toNat := by
  constructor
  · intro h m hm
    exact h _ (mem_commandRows.2 ⟨m, rfl⟩) ((and_mask_rowOf m w).2 hm)
  · intro h x hx hw
    obtain ⟨m, rfl⟩ := mem_commandRows.1 hx
    exact h m ((and_mask_rowOf m w).1 hw)

theorem slotInRange_slotOf_eq_false :
    slotInRange c (slotOf w) = false ↔ c.bufMax / 188 ≤ w.toNat / 2 ^ 16 % 2 ^ 12 := by
  rw [slotInRange, decide_eq_false_iff_not, slotOf, extract_toNat, Nat.not_lt]
  rfl

/-- Which operands rule R152 makes illegal, row by row. -/
theorem decodeOperands_error_iff (m : Mnemonic) (w : Word) :
    (∃ r, decodeOperands c m w = .error r) ↔
      ((m = .addPacket ∨ m = .dispatch) ∧ c.bufMax / 188 ≤ w.toNat / 2 ^ 16 % 2 ^ 12) ∨
      (m = .readMetric ∧ 16 < w.toNat / 2 ^ 16 % 2 ^ 5) := by
  cases m with
  | nop | locate | frame | dispatchAll | windowTick | clearSession => simp [decodeOperands]
  | addPacket | dispatch => simp [decodeOperands, checkSlot_eq_error, slotInRange_slotOf_eq_false]
  | readMetric =>
    have hnone : metricFieldOf (fieldOf w) = none ↔ 16 < w.toNat / 2 ^ 16 % 2 ^ 5 := by
      rw [metricFieldOf_none, fieldOf, extract_toNat]
    rw [← hnone]
    cases hf : metricFieldOf (fieldOf w) <;> simp [decodeOperands, hf]

/-- Rule R152: the decoder refuses exactly the words the spec calls illegal. -/
theorem decode_error_iff_illegalWord : (∃ r, decode c w = .error r) ↔ IllegalWord c w := by
  have hadd := and_mask_rowOf .addPacket w
  have hdis := and_mask_rowOf .dispatch w
  have hread := and_mask_rowOf .readMetric w
  simp only [rowOf] at hadd hdis hread
  rw [IllegalWord, no_commandRow_iff, hadd, hdis, hread]
  by_cases hfit : ∃ m, fitsNumber m w.toNat
  · obtain ⟨m, hm⟩ := hfit
    have hrow (m' : Mnemonic) : fitsNumber m' w.toNat ↔ m = m' :=
      ⟨fun h => fits_unique hm h, fun h => h ▸ hm⟩
    rw [decode_of_fits c hm, decodeOperands_error_iff, hrow, hrow, hrow]
    exact (or_iff_right fun h => h m hm).symm
  · have hno : ∀ m, ¬ fitsNumber m w.toNat := fun m hm => hfit ⟨m, hm⟩
    exact iff_of_true (decode_of_no_fit c hno) (.inl hno)

/-- An illegal word sets CMD_ERR and completes (rule R356). -/
theorem runWord_of_illegalWord {s : State} (h : IllegalWord s.cfg w) :
    runWord w s = .next (complete (illegalCommand s)) := by
  obtain ⟨r, hr⟩ := decode_error_iff_illegalWord.2 h
  rw [runWord, hr]

theorem complete_of_idle {s : State} (h : s.cur = none) : complete s = s := by
  rw [complete, ← h]

/-- Rule R35: while BUSY = 0 the HOST's step on a CMD write runs the word it writes. -/
theorem step_cmdWrite {s : State} {wl : U64} {ts : List Turn} {q : List HostAccess}
    (h : HostMoves s wl ts (.regWrite 4#4 w) q) (hidle : s.cur = none) :
    step s = runWord w (afterHost s wl ts q) := by
  obtain ⟨hturn, hqueue⟩ := h
  exact step_host hturn hqueue (by simp [busy, hidle])

/-- Settles O6: rows exclude each other (`fits_unique`), and an illegal word is one the decoder refuses. -/
theorem illegalWordsByRule : Obligations.IllegalWordsByRule := by
  unfold Obligations.IllegalWordsByRule
  refine ⟨fun w x hx y hy hwx hwy => ?unique, fun c w => decode_error_iff_illegalWord,
    fun s wl ts w q h hidle hill => ?cmdErr⟩
  case unique =>
    obtain ⟨m, rfl⟩ := mem_commandRows.1 hx
    obtain ⟨m', rfl⟩ := mem_commandRows.1 hy
    rw [fits_unique ((and_mask_rowOf m w).1 hwx) ((and_mask_rowOf m' w).1 hwy)]
  case cmdErr =>
    rw [step_cmdWrite h hidle, runWord_of_illegalWord (s := afterHost s wl ts q) hill]
    exact congrArg _ (complete_of_idle (s := illegalCommand (afterHost s wl ts q)) hidle)

/-- Settles O7: the decoder runs on each word. -/
theorem specWordsDecode : Obligations.SpecWordsDecode := by
  unfold Obligations.SpecWordsDecode
  exact ⟨rfl, rfl, rfl, rfl, rfl, rfl, rfl, rfl, rfl⟩

end Sys2Proof
end

section
/-! The invariant: the state after reset meets it and every step keeps it (spec/10_state.md): O2 and O3. -/
namespace Sys2Proof.Machine
open Sys2Proof.Spec

variable {s t : State} {i : Instr}

/-! ### Reset -/

/-- Rules R74 and R390. -/
theorem resetWith_inv {c : Config} (hc : c.Valid) : (State.resetWith c).Inv where
  cfgValid := hc
  bufWf := .nil
  bufBound := nofun
  recsWf := .nil
  recsBound := nofun
  metricsWf := ⟨.nil, nofun⟩
  metricsBound := nofun
  entries := nofun
  pendingWf := .nil
  pendingBound := nofun
  pendingObserved := nofun
  fifoBound := Nat.zero_le _
  bufLenBound := Nat.zero_le _
  recCountBound := Nat.zero_le _
  recCountZero _ := rfl
  recordsWritten _ h := absurd h (Nat.not_lt_zero _)
  errTs _ _ := rfl
  daOrder := le_rfl
  daBound := Nat.zero_le _
  curLegal := nofun

/-- Rules R390, R391 and R393: the reset input leaves a reset block of the same parameters. -/
theorem resetTurn_inv (h : s.Inv) : (resetTurn s).Inv :=
  (resetWith_inv h.cfgValid).congr rfl rfl rfl rfl rfl rfl rfl rfl rfl rfl rfl rfl rfl

/-- Settles O2: nothing is written, queued, pending or in progress after reset. -/
theorem resetMeetsInvariant : Obligations.ResetMeetsInvariant := by
  unfold Obligations.ResetMeetsInvariant
  exact ⟨fun _ hc => resetWith_inv hc, resetWith_inv (by decide)⟩

/-! ### The commands other than the packet commands -/

theorem curLegal_of_idle (h : s.cur = none) : s.curLegal := by
  intro w hw
  cases h.symm.trans hw

theorem illegalCommand_inv (h : s.Inv) : (illegalCommand s).Inv :=
  h.congr rfl rfl rfl rfl rfl rfl rfl rfl rfl rfl rfl rfl rfl

theorem usageError_inv (h : s.Inv) : (usageError s).Inv :=
  h.congr rfl rfl rfl rfl rfl rfl rfl rfl rfl rfl rfl rfl rfl

theorem setResult_inv (h : s.Inv) (v : U64) : (setResult v s).Inv :=
  h.congr rfl rfl rfl rfl rfl rfl rfl rfl rfl rfl rfl rfl rfl

/-- Rule R335: no entry is left, and no pending PID that would need one. -/
theorem clearSession_inv (h : s.Inv) : { s with metrics := [], pending := [] : State }.Inv :=
  { h with
    metricsWf := ⟨.nil, nofun⟩
    metricsBound := nofun
    entries := nofun
    pendingWf := .nil
    pendingBound := nofun
    pendingObserved := nofun }

/-- Rule R181. -/
theorem frameNoSync_inv (h : s.Inv) (hidle : s.cur = none) : (frameNoSync s).Inv :=
  { h with
    recCountBound := Nat.zero_le _
    recCountZero := fun _ => rfl
    recordsWritten := fun _ hk => absurd hk (Nat.not_lt_zero _)
    curLegal := curLegal_of_idle hidle }

/-- Rules R184 and R217. -/
theorem frameFailed_inv (h : s.Inv) (hidle : s.cur = none) {code : FrameErr} {dts : Bool}
    (hdts : code ≠ .tsCode → code ≠ .tsMarker → dts = false) (o : Nat) : (frameFailed code dts o s).Inv :=
  { h with
    recCountBound := Nat.zero_le _
    recCountZero := fun _ => rfl
    recordsWritten := fun _ hk => absurd hk (Nat.not_lt_zero _)
    errTs := hdts
    curLegal := curLegal_of_idle hidle }

/-- Each record of a FRAME takes 188 bytes of the buffer, so their number fits the record memory and REC_COUNT
(rules R13 and R37). -/
theorem frameUnits_length_le_recMax (hbuf : s.bufLen.toNat ≤ s.cfg.bufMax) {o : Nat} {rs : List UnitRecord}
    (hu : frameUnits s.buf s.pcrMode s.bufLen.toNat s.bufLen.toNat o = .ok rs) : rs.length ≤ s.cfg.recMax := by
  have hlen := frameUnits_length hu (by omega)
  rw [Config.recMax, tsPacketSize]
  omega

theorem frameCommit_recCount_toNat {rs : List UnitRecord} (h : rs.length < 2 ^ 16) (s : State) :
    (frameCommit rs s).recCount.toNat = rs.length :=
  (BitVec.toNat_ofNat ..).trans (Nat.mod_eq_of_lt h)

/-- What a key of record memory reads as after a commit (rule R180). -/
theorem read_frameCommit_recs (rs : List UnitRecord) (s : State) (a : Nat) :
    Memory.read (frameCommit rs s).recs a =
      if a < 16 * rs.length then (rs[a / 16]?).bind (fun r => (recordWords r)[a % 16]?)
      else Memory.read s.recs a := by
  rw [frameCommit, read_commitRecords _ (by simp)]
  simp [Option.bind_map]

/-- Rules R180 and R184: the committed slots are written, all sixteen words of each. -/
theorem frameCommit_inv (h : s.Inv) (hidle : s.cur = none) {rs : List UnitRecord} (hrs : rs.length ≤ s.cfg.recMax) :
    (frameCommit rs s).Inv := by
  have hcount : (frameCommit rs s).recCount.toNat = rs.length :=
    frameCommit_recCount_toNat (lt_of_le_of_lt hrs (recMax_lt_of_valid h.cfgValid)) s
  exact
    { h with
      recsWf := commitRecords_wf _ _ _ h.recsWf
      recsBound := commitRecords_bound _ (by simp) _ (16 * s.cfg.recMax) _ h.recsBound (by simpa using hrs)
      recCountBound := by rw [hcount]; exact hrs
      recCountZero := fun hne => absurd rfl hne
      recordsWritten := fun k hk w hw => by
        rw [hcount] at hk
        rw [read_frameCommit_recs, if_pos (by rw [recKey]; omega), show recKey k w / 16 = k by rw [recKey]; omega,
          List.getElem?_eq_getElem hk, Option.bind_some, List.getElem?_eq_getElem, Option.isSome_some]
        rw [recordWords_length]
        exact Nat.mod_lt _ (by decide)
      curLegal := curLegal_of_idle hidle }

theorem execFrame_inv (h : s.Inv) (hidle : s.cur = none) (ht : execFrame s = .next t) : t.Inv := by
  rcases execFrame_cases s with ⟨-, he⟩ | ⟨o, rs, -, hu, he⟩ | ⟨o, i, code, dts, -, -, -, -, hdts, he⟩ |
    ⟨a, -, -, he⟩ <;> cases he.symm.trans ht
  · exact frameNoSync_inv h hidle
  · exact frameCommit_inv h hidle (frameUnits_length_le_recMax h.bufLenBound hu)
  · exact frameFailed_inv h hidle hdts _

/-! ### The packet commands -/

theorem execAddPacket_inv (h : s.Inv) {slot : BitVec 12} {pid : Pid} (ht : execAddPacket slot pid s = .next t) :
    t.Inv := by
  rcases execAddPacket_cases slot pid s with ⟨-, he⟩ | ⟨hslot, ⟨f, -, he⟩ | ⟨r, hr, ⟨hp, he⟩ | ⟨-, he⟩⟩⟩ <;>
    cases he.symm.trans ht
  · exact complete_inv (illegalCommand_inv h)
  · exact packetCommand_inv h (keepBusy_inv h (decodeOfEncode s.cfg (.addPacket slot pid) hslot) ⟨r, hr, hp⟩)
  · exact complete_inv (usageError_inv h)

theorem execDispatch_inv (h : s.Inv) {slot : BitVec 12} (ht : execDispatch slot s = .next t) : t.Inv := by
  rcases execDispatch_cases slot s with ⟨-, he⟩ | ⟨hslot, ⟨f, -, he⟩ | ⟨r, hr, he⟩⟩ <;> cases he.symm.trans ht
  · exact complete_inv (illegalCommand_inv h)
  · exact packetCommand_inv h (keepBusy_inv h (decodeOfEncode s.cfg (.dispatch slot) hslot) ⟨r, hr⟩)

/-- The one command of word `encode .dispatchAll` is DISPATCH_ALL. -/
theorem decode_dispatchAll (c : Config) : decode c (encode .dispatchAll) = .ok .dispatchAll :=
  decodeOfEncode c .dispatchAll rfl

theorem dispatchAllAccept_inv (h : s.Inv) : (dispatchAllAccept s).Inv :=
  { h with
    daOrder := Nat.zero_le _
    daBound := h.recCountBound
    curLegal := fun w hw => by
      by_cases hzero : s.recCount = 0
      · cases (if_pos hzero).symm.trans hw
      · cases (if_neg hzero).symm.trans hw
        have hpos : s.recCount.toNat ≠ 0 := fun h0 => hzero (BitVec.eq_of_toNat_eq h0)
        exact ⟨.dispatchAll, decode_dispatchAll _, Nat.pos_of_ne_zero hpos, rfl⟩ }

/-- DA_NEXT does not wrap while it is below DA_END. -/
theorem daNext_add_one_toNat (h : s.daNext.toNat < s.daEnd.toNat) : (s.daNext + 1).toNat = s.daNext.toNat + 1 := by
  have hend := s.daEnd.isLt
  exact (BitVec.toNat_add ..).trans (Nat.mod_eq_of_lt (show s.daNext.toNat + 1 < 2 ^ 16 by omega))

theorem dispatchAllAdvance_inv (h : s.Inv) (hcur : s.cur = some (encode .dispatchAll))
    (hgo : s.canProgress .dispatchAll) : (dispatchAllAdvance s).Inv := by
  obtain ⟨hlt, hend⟩ := hgo
  have hnext := daNext_add_one_toNat hlt
  exact
    { h with
      daOrder := by
        show (s.daNext + 1).toNat ≤ s.daEnd.toNat
        omega
      curLegal := fun w hw => by
        by_cases hlast : s.daNext + 1 = s.daEnd
        · cases (if_pos hlast).symm.trans hw
        · cases ((if_neg hlast).trans hcur).symm.trans hw
          have hne : (s.daNext + 1).toNat ≠ s.daEnd.toNat := fun heq => hlast (BitVec.eq_of_toNat_eq heq)
          refine ⟨.dispatchAll, decode_dispatchAll _, ?_, hend⟩
          show (s.daNext + 1).toNat < s.daEnd.toNat
          omega }

/-- The AddPacket step moves neither the engine nor the frame registers. -/
theorem addPacket_frame (p : Pid) (r : RecView) (s : State) :
    addPacket p r s = { s with metrics := (addPacket p r s).metrics, fifo := (addPacket p r s).fifo } := by
  rw [addPacket_eq]

theorem execDispatchAll_inv (h : s.Inv) (hgo : s.cur = none ∨ s.canProgress .dispatchAll)
    (ht : execDispatchAll s = .next t) : t.Inv := by
  rcases execDispatchAll_cases s with ⟨-, he⟩ | ⟨hcur, ⟨f, -, he⟩ | ⟨r, -, ⟨-, he⟩ | ⟨hheld, he⟩⟩⟩ <;>
    cases he.symm.trans ht
  · exact dispatchAllAccept_inv h
  · exact h
  · have hgo := hgo.resolve_left (by simp [hcur])
    refine dispatchAllAdvance_inv (addPacket_inv h hheld) ?_ ?_ <;> rw [addPacket_frame]
    · exact hcur
    · exact hgo

/-! ### A step -/

/-- A command keeps the invariant when nothing is in progress, and when it is itself in progress. -/
theorem exec_inv (h : s.Inv) (hgo : s.cur = none ∨ s.canProgress i) (ht : exec i s = .next t) : t.Inv := by
  cases i with
  | nop => cases ht; exact h
  | locate start =>
    obtain ⟨r, -, hr⟩ := orFault_next.1 ht
    cases hr
    exact setResult_inv h _
  | frame => exact execFrame_inv h (hgo.resolve_right id) ht
  | addPacket slot pid => exact execAddPacket_inv h ht
  | dispatch slot => exact execDispatch_inv h ht
  | dispatchAll => exact execDispatchAll_inv h hgo ht
  | windowTick => cases ht; exact windowRequest_inv h
  | readMetric f p => cases ht; exact setResult_inv h _
  | clearSession => cases ht; exact clearSession_inv h

theorem hostQueue_inv (h : s.Inv) (q : List HostAccess) : { s with hostQueue := q : State }.Inv :=
  h.congr rfl rfl rfl rfl rfl rfl rfl rfl rfl rfl rfl rfl rfl

@[simp] theorem takeTurn_cur (s : State) : (takeTurn s).2.cur = s.cur := by
  obtain ⟨w, ts, n, hframe⟩ := takeTurn_frame s
  rw [hframe]

@[simp] theorem takeTurn_pending (s : State) : (takeTurn s).2.pending = s.pending := by
  obtain ⟨w, ts, n, hframe⟩ := takeTurn_frame s
  rw [hframe]

/-- A word is issued in a state that meets the invariant, while nothing is in progress, or as the word in CUR. -/
theorem issues_inv {s' : State} {w : Word} (h : s.Inv) (hissue : Issues s w s') :
    s'.Inv ∧ (s'.cur = none ∨ s'.cur = some w) := by
  rcases hissue with ⟨-, hidle, q, -, rfl⟩ | ⟨-, hcur, rfl⟩
  · exact ⟨hostQueue_inv (takeTurn_inv h) q, .inl ((takeTurn_cur s).trans hidle)⟩
  · exact ⟨takeTurn_inv h, .inr ((takeTurn_cur s).trans hcur)⟩

theorem runWord_inv {w : Word} (h : s.Inv) (hcur : s.cur = none ∨ s.cur = some w) (ht : runWord w s = .next t) :
    t.Inv := by
  rcases runWord_cases w s with ⟨i, hd, he⟩ | ⟨r, -, he⟩ <;> rw [he] at ht
  · refine exec_inv h (hcur.imp_right fun hw => ?_) ht
    obtain ⟨j, hj, hgo⟩ := h.curLegal w hw
    cases hd.symm.trans hj
    exact hgo
  · cases ht
    exact complete_inv (illegalCommand_inv h)

/-- Settles O3, by the cases of a step (`step_cases`). -/
theorem stepKeepsInvariant : Obligations.StepKeepsInvariant := by
  unfold Obligations.StepKeepsInvariant
  intro s t h ht
  rcases step_cases s with hidle | ⟨w, s', hissue, hrun⟩ | ⟨a, q, -, -, hheld, hcmd, haccess⟩ |
    ⟨p, -, hp, hswap⟩ | ⟨-, htick⟩ | ⟨-, hreset⟩
  · cases hidle.symm.trans ht
    exact takeTurn_inv h
  · obtain ⟨hinv, hcur⟩ := issues_inv h hissue
    exact runWord_inv hinv hcur (hrun.symm.trans ht)
  · refine hostAccess_inv (hostQueue_inv (takeTurn_inv h) q) ?_ hcmd (haccess.symm.trans ht)
    rw [busy, takeTurn_cur]
    exact hheld
  · cases hswap.symm.trans ht
    exact swapStep_inv (takeTurn_inv h) (by rwa [takeTurn_pending])
  · cases htick.symm.trans ht
    exact windowRequest_inv (takeTurn_inv h)
  · cases hreset.symm.trans ht
    exact resetTurn_inv (takeTurn_inv h)

end Sys2Proof.Machine
end

section
/-! The whole-machine rules: who writes a metric entry, a sticky bit, RESULT, REC_COUNT and ERR_INFO, and that the
ENGINE's step never stops (spec/10_state.md): O54, O55, O56, O58 and O59. -/
namespace Sys2Proof.Machine
open Sys2Proof.Spec

variable {s s' t : State} {i : Instr} {p : Pid} {w : Word}

/-! ### A step in the spec's words -/

theorem takeTurn_metric (s : State) (p : Pid) : (takeTurn s).2.metric p = s.metric p := by
  obtain ⟨w, ts, n, hframe⟩ := takeTurn_frame s
  rw [hframe]
  rfl

/-- A word is issued in the state before the step, but for the model's own fields. -/
theorem exists_eq_of_issues (h : Issues s w s') :
    ∃ wl ts n q, s' = { s with wall := wl, turns := ts, freeTurns := n, hostQueue := q } := by
  obtain ⟨wl, ts, n, hframe⟩ := takeTurn_frame s
  rcases h with ⟨-, -, q, -, rfl⟩ | ⟨-, -, rfl⟩ <;> rw [hframe]
  · exact ⟨wl, ts, n, q, rfl⟩
  · exact ⟨wl, ts, n, s.hostQueue, rfl⟩

theorem runs_of_issues (h : Issues s w s') (hd : decode s.cfg w = .ok i) : Runs s i := by
  rcases h with ⟨hhost, hidle, q, hqueue, -⟩ | ⟨hengine, hcur, -⟩
  · exact .inl ⟨hhost, hidle, w, q, hqueue, hd⟩
  · exact .inr ⟨hengine, w, hcur, hd⟩

/-- What a step that goes on is: it runs a command or marks an illegal word, in the state before it but for the model's
own fields, or it is one of the other moves of `step_cases`. -/
theorem step_next_cases (h : step s = .next t) :
    t = (takeTurn s).2 ∨
    (∃ wl ts n q, ∃ s', s' = { s with wall := wl, turns := ts, freeTurns := n, hostQueue := q } ∧
      ((∃ i, Runs s i ∧ exec i s' = .next t) ∨ t = complete (illegalCommand s'))) ∨
    (∃ a q, Moves s .host ∧ s.hostQueue = a :: q ∧ (∀ v, a ≠ .regWrite 4#4 v) ∧
      hostAccess runWord a { (takeTurn s).2 with hostQueue := q } = .next t) ∨
    (∃ p, Moves s (.sweeper p) ∧ p.toNat ∈ s.pending ∧ t = swapStep p (takeTurn s).2) ∨
    t = windowRequest (takeTurn s).2 ∨
    (Moves s .reset ∧ t = resetTurn (takeTurn s).2) := by
  rcases step_cases s with hidle | ⟨w, s', hissue, hrun⟩ | ⟨a, q, hhost, hqueue, -, hcmd, haccess⟩ |
    ⟨p, hsweeper, hp, hswap⟩ | ⟨-, htick⟩ | ⟨hmoves, hreset⟩
  · cases hidle.symm.trans h
    exact .inl rfl
  · obtain ⟨wl, ts, n, q, hs'⟩ := exists_eq_of_issues hissue
    refine .inr (.inl ⟨wl, ts, n, q, s', hs', ?_⟩)
    rcases runWord_cases w s' with ⟨i, hd, he⟩ | ⟨r, -, he⟩
    · rw [hs'] at hd
      exact .inl ⟨i, runs_of_issues hissue hd, he.symm.trans (hrun.symm.trans h)⟩
    · cases he.symm.trans (hrun.symm.trans h)
      exact .inr rfl
  · exact .inr (.inr (.inl ⟨a, q, hhost, hqueue, hcmd, haccess.symm.trans h⟩))
  · cases hswap.symm.trans h
    exact .inr (.inr (.inr (.inl ⟨p, hsweeper, hp, rfl⟩)))
  · cases htick.symm.trans h
    exact .inr (.inr (.inr (.inr (.inl rfl))))
  · cases hreset.symm.trans h
    exact .inr (.inr (.inr (.inr (.inr ⟨hmoves, rfl⟩))))

/-! ### The writers of a metric entry -/

/-- A step runs a packet command that adds a record to PID `p`. -/
def AddsPacketTo (s : State) (p : Pid) : Prop :=
  (∃ k, Runs s (.addPacket k p)) ∨
  (∃ k r, Runs s (.dispatch k) ∧ readRecord s.recs k.toNat = .ok r ∧ r.pid = p) ∨
  (∃ r, Runs s .dispatchAll ∧ readRecord s.recs s.daNext.toNat = .ok r ∧ r.pid = p)

/-- What a command may do to an entry (rules R60, R320 and R335). -/
theorem exec_metric (h : exec i s = .next t) (p : Pid) :
    t.metric p = s.metric p ∨ i = .clearSession ∨
    (SameSnapshot (s.metric p) (t.metric p) ∧ (t.metric p).observed = true ∧
      ((∃ k, i = .addPacket k p) ∨
       (∃ k r, i = .dispatch k ∧ readRecord s.recs k.toNat = .ok r ∧ r.pid = p) ∨
       (∃ r, i = .dispatchAll ∧ readRecord s.recs s.daNext.toNat = .ok r ∧ r.pid = p))) := by
  obtain ⟨-, -, -, -, -, -, -, -, -, -, hmetric⟩ := exec_frame h
  exact hmetric p

/-- What a step may do to an entry. -/
theorem step_metric (h : step s = .next t) (p : Pid) :
    t.metric p = s.metric p ∨ Moves s .reset ∨ Runs s .clearSession ∨
    (Moves s (.sweeper p) ∧ p.toNat ∈ s.pending ∧ t.metric p = swapMetric (s.metric p)) ∨
    (SameSnapshot (s.metric p) (t.metric p) ∧ (t.metric p).observed = true ∧ AddsPacketTo s p) := by
  rcases step_next_cases h with rfl | ⟨wl, ts, n, q, s', rfl, ⟨i, hruns, hexec⟩ | rfl⟩ |
    ⟨a, q, -, -, hcmd, haccess⟩ | ⟨p', hsweeper, hp, rfl⟩ | rfl | ⟨hmoves, -⟩
  · exact .inl (takeTurn_metric s p)
  · rcases exec_metric hexec p with hsame | rfl | ⟨hperiod, hobs, hwho⟩
    · exact .inl hsame
    · exact .inr (.inr (.inl hruns))
    · refine .inr (.inr (.inr (.inr ⟨hperiod, hobs, ?_⟩)))
      rcases hwho with ⟨k, rfl⟩ | ⟨k, r, rfl, hr⟩ | ⟨r, rfl, hr⟩
      · exact .inl ⟨k, hruns⟩
      · exact .inr (.inl ⟨k, r, hruns, hr⟩)
      · exact .inr (.inr ⟨r, hruns, hr⟩)
  · exact .inl rfl
  · obtain ⟨hmetrics, -⟩ := hostAccess_frame hcmd haccess
    refine .inl (Eq.trans ?_ (takeTurn_metric s p))
    rw [State.metric, hmetrics]
    rfl
  · by_cases hpp : p = p'
    · subst hpp
      exact .inr (.inr (.inr (.inl ⟨hsweeper, hp, by rw [swapStep_metric_same, takeTurn_metric]⟩)))
    · exact .inl ((swapStep_metric_other hpp _).trans (takeTurn_metric s p))
  · exact .inl (takeTurn_metric s p)
  · exact .inr (.inl hmoves)

/-- Settles O54: `step_metric`, where the swap is the spec's (`swapped_swapMetric`). -/
theorem metricTableWriters : Obligations.MetricTableWriters := by
  unfold Obligations.MetricTableWriters
  intro s t p h hne
  rcases step_metric h p with hsame | hreset | hclear | ⟨hsweeper, hp, hswap⟩ | ⟨hperiod, -, hadds⟩
  · exact absurd hsame hne
  · exact .inl hreset
  · exact .inr (.inl hclear)
  · exact .inr (.inr (.inl ⟨hsweeper, hp, hswap ▸ swapped_swapMetric _⟩))
  · exact .inr (.inr (.inr ⟨hperiod, hadds⟩))

/-- Settles O55: a swap keeps the bit and a packet sets it (`step_metric`). -/
theorem observedStaysSet : Obligations.ObservedStaysSet := by
  unfold Obligations.ObservedStaysSet
  intro s t p h hbefore hafter
  rcases step_metric h p with hsame | hreset | hclear | ⟨-, -, hswap⟩ | ⟨-, hobs, -⟩
  · rw [hsame, hbefore] at hafter
    cases hafter
  · exact .inl hreset
  · exact .inr hclear
  · rw [hswap, swapMetric_observed, hbefore] at hafter
    cases hafter
  · rw [hobs] at hafter
    cases hafter

/-! ### The sticky bits -/

/-- Every sticky bit that is set stays set. -/
def StickyKept (s t : State) : Prop :=
  (s.usageErr = true → t.usageErr = true) ∧ (s.cmdErr = true → t.cmdErr = true) ∧
  (s.tickOverrun = true → t.tickOverrun = true)

theorem stickyKept_of_eq (husage : t.usageErr = s.usageErr) (hcmd : t.cmdErr = s.cmdErr)
    (htick : t.tickOverrun = s.tickOverrun) : StickyKept s t :=
  ⟨husage.trans, hcmd.trans, htick.trans⟩

theorem takeTurn_sticky (s : State) : StickyKept s (takeTurn s).2 := by
  obtain ⟨w, ts, n, hframe⟩ := takeTurn_frame s
  rw [hframe]
  exact stickyKept_of_eq rfl rfl rfl

theorem StickyKept.trans {u : State} (h : StickyKept s t) (h' : StickyKept t u) : StickyKept s u :=
  ⟨h'.1 ∘ h.1, h'.2.1 ∘ h.2.1, h'.2.2 ∘ h.2.2⟩

theorem exec_sticky (h : exec i s = .next t) : StickyKept s t := by
  obtain ⟨-, -, -, husage, hcmd, htick, -⟩ := exec_frame h
  exact ⟨husage, hcmd, htick⟩

theorem windowRequest_sticky (s : State) : StickyKept s (windowRequest s) :=
  ⟨id, id, fun h => (windowRequest_tickOverrun_iff s).2 (.inl h)⟩

/-- Rule R33: a step that is no reset keeps the sticky bits, but for those that a write of STATUS writes with 1. -/
theorem step_sticky (h : step s = .next t) :
    StickyKept s t ∨ Moves s .reset ∨
    (Moves s .host ∧ ∃ v q, s.hostQueue = .regWrite 2#4 v :: q ∧
      StickyKept s { t with
        usageErr := t.usageErr || v.getLsbD 8, cmdErr := t.cmdErr || v.getLsbD 9
        tickOverrun := t.tickOverrun || v.getLsbD 10 }) := by
  rcases step_next_cases h with rfl | ⟨wl, ts, n, q, s', rfl, ⟨i, -, hexec⟩ | rfl⟩ |
    ⟨a, q, hhost, hqueue, hcmd, haccess⟩ | ⟨p', -, -, rfl⟩ | rfl | ⟨hmoves, -⟩
  · exact .inl (takeTurn_sticky s)
  · have hkept := exec_sticky hexec
    exact .inl hkept
  · exact .inl ⟨id, fun _ => rfl, id⟩
  · obtain ⟨-, -, ⟨v, rfl, rfl⟩ | ⟨husage, hcmd, htick⟩, -⟩ := hostAccess_frame hcmd haccess
    · refine .inr (.inr ⟨hhost, v, q, hqueue, (takeTurn_sticky s).trans ?_⟩)
      refine ⟨fun h => ?_, fun h => ?_, fun h => ?_⟩ <;> simp [writeStatus, h]
    · exact .inl ((takeTurn_sticky s).trans (stickyKept_of_eq husage hcmd htick))
  · exact .inl (takeTurn_sticky s)
  · exact .inl ((takeTurn_sticky s).trans (windowRequest_sticky _))
  · exact .inr (.inl hmoves)

/-- Settles O56: of the moves that are no reset only a write of STATUS can clear a bit, and it clears the bits it writes
with 1 (`step_sticky`). -/
theorem stickyBitsStaySet : Obligations.StickyBitsStaySet := by
  unfold Obligations.StickyBitsStaySet
  intro s t h
  rcases step_sticky h with ⟨husage, hcmd, htick⟩ | hreset | ⟨hhost, v, q, hqueue, husage, hcmd, htick⟩
  · refine ⟨fun h h' => ?_, fun h h' => ?_, fun h h' => ?_⟩
    · cases h'.symm.trans (husage h)
    · cases h'.symm.trans (hcmd h)
    · cases h'.symm.trans (htick h)
  · exact ⟨fun _ _ => .inl hreset, fun _ _ => .inl hreset, fun _ _ => .inl hreset⟩
  · refine ⟨fun h h' => .inr ⟨hhost, v, q, hqueue, ?_⟩, fun h h' => .inr ⟨hhost, v, q, hqueue, ?_⟩,
      fun h h' => .inr ⟨hhost, v, q, hqueue, ?_⟩⟩
    · simpa [h'] using husage h
    · simpa [h'] using hcmd h
    · simpa [h'] using htick h

/-! ### RESULT, REC_COUNT and ERR_INFO -/

/-- The registers of rules R36 to R38 are the same. -/
def ResultsKept (s t : State) : Prop :=
  t.resultLo = s.resultLo ∧ t.resultHi = s.resultHi ∧ t.recCount = s.recCount ∧ t.errInfo = s.errInfo

theorem takeTurn_results (s : State) : ResultsKept s (takeTurn s).2 := by
  obtain ⟨w, ts, n, hframe⟩ := takeTurn_frame s
  rw [hframe]
  exact ⟨rfl, rfl, rfl, rfl⟩

/-- Only a command and a reset write these registers. -/
theorem step_results (h : step s = .next t) :
    ResultsKept s t ∨ Moves s .reset ∨
    ∃ i wl ts n q, Runs s i ∧
      exec i { s with wall := wl, turns := ts, freeTurns := n, hostQueue := q } = .next t := by
  rcases step_next_cases h with rfl | ⟨wl, ts, n, q, s', rfl, ⟨i, hruns, hexec⟩ | rfl⟩ |
    ⟨a, q, -, -, hcmd, haccess⟩ | ⟨p', -, -, rfl⟩ | rfl | ⟨hmoves, -⟩
  · exact .inl (takeTurn_results s)
  · exact .inr (.inr ⟨i, wl, ts, n, q, hruns, hexec⟩)
  · exact .inl ⟨rfl, rfl, rfl, rfl⟩
  · obtain ⟨-, -, -, hlo, hhi, hcount, herr, -⟩ := hostAccess_frame hcmd haccess
    obtain ⟨hlo', hhi', hcount', herr'⟩ := takeTurn_results s
    exact .inl ⟨hlo.trans hlo', hhi.trans hhi', hcount.trans hcount', herr.trans herr'⟩
  · exact .inl (takeTurn_results s)
  · exact .inl (takeTurn_results s)
  · exact .inr (.inl hmoves)

/-- Settles O58: the commands that write each register are those `exec_frame` names. -/
theorem resultAndFrameRegisterWriters : Obligations.ResultAndFrameRegisterWriters := by
  unfold Obligations.ResultAndFrameRegisterWriters
  intro s t h
  rcases step_results h with ⟨hlo, hhi, hcount, herr⟩ | hreset | ⟨i, wl, ts, n, q, hruns, hexec⟩
  · exact ⟨fun h => (h.elim (absurd hlo) (absurd hhi)), absurd hcount, absurd herr⟩
  · exact ⟨fun _ => .inl hreset, fun _ => .inl hreset, fun _ => .inl hreset⟩
  · obtain ⟨-, -, -, -, -, -, hresult, hcount, herr, -⟩ := exec_frame hexec
    refine ⟨fun h => .inr ?_, fun h => .inr ?_, fun h => .inr ?_⟩
    · rcases hresult h with ⟨a, rfl⟩ | ⟨f, p, rfl⟩
      · exact .inl ⟨a, hruns⟩
      · exact .inr ⟨f, p, hruns⟩
    · cases hcount h
      exact hruns
    · obtain ⟨rfl, hstatus⟩ := herr h
      exact ⟨hruns, hstatus⟩

/-! ### The ENGINE -/

theorem execAddPacket_goes_on {r : RecView} {slot : BitVec 12} (hr : readRecord s.recs slot.toNat = .ok r) (pid : Pid) :
    ∃ t, execAddPacket slot pid s = .next t := by
  rcases execAddPacket_cases slot pid s with ⟨-, he⟩ | ⟨-, ⟨f, hf, -⟩ | ⟨r', -, ⟨-, he⟩ | ⟨-, he⟩⟩⟩
  · exact ⟨_, he⟩
  · cases hf.symm.trans hr
  · exact ⟨_, he⟩
  · exact ⟨_, he⟩

theorem execDispatch_goes_on {r : RecView} {slot : BitVec 12} (hr : readRecord s.recs slot.toNat = .ok r) :
    ∃ t, execDispatch slot s = .next t := by
  rcases execDispatch_cases slot s with ⟨-, he⟩ | ⟨-, ⟨f, hf, -⟩ | ⟨r', -, he⟩⟩
  · exact ⟨_, he⟩
  · cases hf.symm.trans hr
  · exact ⟨_, he⟩

theorem execDispatchAll_goes_on {r : RecView} (hr : readRecord s.recs s.daNext.toNat = .ok r) :
    ∃ t, execDispatchAll s = .next t := by
  rcases execDispatchAll_cases s with ⟨-, he⟩ | ⟨-, ⟨f, hf, -⟩ | ⟨r', -, ⟨-, he⟩ | ⟨-, he⟩⟩⟩
  · exact ⟨_, he⟩
  · cases hf.symm.trans hr
  · exact ⟨_, he⟩
  · exact ⟨_, he⟩

/-- Every slot that REC_COUNT counts holds a record that a packet command can read (rules R37 and R180). -/
theorem readRecord_of_lt_recCount (h : s.Inv) {k : Nat} (hk : k < s.recCount.toNat) :
    ∃ r, readRecord s.recs k = .ok r :=
  readRecord_written fun x hx => h.recordsWritten k hk x (by omega)

/-- Rule R402: a command that can be in progress is a packet command, and its step finds what it reads. -/
theorem exec_of_canProgress (h : s.Inv) (hgo : s.canProgress i) :
    (∃ t, exec i s = .next t) ∧ ((∃ k p, i = .addPacket k p) ∨ (∃ k, i = .dispatch k) ∨ i = .dispatchAll) := by
  cases i with
  | nop | locate _ | frame | windowTick | readMetric _ _ | clearSession => exact hgo.elim
  | addPacket slot pid =>
    obtain ⟨r, hr, -⟩ := hgo
    exact ⟨execAddPacket_goes_on hr pid, .inl ⟨slot, pid, rfl⟩⟩
  | dispatch slot =>
    obtain ⟨r, hr⟩ := hgo
    exact ⟨execDispatch_goes_on hr, .inr (.inl ⟨slot, rfl⟩)⟩
  | dispatchAll =>
    obtain ⟨hlt, hend⟩ := hgo
    obtain ⟨r, hr⟩ := readRecord_of_lt_recCount h (hend ▸ hlt)
    exact ⟨execDispatchAll_goes_on hr, .inr (.inr rfl)⟩

theorem runWord_of_decode (h : decode s.cfg w = .ok i) : runWord w s = exec i s := by
  rw [runWord, h]

theorem step_engine (h : Moves s .engine) : step s = engineTurn runWord (takeTurn s).2 := by
  rw [step, show (takeTurn s).1 = .engine from h]
  rfl

/-- Settles O59: the invariant says of the word in CUR that its command can be in progress. -/
theorem engineNeverStops : Obligations.EngineNeverStops := by
  unfold Obligations.EngineNeverStops
  intro s h hmoves
  have hinv := takeTurn_inv h
  rw [step_engine hmoves, engineTurn, takeTurn_cur]
  cases hcur : s.cur with
  | none => exact ⟨⟨_, rfl⟩, nofun⟩
  | some c =>
    obtain ⟨i, hd, hgo⟩ := hinv.curLegal c ((takeTurn_cur s).trans hcur)
    obtain ⟨hexec, hkind⟩ := exec_of_canProgress hinv hgo
    have hd' : decode s.cfg c = .ok i := by rwa [takeTurn_cfg] at hd
    rw [← runWord_of_decode hd] at hexec
    refine ⟨hexec, fun c' hc' => ?_⟩
    cases hc'
    rcases hkind with ⟨k, p, rfl⟩ | ⟨k, rfl⟩ | rfl
    · exact .inl ⟨k, p, hd'⟩
    · exact .inr (.inl ⟨k, hd'⟩)
    · exact .inr (.inr hd')

end Sys2Proof.Machine
end

section
/-! The steps of the HOST and of the reset input, and the host commands (rules R30 to R44, R80 to R86, R330 to R335 and
R390): O1, O8, O9, O45, O47, O49, O51, O52 and O53. -/
namespace Sys2Proof.Machine
open Sys2Proof.Spec

variable {s : State} {w : U64} {ts : List Turn} {a : HostAccess} {q : List HostAccess} {x : BitVec 4}

/-! ### Which access a turn of the HOST makes -/

theorem busy_of_cur_ne_none (h : s.cur ≠ none) : busy s = true := Option.isSome_iff_ne_none.2 h

theorem busy_of_idle (h : s.cur = none) : busy s = false := by rw [busy, h, Option.isSome_none]

/-- Rules R35 and R44: an access that BUSY does not hold is made, in the state with the turn and the access taken. -/
theorem step_access (h : HostMoves s w ts a q) (hfree : (busy s && heldWhileBusy a) = false) :
    step s = hostAccess runWord a (afterHost s w ts q) :=
  step_host h.1 h.2 hfree

/-- An access that is never held. -/
theorem step_access_unheld (h : HostMoves s w ts a q) (ha : heldWhileBusy a = false) :
    step s = hostAccess runWord a (afterHost s w ts q) :=
  step_access h (by rw [ha, Bool.and_false])

/-- Any access while BUSY = 0. -/
theorem step_access_idle (h : HostMoves s w ts a q) (hidle : s.cur = none) :
    step s = hostAccess runWord a (afterHost s w ts q) :=
  step_access h (by rw [busy_of_idle hidle, Bool.false_and])

theorem step_access_held (h : HostMoves s w ts a q) (hcur : s.cur ≠ none) (ha : heldWhileBusy a = true) :
    step s = .next { s with turns := ts, wall := w } :=
  step_host_held h.1 h.2 (busy_of_cur_ne_none hcur) ha

/-! ### Register reads -/

/-- Rule R86: only a read of EVT_POP changes more than what the read returns. -/
theorem readReg_of_ne_evtPop {r : Reg} (h : r ≠ .evtPop) (s : State) :
    readReg r s = { s with lastRead := some (regValue s r) } := by
  cases r with
  | evtPop => exact absurd rfl h
  | _ => rfl

theorem readReg_frame (r : Reg) (s : State) :
    (readReg r s).hostQueue = s.hostQueue ∧ (readReg r s).cur = s.cur := by
  cases r <;> exact ⟨rfl, rfl⟩

/-- No register shows the model's own fields. -/
theorem regValue_afterHost (s : State) (w : U64) (ts : List Turn) (q : List HostAccess) (r : Reg) :
    regValue (afterHost s w ts q) r = regValue s r := by
  cases r <;> rfl

theorem regAt_eq_evtPop_iff : ∀ x : BitVec 4, regAt x = .evtPop ↔ x = 10#4 := by decide

theorem step_regRead (h : HostMoves s w ts (.regRead x) q) :
    step s = .next (readReg (regAt x) (afterHost s w ts q)) :=
  step_access_unheld h rfl

/-- A read of any register but EVT_POP (rule R30). -/
theorem step_regRead_of_ne (h : HostMoves s w ts (.regRead x) q) (hx : x ≠ 10#4) :
    step s = .next { afterHost s w ts q with lastRead := some (regValue s (regAt x)) } := by
  rw [step_regRead h, readReg_of_ne_evtPop ((regAt_eq_evtPop_iff x).not.2 hx), regValue_afterHost]

/-- Rule R40: bit 31 and the oldest PID. -/
theorem evtPopWord_cons (p : Pid) (ps : List Pid) : evtPopWord (p :: ps) = BitVec.ofNat 32 (2 ^ 31 + p.toNat) := by
  have hp := p.isLt
  apply BitVec.eq_of_toNat_eq
  simp only [evtPopWord, append_toNat, BitVec.toNat_ofNat]
  omega

theorem readReg_evtPop_cons {p : Pid} {ps : List Pid} (h : s.fifo = p :: ps) :
    readReg .evtPop s = { s with fifo := ps, lastRead := some (BitVec.ofNat 32 (2 ^ 31 + p.toNat)) } := by
  rw [readReg, regValue, popIfEvtPop, h, evtPopWord_cons]
  rfl

/-- Rule R40: an empty FIFO reads 0 and stays empty. -/
theorem readReg_evtPop_nil (h : s.fifo = []) : readReg .evtPop s = { s with lastRead := some 0 } := by
  have hpop : popIfEvtPop .evtPop s = s := by rw [popIfEvtPop, h, List.drop_nil, ← h]
  have hword : evtPopWord s.fifo = 0 := by rw [h]; rfl
  rw [readReg, regValue, hpop, hword, returnRead]

/-- Settles O49: a read is `readReg` of the register at its offset, and EVT_POP stands at offset 10 only. -/
theorem registerReads : Obligations.RegisterReads := by
  unfold Obligations.RegisterReads
  refine ⟨rfl, fun s w ts q h => ⟨fun p ps hfifo => ?pop, fun hfifo => ?empty⟩,
    fun s w ts x q h hx => step_regRead_of_ne h hx⟩
  case pop => exact (step_regRead h).trans (congrArg _ (readReg_evtPop_cons (s := afterHost s w ts q) hfifo))
  case empty => exact (step_regRead h).trans (congrArg _ (readReg_evtPop_nil (s := afterHost s w ts q) hfifo))

/-! ### Writes that are ignored or held -/

/-- Rule R30: at offset 0, and from offset 0x14 on, stands no register that a write reaches. -/
theorem regAt_ignores_writes : ∀ x : BitVec 4, (x = 0#4 ∨ 5#4 ≤ x) →
    regAt x ≠ .cmd ∧ regAt x ≠ .bufLen ∧ regAt x ≠ .ctrl ∧ regAt x ≠ .status := by decide

/-- Rule R43: a write of any other register stores nothing. -/
theorem writeReg_of_ne {r : Reg} (hlen : r ≠ .bufLen) (hctrl : r ≠ .ctrl) (hstatus : r ≠ .status) (v : Word)
    (s : State) : writeReg r v s = s := by
  cases r with
  | ctrl => exact absurd rfl hctrl
  | status => exact absurd rfl hstatus
  | bufLen => exact absurd rfl hlen
  | _ => rfl

theorem regAt_reserved : ∀ x : BitVec 4, 13#4 ≤ x → regAt x = .reserved ∧ x ≠ 10#4 := by decide

/-- Settles O51: these offsets hold no register a write stores to, and offsets 13 to 15 none at all. -/
theorem ignoredWritesAndReservedReads : Obligations.IgnoredWritesAndReservedReads := by
  unfold Obligations.IgnoredWritesAndReservedReads
  refine ⟨fun s w ts x v q h hx => ?write, fun s w ts x q h hx => ?read⟩
  case write =>
    obtain ⟨hcmd, hlen, hctrl, hstatus⟩ := regAt_ignores_writes x hx
    rw [step_regWrite h hcmd (.inr hlen), writeReg_of_ne hlen hctrl hstatus]
  case read =>
    obtain ⟨hres, hne⟩ := regAt_reserved x hx
    rw [step_regRead_of_ne h hne, hres]
    rfl

/-- Settles O52: `heldWhileBusy` holds exactly the writes the rule lists. -/
theorem hostAccessWhileBusy : Obligations.HostAccessWhileBusy := by
  unfold Obligations.HostAccessWhileBusy
  intro s w ts a q h hcur
  refine ⟨fun hheld => step_access_held h hcur ?_, fun hfree => ?_⟩
  · rcases hheld with ⟨v, rfl⟩ | ⟨v, rfl⟩ | ⟨i, b, rfl⟩ | ⟨k, x, v, rfl⟩ <;> rfl
  · rcases hfree with ⟨x, rfl⟩ | ⟨v, rfl⟩ | ⟨v, rfl⟩
    · exact ⟨_, step_regRead h, readReg_frame _ _⟩
    · exact ⟨_, step_regWrite h (by decide) (.inr (by decide)), rfl, rfl⟩
    · exact ⟨_, step_regWrite h (by decide) (.inr (by decide)), rfl, rfl⟩

/-- Rule R70: a listed turn of the ENGINE runs the command in progress. -/
theorem step_engine_listed {c : Word} {i : Instr} (h : s.turns = { agent := .engine, wall := w } :: ts)
    (hcur : s.cur = some c) (hd : decode s.cfg c = .ok i) : step s = exec i { s with turns := ts, wall := w } := by
  have hrun : engineTurn runWord { s with turns := ts, wall := w } = runWord c { s with turns := ts, wall := w } := by
    rw [engineTurn, hcur]
  rw [step_listed h, agentStep, hrun]
  exact runWord_of_decode hd

/-- Settles O8: a CMD write that is not held runs its word, and so does an ENGINE turn the word in CUR. -/
theorem stepRunsTheIssuedCommand : Obligations.StepRunsTheIssuedCommand := by
  unfold Obligations.StepRunsTheIssuedCommand
  exact ⟨fun s wl ts c q i h hidle hd => (step_cmdWrite h hidle).trans (runWord_of_decode hd),
    fun s wl ts c i hturn hcur hd => step_engine_listed hturn hcur hd,
    fun s wl ts c q h hcur => step_access_held h hcur rfl, fun s wl ts q h => step_regRead_of_ne h (by decide)⟩

/-! ### The buffer and record ports -/

theorem writeBuf_eq (i : BitVec 24) (b : Byte) (s : State) :
    writeBuf i b s = { s with buf := (writeBuf i b s).buf } := by
  unfold writeBuf
  split <;> rfl

/-- Rule R81: what a read finds after a write through the buffer port. -/
theorem read_writeBuf (i : BitVec 24) (b : Byte) (s : State) (j : Nat) :
    Memory.read (writeBuf i b s).buf j =
      if j = i.toNat ∧ i.toNat < s.cfg.bufMax then some b else Memory.read s.buf j := by
  unfold writeBuf
  by_cases hi : i.toNat < s.cfg.bufMax
  · simp only [hi, if_true, and_true, Memory.read_write]
  · simp only [hi, if_false, and_false]

theorem writeRec_eq (k : Nat) (x : BitVec 4) (v : Word) (s : State) :
    writeRec k x v s = { s with recs := (writeRec k x v s).recs } := by
  unfold writeRec
  split <;> rfl

/-- Rule R82: what a read finds after a write through the record port. -/
theorem read_writeRec (k : Nat) (x : BitVec 4) (v : Word) (s : State) (j : Nat) :
    Memory.read (writeRec k x v s).recs j =
      if j = 16 * k + x.toNat ∧ k < s.cfg.recMax then some v else Memory.read s.recs j := by
  unfold writeRec
  by_cases hk : k < s.cfg.recMax
  · simp only [hk, if_true, and_true, Memory.read_write, recKey]
  · simp only [hk, if_false, and_false]

theorem readBuf_out_of_range {i : BitVec 24} (h : s.cfg.bufMax ≤ i.toNat) :
    readBuf i s = .next { s with lastRead := some 0 } :=
  if_neg (Nat.not_lt.2 h)

theorem readBuf_written {i : BitVec 24} {b : Byte} (h : i.toNat < s.cfg.bufMax)
    (hb : Memory.read s.buf i.toNat = some b) :
    readBuf i s = .next { s with lastRead := some (BitVec.ofNat 32 b.toNat) } := by
  rw [readBuf, if_pos h, readByte_ok.2 hb, BitVec.ofNat_toNat]
  rfl

theorem readBuf_unwritten {i : BitVec 24} (h : i.toNat < s.cfg.bufMax) (hb : Memory.read s.buf i.toNat = none) :
    readBuf i s = .fault (.bufUnwritten i.toNat) := by
  rw [readBuf, if_pos h, readByte_error.2 ⟨hb, rfl⟩]
  rfl

theorem readRec_out_of_range {k : Nat} (h : s.cfg.recMax ≤ k) (x : BitVec 4) :
    readRec k x s = .next { s with lastRead := some 0 } :=
  if_neg (Nat.not_lt.2 h)

theorem readRec_written {k : Nat} {v : Word} (h : k < s.cfg.recMax)
    (hv : Memory.read s.recs (16 * k + x.toNat) = some v) :
    readRec k x s = .next { s with lastRead := some v } := by
  rw [readRec, if_pos h, readRecWord_ok.2 hv]
  rfl

theorem readRec_unwritten {k : Nat} (h : k < s.cfg.recMax) (hv : Memory.read s.recs (16 * k + x.toNat) = none) :
    readRec k x s = .fault (.recUnwritten k x.toNat) := by
  rw [readRec, if_pos h, readRecWord_error.2 ⟨hv, rfl⟩]
  rfl

/-- Settles O53: each access is made in the state with its turn taken, where the ports' own lemmas say what it does. -/
theorem bufferAndRecordPorts : Obligations.BufferAndRecordPorts := by
  unfold Obligations.BufferAndRecordPorts
  refine ⟨fun s w ts q hidle => ⟨fun i b h => ?bufWrite, fun k x v h => ?recWrite⟩,
    fun s w ts q => ⟨fun i h => ?bufRead, fun k x h => ?recRead⟩⟩
  case bufWrite => exact ⟨_, step_access_idle h hidle, writeBuf_eq .., read_writeBuf i b (afterHost s w ts q)⟩
  case recWrite => exact ⟨_, step_access_idle h hidle, writeRec_eq .., read_writeRec k x v (afterHost s w ts q)⟩
  case bufRead =>
    rw [step_access_unheld h rfl]
    exact ⟨fun hi => readBuf_out_of_range hi,
      fun hi => ⟨fun b hb => readBuf_written (s := afterHost s w ts q) hi hb,
        fun hb => readBuf_unwritten (s := afterHost s w ts q) hi hb⟩⟩
  case recRead =>
    rw [step_access_unheld h rfl]
    exact ⟨fun hk => readRec_out_of_range (s := afterHost s w ts q) hk x,
      fun hk => ⟨fun v hv => readRec_written (s := afterHost s w ts q) hk hv,
        fun hv => readRec_unwritten (s := afterHost s w ts q) hk hv⟩⟩

/-! ### The host commands -/

/-- Settles O9. -/
theorem nopChangesNothing : Obligations.NopChangesNothing := by
  unfold Obligations.NopChangesNothing
  exact fun s => rfl

/-- Rule R36: RESULT_HI:RESULT_LO is the whole value. -/
theorem setResult_toNat (v : U64) (s : State) :
    (setResult v s).resultLo.toNat + 2 ^ 32 * (setResult v s).resultHi.toNat = v.toNat := by
  rw [setResult_resultLo, setResult_resultHi, low_word_toNat, high_part_toNat _ _ (by decide)]
  omega

/-- Field 0 of rule R332's table, bit by bit. -/
theorem stateField_toNat (e : Metric) (p : Pid) : (stateField e p).toNat = fieldValue .state p e := by
  simp only [stateField, append_toNat, ofBool_toNat_eq_flag, BitVec.toNat_ofNat, fieldValue]
  omega

/-- Rule R332's table. -/
theorem metricField_toNat (e : Metric) (p : Pid) (f : MetricField) : (metricField e p f).toNat = fieldValue f p e := by
  cases f with
  | state => exact stateField_toNat e p
  | lastPcr | refPcr => exact BitVec.toNat_setWidth_of_le (by decide)
  | _ => rfl

/-- Settles O45: RESULT holds the 64-bit field, which is the table's value. -/
theorem readMetricGivesField : Obligations.ReadMetricGivesField := by
  unfold Obligations.ReadMetricGivesField
  intro s f p
  exact ⟨_, exec_readMetric f p s, rfl, (setResult_toNat _ s).trans (metricField_toNat ..)⟩

/-- Rule R62: the fields of an entry that is all zero. -/
theorem fieldValue_zero (f : MetricField) (p : Pid) :
    fieldValue f p Metric.zero = if f = .state then p.toNat else 0 := by
  cases f <;> rfl

/-- Settles O47: an empty table reads as entries that are all zero. -/
theorem clearSessionClearsMetrics : Obligations.ClearSessionClearsMetrics := by
  unfold Obligations.ClearSessionClearsMetrics
  intro s
  exact ⟨_, rfl, rfl, fun p f => fieldValue_zero f p⟩

/-! ### The reset input -/

/-- Rule R390: but for ID and the two words of the parameters, every register reads 0 after reset. -/
theorem regValue_resetTurn {r : Reg} (hid : r ≠ .id) (hparams : r ≠ .params) (hmax : r ≠ .bufMax) (s : State) :
    regValue (resetTurn s) r = 0 := by
  apply BitVec.eq_of_toNat_eq
  cases r with
  | id => exact absurd rfl hid
  | params => exact absurd rfl hparams
  | bufMax => exact absurd rfl hmax
  | ctrl => exact (ctrlWord_toNat _).trans rfl
  | status => exact (statusWord_toNat _).trans rfl
  | bufLen | recCount => exact (zero_append_toNat _).trans rfl
  | errInfo => exact (errInfoWord_toNat _).trans rfl
  | evtCount => exact (evtCountWord_toNat (s := resetTurn s) (show 0 < 2 ^ 8 by decide)).trans rfl
  | cmd | resultLo | resultHi | evtPop | reserved => rfl

/-- Settles O1: the step is `resetTurn`, which keeps the parameters and nothing else of the block. -/
theorem resetInputGivesResetValues : Obligations.ResetInputGivesResetValues := by
  unfold Obligations.ResetInputGivesResetValues
  intro s w ts h
  have hzero (r : Reg) (hid : r ≠ .id) (hparams : r ≠ .params) (hmax : r ≠ .bufMax) :=
    regValue_resetTurn hid hparams hmax { s with turns := ts, wall := w }
  refine ⟨_, step_listed h, rfl, rfl, hzero _ ?_ ?_ ?_, hzero _ ?_ ?_ ?_, hzero _ ?_ ?_ ?_, hzero _ ?_ ?_ ?_,
    hzero _ ?_ ?_ ?_, hzero _ ?_ ?_ ?_, hzero _ ?_ ?_ ?_, hzero _ ?_ ?_ ?_, hzero _ ?_ ?_ ?_, hzero _ ?_ ?_ ?_,
    rfl, rfl, hzero _ ?_ ?_ ?_, fun p f => fieldValue_zero f p, rfl, rfl, rfl, rfl, rfl, fun i => rfl,
    fun k x => rfl⟩
  all_goals decide

end Sys2Proof.Machine
end

section
/-! FRAME and the units it decodes: its three outcomes, the records it commits, the first framing-fatal unit, a unit
that fails the gate, and where a record's payload and PES header lie (spec/41_packet_framer.md): O12, O13, O14, O18
and O22. -/
namespace Sys2Proof.Machine
open Sys2Proof.Spec

variable {buf : List Host.Cell} {mode : PcrMode} {n start o i x : Nat} {u : UnitRecord} {s t : State}

/-! ### The locator's answers, on any buffer -/

theorem locatedAt_of_locate (h : locate buf n start = .ok (some i)) : LocatedAt buf n start i := by
  rcases locate_cases buf n start with ⟨f, x, he, -⟩ | ⟨x, he, hsize, hstart, hx, hsync, hfirst⟩ | ⟨he, -⟩ <;>
    cases he.symm.trans h
  exact ⟨hsize, hstart, ⟨hx, hsync⟩, fun j h1 h2 hj => hfirst j h1 h2 (confirmed_iff.1 hj).2⟩

theorem nothingLocated_of_locate (h : locate buf n start = .ok none) : NothingLocated buf n start := by
  rcases locate_cases buf n start with ⟨f, x, he, -⟩ | ⟨x, he, -⟩ | ⟨he, hno⟩ <;> cases he.symm.trans h
  refine hno.imp_right fun hno j hj hc => ?_
  obtain ⟨hjn, hsync⟩ := confirmed_iff.1 hc
  exact hno j hj hjn hsync

theorem not_nothingLocated_of_locatedAt (h : LocatedAt buf n start i) : ¬ NothingLocated buf n start := by
  obtain ⟨hsize, hstart, hconf, -⟩ := h
  rintro (hn | hno)
  · omega
  · exact hno i hstart hconf

/-- The first confirmed offset is one. -/
theorem locatedAt_unique {j : Nat} (hi : LocatedAt buf n start i) (hj : LocatedAt buf n start j) : i = j := by
  obtain ⟨-, hstart, hconf, hfirst⟩ := hi
  obtain ⟨-, hstart', hconf', hfirst'⟩ := hj
  rcases Nat.lt_trichotomy i j with hlt | heq | hlt
  · exact absurd hconf (hfirst' i hstart hlt)
  · exact heq
  · exact absurd hconf' (hfirst j hstart' hlt)

/-! ### A scan that comes to a candidate -/

/-- The scan goes past written candidates that are not confirmed and whose confirmation bytes are written. -/
theorem locateFrom_skips (d k : Nat)
    (h : ∀ j, start ≤ j → j < start + d → Memory.read buf j ≠ none ∧ ¬ SyncAt buf n j ∧
      (Memory.read buf j = some syncByte → ∀ e ∈ syncConfirmOffsets, j + e < n → Memory.read buf (j + e) ≠ none)) :
    locateFrom buf n (d + k) start = locateFrom buf n k (start + d) := by
  induction d generalizing start with
  | zero => rw [Nat.zero_add, Nat.add_zero]
  | succ d ih =>
    obtain ⟨hw, hs, hc⟩ := h start le_rfl (by omega)
    rw [show d + 1 + k = d + k + 1 by omega, locateFrom_passes hw hs hc, ih fun j h1 h2 => h j (by omega) (by omega),
      show start + 1 + d = start + (d + 1) by omega]

/-- What the locator answers is what the scan answers from the candidate it comes to. -/
theorem locate_of_scanReaches (h : ScanReaches buf n start x) :
    locate buf n start = locateFrom buf n (n - x - 1 + 1) x := by
  obtain ⟨hsize, hstart, hx, hpass⟩ := h
  have hskip := locateFrom_skips (buf := buf) (n := n) (start := start) (x - start) (n - x) fun j h1 h2 => by
    obtain ⟨hw, hconf, hc⟩ := hpass j h1 (by omega)
    exact ⟨hw, fun hs => hconf ⟨by omega, hs⟩, hc⟩
  rw [locate, if_neg (by rw [tsPacketSize]; omega), show n - start = x - start + (n - x) by omega, hskip,
    show start + (x - start) = x by omega, show n - x - 1 + 1 = n - x by omega]

/-- The locator finds the confirmed candidate its scan comes to, if that one's confirmation bytes are written. -/
theorem locate_eq_some (hreach : ScanReaches buf n start o) (hconf : Confirmed buf n o)
    (hw : ∀ d ∈ [188, 376, 564, 752], o + d < n → Memory.read buf (o + d) ≠ none) :
    locate buf n start = .ok (some o) := by
  obtain ⟨-, hsync⟩ := confirmed_iff.1 hconf
  rw [locate_of_scanReaches hreach]
  rcases locateFrom_round buf n (n - o - 1) o with ⟨f, -, ⟨hnone, -⟩ | ⟨d, hd, hn, hnone, -⟩⟩ | ⟨-, h⟩ | ⟨hs, -⟩
  · exact absurd (hsync.1.symm.trans hnone) nofun
  · exact absurd hnone (hw d hd hn)
  · exact h
  · exact absurd hsync hs

/-! ### FRAME's outcomes -/

/-- Settles O12: a written buffer leaves nothing to stop on, and each of the other cases of `execFrame_cases` is one of
the outcomes. -/
theorem frameHasThreeOutcomes : Obligations.FrameHasThreeOutcomes := by
  unfold Obligations.FrameHasThreeOutcomes
  intro s hw
  rcases execFrame_cases s with ⟨hl, he⟩ | ⟨o, rs, hl, -, he⟩ | ⟨o, i, code, dts, hl, -, -, hcode, -, he⟩ |
    ⟨a, ha, hnone, -⟩
  · exact ⟨_, he, rfl, .inr (.inl ⟨rfl, rfl, rfl, rfl, nothingLocated_of_locate hl⟩)⟩
  · exact ⟨_, he, rfl, .inl ⟨rfl, rfl, not_nothingLocated_of_locatedAt (locatedAt_of_locate hl)⟩⟩
  · exact ⟨_, he, rfl,
      .inr (.inr ⟨rfl, rfl, hcode, rfl, not_nothingLocated_of_locatedAt (locatedAt_of_locate hl)⟩)⟩
  · exact absurd (hw a ha) (by simp [hnone])

/-- A FRAME that ends in OK committed what its unit loop found from the located offset on. -/
theorem frame_ok_cases (h : exec .frame s = .next t) (hok : t.frameStatus = .ok) :
    ∃ o rs, LocatedAt s.buf s.bufLen.toNat 0 o ∧
      frameUnits s.buf s.pcrMode s.bufLen.toNat s.bufLen.toNat o = .ok rs ∧ t = frameCommit rs s := by
  rcases execFrame_cases s with ⟨-, he⟩ | ⟨o, rs, hl, hu, he⟩ | ⟨o, i, code, dts, -, -, -, -, -, he⟩ | ⟨a, -, -, he⟩ <;>
    cases he.symm.trans h
  · cases hok
  · exact ⟨o, rs, locatedAt_of_locate hl, hu, rfl⟩
  · cases hok

/-- Word `x` of committed slot `k` (rule R180). -/
theorem read_frameCommit_slot {rs : List UnitRecord} {k : Nat} (hk : k < rs.length) (s : State) (hx : x < 16) :
    Memory.read (frameCommit rs s).recs (16 * k + x) = (recordWords rs[k])[x]? := by
  rw [read_frameCommit_recs, if_pos (by omega), show (16 * k + x) / 16 = k by omega,
    show (16 * k + x) % 16 = x by omega, List.getElem?_eq_getElem hk, Option.bind_some]

/-- Settles O13: the loop's records are the units' (`frameUnits_ok`), the first unit starts at a confirmed offset, and
slot `k` holds record `k`. -/
theorem frameCommitsUnitsInOrder : Obligations.FrameCommitsUnitsInOrder := by
  unfold Obligations.FrameCommitsUnitsInOrder
  intro s t o hcfg hbuf hat h hok
  obtain ⟨o', rs, hat', hu, rfl⟩ := frame_ok_cases h hok
  cases locatedAt_unique hat hat'
  have hcount : (frameCommit rs s).recCount.toNat = rs.length :=
    frameCommit_recCount_toNat (lt_of_le_of_lt (frameUnits_length_le_recMax hbuf hu) (recMax_lt_of_valid hcfg)) s
  obtain ⟨-, -, ⟨-, hsync, -⟩, -⟩ := hat
  obtain ⟨hunits, hstop⟩ := frameUnits_ok hu (by omega)
  rw [hcount]
  refine ⟨fun k hk => ?unit, hstop.imp_right And.right, fun a ha => ?rest⟩
  case unit =>
    obtain ⟨hfits, hdecode, hnext⟩ := hunits k hk
    refine ⟨hfits, ?_, rs[k], hdecode, fun x hx => read_frameCommit_slot hk s hx⟩
    by_cases hk0 : k = 0
    · subst hk0
      exact hsync
    · exact hnext hk0
  case rest => rw [read_frameCommit_recs, if_neg (by omega)]

/-! ### The first framing-fatal unit -/

/-- The unit loop's framing-fatal error ends FRAME (rules R184 and R217). -/
theorem exec_frame_of_fatal {code : FrameErr} {dts : Bool} (hl : locate s.buf s.bufLen.toNat 0 = .ok (some o))
    (hu : frameUnits s.buf s.pcrMode s.bufLen.toNat s.bufLen.toNat o = .error (.fatal code dts x)) :
    exec .frame s = .next (frameFailed code dts x s) := by
  rw [exec, execFrame, hl]
  simp only [orFault, frameFrom, hu]

/-- Settles O14: the scan comes to `o` and confirms it, and the unit loop comes to unit `k` and stops on its error. -/
theorem frameStopsAtFirstFatalUnit : Obligations.FrameStopsAtFirstFatalUnit := by
  unfold Obligations.FrameStopsAtFirstFatalUnit
  intro s o k u code dts hat hwritten hoffsets hdecode hsync hfits hfatal
  obtain ⟨hsize, -, hconf, hfirst⟩ := hat
  have ho : o < s.bufLen.toNat := hconf.1
  have hreach : ScanReaches s.buf s.bufLen.toNat 0 o :=
    ⟨hsize, Nat.zero_le o, ho, fun j h1 h2 => ⟨hwritten j h2, hfirst j h1 h2, fun _ d hd => hoffsets d hd j h2.le⟩⟩
  have hl := locate_eq_some hreach hconf fun d hd => hoffsets d hd o le_rfl
  have hu : u = o + 188 * k := by
    rcases decodeUnit_error hfatal with ⟨code', dts', he, -⟩ | ⟨j, -, -, he⟩ <;> cases he
    rfl
  subst hu
  exact ⟨rfl, exec_frame_of_fatal hl
    (frameUnits_stops k hdecode (fun j _ hj => hsync j hj.le) (by omega) (.inl ⟨hsync k le_rfl, hfits, hfatal⟩))⟩

/-! ### A unit that fails the gate -/

/-- Only the four header bytes of a unit that fails the gate are used (rules R186 to R188). -/
theorem decodeUnit_ungated {b0 b1 b2 b3 : Byte} (h0 : Memory.read buf o = some b0)
    (h1 : Memory.read buf (o + 1) = some b1) (h2 : Memory.read buf (o + 2) = some b2)
    (h3 : Memory.read buf (o + 3) = some b3) (hgate : gated (headerRecord o b0 b1 b2 b3) = false) :
    decodeUnit buf mode o = .ok (headerRecord o b0 b1 b2 b3) := by
  rw [decodeUnit, show unitByte buf o 0 = .ok b0 from unitByte_ok.2 h0, unitByte_ok.2 h1, unitByte_ok.2 h2,
    unitByte_ok.2 h3]
  simp only [ok_bind, hgate]
  rfl

/-- Rule R139: W10 of a record with neither PES header nor payload. -/
theorem recordW10_absent : recordW10 none none = 0 := by decide

/-- Rules R135 and R139: W1 to W8 of a record with neither adaptation field nor PES header. -/
theorem bodyWords_absent :
    [recordW1 none, (recordPcr none).extractLsb' 0 32, 0#22 ++ (recordPcr none).extractLsb' 32 10, recordW4 none,
      (timestampBits none).extractLsb' 0 32, (timestampBits none).extractLsb' 32 32,
      (timestampBits none).extractLsb' 0 32, (timestampBits none).extractLsb' 32 32] =
    [0, 0, 0, 0, 0xFFFFFFFF#32, 0xFFFFFFFF#32, 0xFFFFFFFF#32, 0xFFFFFFFF#32] := by decide

/-- Settles O18: the record is the header's, which has no adaptation field, no PES header and no payload. -/
theorem ungatedUnitIsHeaderOnly : Obligations.UngatedUnitIsHeaderOnly := by
  unfold Obligations.UngatedUnitIsHeaderOnly
  intro buf mode o b0 b1 b2 b3 h0 h1 h2 h3 hfails
  have hgate : gated (headerRecord o b0 b1 b2 b3) = false := by
    rw [Bool.eq_false_iff]
    intro hg
    obtain ⟨hpl, htei, hpid⟩ := gated_headerRecord.1 hg
    rcases hfails with hf | hf | hf
    · cases hpl.symm.trans hf
    · cases htei.symm.trans hf
    · exact hpid hf
  exact ⟨_, decodeUnit_ungated h0 h1 h2 h3 hgate, rfl, rfl, rfl, rfl, rfl, bodyWords_absent,
    congrArg some recordW10_absent⟩

/-! ### The ranges of a record -/

/-- UNIT_OFFSET read back from W9 (rule R136). -/
theorem unitOffset_of_w9 {w9 : Word} (h : (recordWords u)[9]? = some w9) :
    (w9.extractLsb' 0 24).toNat = u.unitOffset.toNat := by
  have hw := recordWords_w9_toNat u
  have := u.unitOffset.isLt
  rw [h, Option.map_some, Option.some.injEq] at hw
  rw [extract_toNat, hw]
  omega

/-- The payload's range read back from W10 (rule R137). -/
theorem payload_of_w10 {q : PayloadPart} (hq : u.payload = some q) :
    ((recordW10 u.pes u.payload).extractLsb' 0 8).toNat = q.off.toNat ∧
    ((recordW10 u.pes u.payload).extractLsb' 8 8).toNat = q.len.toNat := by
  have hoff := q.off.isLt
  have hlen := q.len.isLt
  rw [extract_toNat, extract_toNat, recordW10_toNat, hq, Option.elim_some, Option.elim_some]
  constructor <;> omega

/-- The PES header's range read back from W10 (rule R137). -/
theorem pes_of_w10 {p : PesPart} (hp : u.pes = some p) :
    ((recordW10 u.pes u.payload).extractLsb' 16 8).toNat = p.off.toNat ∧
    ((recordW10 u.pes u.payload).extractLsb' 24 8).toNat = p.len.toNat := by
  have hoff := p.off.isLt
  have hlen := p.len.isLt
  have hpay : u.payload.elim 0 (·.off.toNat) + 256 * u.payload.elim 0 (·.len.toNat) < 2 ^ 16 := by
    cases u.payload with
    | none => decide
    | some q =>
      have := q.off.isLt
      have := q.len.isLt
      rw [Option.elim_some, Option.elim_some]
      omega
  rw [extract_toNat, extract_toNat, recordW10_toNat, hp, Option.elim_some, Option.elim_some]
  constructor <;> omega

/-- The offset a decoded unit's record carries (rule R136). -/
theorem decodeUnit_unitOffset (h : decodeUnit buf mode o = .ok u) (ho : o < 2 ^ 24) : u.unitOffset.toNat = o := by
  obtain ⟨b0, b1, b2, b3, -, -, -, -, ⟨-, -, -, -, -, -, -, -, -, hoff⟩, -⟩ := decodeUnit_header h
  rw [hoff, headerRecord, BitVec.toNat_ofNat, Nat.mod_eq_of_lt ho]

/-- Settles O22: W9 and W10 give back the offset and the ranges that `decodeUnit_ranges` bounds. -/
theorem recordRangesInsideUnit : Obligations.RecordRangesInsideUnit := by
  unfold Obligations.RecordRangesInsideUnit
  intro buf mode o u w9 w10 ho h hw9 hw10
  have hoffset := (unitOffset_of_w9 hw9).trans (decodeUnit_unitOffset h (by omega))
  have hw10 : recordW10 u.pes u.payload = w10 := Option.some.inj hw10
  obtain ⟨hpayload, hpes⟩ := decodeUnit_ranges h
  subst hw10
  rw [payloadRange, pesRange, hoffset]
  refine ⟨fun hne => ?payload, fun hne => ?pes⟩
  case payload =>
    obtain ⟨q, hq⟩ := Option.ne_none_iff_exists'.1 hne
    obtain ⟨hstart, hlen, hend⟩ := hpayload q hq
    obtain ⟨eoff, elen⟩ := payload_of_w10 hq
    rw [eoff, elen]
    simp only
    omega
  case pes =>
    obtain ⟨p, hp⟩ := Option.ne_none_iff_exists'.1 hne
    obtain ⟨hstart, hlen, hend⟩ := hpes p hp
    obtain ⟨eoff, elen⟩ := pes_of_w10 hp
    rw [eoff, elen]
    simp only
    omega

end Sys2Proof.Machine
end

section
/-! The packet commands: a discontinuity that need not wait, the hold and its release, DISPATCH_ALL step by step and to
its end, what the commands leave unchanged, and where an unwritten record stops them (spec/42_continuity.md): O29, O35,
O36, O38, O39, O40 and O41. -/
namespace Sys2Proof.Machine
open Sys2Proof.Spec

variable {s t : State} {k : BitVec 12} {r : RecView} {p : Pid}

/-! ### A discontinuity that need not wait -/

/-- Rule R255: a discontinuity makes one event, at the end of the FIFO, when EVT_EN = 1. -/
theorem addPacket_fifo_of_discontinuous (h : Discontinuous r (s.metric r.pid)) :
    (addPacket r.pid r s).fifo = if s.evtEn then s.fifo ++ [r.pid] else s.fifo := by
  rw [addPacket_fifo, pushes, notifies_iff_discontinuous.2 h, Bool.and_true]

/-- Rule R253: but for PCR state a discontinuity counts, and counts one error. -/
theorem addPacket_metric_of_discontinuous (h : Discontinuous r (s.metric r.pid)) :
    (addPacket r.pid r s).metric r.pid =
      withPcrStateOf ((addPacket r.pid r s).metric r.pid) (plusCcError (counted r (s.metric r.pid))) := by
  rw [addPacket_metric_same, packetMetric_eq_ccCounted h.1, (ccOutcome_eq_discontinuity_iff h.1).2 h]
  rfl

/-- Settles O29: both commands take the AddPacket step, whose outcome is a discontinuity. -/
theorem discontinuityIsCountedAndNotified : Obligations.DiscontinuityIsCountedAndNotified := by
  unfold Obligations.DiscontinuityIsCountedAndNotified
  intro s k r hk hd hw
  exact ⟨_, bothGoTo_complete_addPacket hk hw, addPacket_fifo_of_discontinuous hd,
    addPacket_metric_of_discontinuous hd⟩

/-! ### The hold -/

theorem packetCommand_of_mustWait (h : MustWait s r) (w : Word) : packetCommand w r.pid r s = keepBusy w s :=
  if_pos (packetHeld_iff_mustWait.2 h)

theorem encode_addPacket_eq (k : BitVec 12) (p : Pid) :
    encode (.addPacket k p) = BitVec.ofNat 32 (3 * 2 ^ 28 + k.toNat * 2 ^ 16 + p.toNat) := by
  rw [← encode_addPacket_toNat, BitVec.ofNat_toNat, BitVec.setWidth_eq]

theorem encode_dispatch_eq (k : BitVec 12) :
    encode (.dispatch k) = BitVec.ofNat 32 (4 * 2 ^ 28 + k.toNat * 2 ^ 16) := by
  rw [← encode_dispatch_toNat, BitVec.ofNat_toNat, BitVec.setWidth_eq]

theorem encode_dispatchAll : encode .dispatchAll = 0x50000000#32 := by decide

/-- A record step of DISPATCH_ALL (rules R256 and R260). -/
theorem exec_dispatchAll_of_record (hcur : s.cur = some (encode .dispatchAll))
    (hr : readRecord s.recs s.daNext.toNat = .ok r) :
    exec .dispatchAll s =
      if packetHeld r.pid r s then .next s else .next (dispatchAllAdvance (addPacket r.pid r s)) := by
  rw [exec, execDispatchAll, if_pos hcur, dispatchAllRecord, hr]
  rfl

/-- Settles O35: the hold keeps the command's own word in CUR, which a DISPATCH_ALL in progress has there already. -/
theorem heldOnFullFifo : Obligations.HeldOnFullFifo := by
  unfold Obligations.HeldOnFullFifo
  refine ⟨fun s k r hk hw => ⟨?addPacket, ?dispatch⟩, fun s r hcur hr hw => ?dispatchAll⟩
  case addPacket =>
    rw [exec_addPacket_of_holds hk, if_pos rfl, packetCommand_of_mustWait hw, encode_addPacket_eq]
    rfl
  case dispatch =>
    rw [exec_dispatch_of_holds hk, packetCommand_of_mustWait hw, encode_dispatch_eq]
    rfl
  case dispatchAll =>
    rw [exec_dispatchAll_of_record (encode_dispatchAll ▸ hcur) hr, if_pos (packetHeld_iff_mustWait.2 hw)]

/-- With room in the FIFO no packet waits (rule R256). -/
theorem not_mustWait_of_room (h : s.fifo.length < s.cfg.evtDepth) : ¬ MustWait s r :=
  fun ⟨_, hfull, _⟩ => absurd hfull (by omega)

/-- The state after a turn of the HOST that read EVT_POP (rule R40). -/
def popped (s : State) (w : U64) (ts : List Turn) (q : List HostAccess) : State :=
  { s with
    fifo := s.fifo.drop 1, wall := w, turns := ts, hostQueue := q, lastRead := some (evtPopWord s.fifo) }

theorem step_pop {w : U64} {ts : List Turn} {q : List HostAccess} (h : HostMoves s w ts (.regRead 10#4) q) :
    step s = .next (popped s w ts q) :=
  step_regRead h

theorem not_mustWait_popped (h : s.Inv) (w : U64) (ts : List Turn) (q : List HostAccess) :
    ¬ MustWait (popped s w ts q) r := by
  refine not_mustWait_of_room ?_
  obtain ⟨-, -, -, hdepth, -⟩ := h.cfgValid
  have hbound := h.fifoBound
  show (s.fifo.drop 1).length < s.cfg.evtDepth
  rw [List.length_drop]
  omega

/-- Settles O36: the read of EVT_POP makes room for one event, so the ENGINE's step on the held command adds its packet,
which is still a discontinuity. -/
theorem heldPacketGoesOnAfterPop : Obligations.HeldPacketGoesOnAfterPop := by
  unfold Obligations.HeldPacketGoesOnAfterPop
  intro s k r w1 w2 ts q hinv hk ⟨hevt, _, hd⟩ hcur hturns hqueue
  have hpop := step_pop (s := s) ⟨hturns, hqueue⟩
  have hadd : step (popped s w1 ({ agent := .engine, wall := w2 } :: ts) q) =
      .next (complete (addPacket r.pid r (popped s w2 ts q))) :=
    (step_engine_listed (s := popped s w1 ({ agent := .engine, wall := w2 } :: ts) q) rfl hcur
      (decodeOfEncode s.cfg (.addPacket k r.pid) (slotInRange_of_holds hk))).trans
      (bothGoTo_complete_addPacket (s := popped s w2 ts q) hk (not_mustWait_popped hinv w2 ts q)).1
  have hfifo := addPacket_fifo_of_discontinuous (s := popped s w2 ts q) hd
  have hmetric := addPacket_metric_of_discontinuous (s := popped s w2 ts q) hd
  rw [run_next 1 hpop, run_next 0 hadd, run_zero]
  exact ⟨_, rfl, rfl, hfifo.trans (if_pos hevt), congrArg Metric.ccerr hmetric, congrArg Metric.pkt hmetric⟩

/-! ### DISPATCH_ALL -/

theorem eq_zero_iff_toNat {n : Nat} (x : BitVec n) : x = 0 ↔ x.toNat = 0 := by
  rw [← BitVec.toNat_inj, BitVec.ofNat_eq_ofNat, BitVec.toNat_zero]

/-- Settles O38: accepting captures REC_COUNT, and a record step is the AddPacket step that DISPATCH of the slot takes,
with the counters moved on. -/
theorem dispatchAllStepByStep : Obligations.DispatchAllStepByStep := by
  unfold Obligations.DispatchAllStepByStep
  refine ⟨fun s hidle => ?accept, fun s k r hcur hnext hk hw => ?record⟩
  case accept =>
    rw [exec, execDispatchAll, if_neg (by rw [hidle]; exact nofun), dispatchAllAccept, encode_dispatchAll]
    simp only [eq_zero_iff_toNat]
  case record =>
    obtain ⟨-, hgo⟩ := bothGoTo_complete_addPacket hk hw
    refine ⟨_, hgo, ?_⟩
    rw [exec_dispatchAll_of_record (encode_dispatchAll ▸ hcur) (hnext ▸ hk.2),
      if_neg (packetHeld_iff_mustWait.not.2 hw), addPacket_frame]
    rfl

/-- A DISPATCH_ALL with events off that has `n` records left of those REC_COUNT counts. -/
structure DispatchingAll (s : State) (n : Nat) : Prop where
  inv     : s.Inv
  evtOff  : s.evtEn = false
  daEnd   : s.daEnd = s.recCount
  left    : s.daNext.toNat + n = s.daEnd.toNat
  cur     : s.cur = if n = 0 then none else some (encode .dispatchAll)

/-- The host's queue, the FIFO, the record memory and REC_COUNT are the same. -/
def SameQueuesAndRecords (s t : State) : Prop :=
  t.hostQueue = s.hostQueue ∧ t.fifo = s.fifo ∧ t.recs = s.recs ∧ t.recCount = s.recCount

theorem SameQueuesAndRecords.trans {u : State} (h : SameQueuesAndRecords s t) (h' : SameQueuesAndRecords t u) :
    SameQueuesAndRecords s u := by
  obtain ⟨hqueue, hfifo, hrecs, hcount⟩ := h
  obtain ⟨hqueue', hfifo', hrecs', hcount'⟩ := h'
  exact ⟨hqueue'.trans hqueue, hfifo'.trans hfifo, hrecs'.trans hrecs, hcount'.trans hcount⟩

/-- With EVT_EN = 0 no event is pushed (rule R255). -/
theorem pushes_of_evtOff (h : s.evtEn = false) (p : Pid) (r : RecView) : pushes p r s = false := by
  rw [pushes, h, Bool.false_and]

/-- With EVT_EN = 0 no packet is held (rule R256). -/
theorem packetHeld_of_evtOff (h : s.evtEn = false) (p : Pid) (r : RecView) : ¬ packetHeld p r s = true := by
  rw [packetHeld, pushes_of_evtOff h, Bool.false_and]
  exact nofun

/-- One record step of a DISPATCH_ALL that has records left: the next record is there, and it is added. -/
theorem step_dispatchingAll {n : Nat} {x : U64} {ts : List Turn} (h : DispatchingAll s (n + 1))
    (hturns : s.turns = { agent := .engine, wall := x } :: ts) :
    ∃ t, step s = .next t ∧ DispatchingAll t n ∧ t.turns = ts ∧ SameQueuesAndRecords s t := by
  obtain ⟨hinv, hevt, hend, hleft, hcur⟩ := h
  have hcur : s.cur = some (encode .dispatchAll) := hcur.trans (if_neg (Nat.succ_ne_zero n))
  obtain ⟨r, hr⟩ := readRecord_of_lt_recCount hinv (k := s.daNext.toNat) (by rw [← hend]; omega)
  have hstep : step s = .next (dispatchAllAdvance (addPacket r.pid r { s with turns := ts, wall := x })) := by
    rw [step_engine_listed hturns hcur (decode_dispatchAll _),
      exec_dispatchAll_of_record (s := { s with turns := ts, wall := x }) hcur hr,
      if_neg (packetHeld_of_evtOff (s := { s with turns := ts, wall := x }) hevt r.pid r)]
  have hfifo : (addPacket r.pid r { s with turns := ts, wall := x }).fifo = s.fifo := by
    rw [addPacket_fifo, pushes_of_evtOff (s := { s with turns := ts, wall := x }) hevt]
    rfl
  have hinv' := stepKeepsInvariant s _ hinv hstep
  refine ⟨_, hstep, ?_⟩
  rw [addPacket_frame, hfifo] at hinv' ⊢
  have hnext := daNext_add_one_toNat (s := s) (by omega)
  have hlast : s.daNext + 1 = s.daEnd ↔ n = 0 := by
    rw [← BitVec.toNat_inj, hnext]
    omega
  refine ⟨⟨hinv', hevt, hend, ?left, ?cur⟩, rfl, rfl, rfl, rfl, rfl⟩
  case left =>
    show (s.daNext + 1).toNat + n = s.daEnd.toNat
    omega
  case cur =>
    show (if s.daNext + 1 = s.daEnd then none else s.cur) = _
    simp only [hlast, hcur]

/-- Rule R408, bounded: `n` turns of the ENGINE end a DISPATCH_ALL that has `n` records left. -/
theorem run_dispatchingAll (ws : List U64) {ts : List Turn} (h : DispatchingAll s ws.length)
    (hturns : s.turns = ws.map (fun x => { agent := .engine, wall := x }) ++ ts) :
    ∃ t, Host.Core.run core ws.length s = .next t ∧ DispatchingAll t 0 ∧ t.turns = ts ∧ SameQueuesAndRecords s t := by
  induction ws generalizing s with
  | nil => exact ⟨s, rfl, h, hturns, rfl, rfl, rfl, rfl⟩
  | cons x ws ih =>
    obtain ⟨t, hstep, hgo, hturns', hsame⟩ := step_dispatchingAll h hturns
    obtain ⟨u, hrun, hdone, hend, hsame'⟩ := ih hgo hturns'
    exact ⟨u, (run_next _ hstep).trans hrun, hdone, hend, hsame.trans hsame'⟩

/-- The accepting step has every record that REC_COUNT counts left (rule R260). -/
theorem dispatchingAll_accept (h : s.Inv) (hevt : s.evtEn = false) :
    DispatchingAll (dispatchAllAccept s) s.recCount.toNat where
  inv := dispatchAllAccept_inv h
  evtOff := hevt
  daEnd := rfl
  left := Nat.zero_add _
  cur := by
    show (if s.recCount = 0 then none else some (encode .dispatchAll)) = _
    simp only [eq_zero_iff_toNat]

theorem exec_dispatchAll_of_idle (h : s.cur = none) : exec .dispatchAll s = .next (dispatchAllAccept s) := by
  rw [exec, execDispatchAll, if_neg (by rw [h]; exact nofun)]

/-- Settles O39: the CMD write's step accepts (`dispatchingAll_accept`), and each turn of the ENGINE adds one record
(`run_dispatchingAll`). -/
theorem dispatchAllRunsToTheEnd : Obligations.DispatchAllRunsToTheEnd := by
  unfold Obligations.DispatchAllRunsToTheEnd
  intro s w ws ts q hinv hidle hevt hlen hturns hqueue
  have haccept := (step_cmdWrite (s := s) ⟨hturns, hqueue⟩ hidle).trans
    ((runWord_of_decode (encode_dispatchAll ▸ decode_dispatchAll s.cfg)).trans (exec_dispatchAll_of_idle hidle))
  have hinv' : (afterHost s w (ws.map (fun x => { agent := .engine, wall := x }) ++ ts) q).Inv :=
    hinv.congr rfl rfl rfl rfl rfl rfl rfl rfl rfl rfl rfl rfl rfl
  have hgo := dispatchingAll_accept hinv' hevt
  rw [show (afterHost s w _ q).recCount.toNat = ws.length from hlen.symm] at hgo
  obtain ⟨t, hrun, ⟨-, -, hend, hleft, hcur⟩, hturns', hqueue', hfifo, hrecs, hcount⟩ := run_dispatchingAll ws hgo rfl
  refine ⟨t, (run_next _ haccept).trans hrun, hcur, hturns', hqueue', ?daNext, hfifo, hrecs⟩
  case daNext => exact (BitVec.eq_of_toNat_eq hleft).trans (hend.trans hcount)

/-! ### What the packet commands leave unchanged -/

/-- Rule R245: a one-packet command writes one entry, the FIFO and CUR. -/
theorem packetCommand_frame (w : Word) (p : Pid) (r : RecView) (s : State) :
    packetCommand w p r s =
      { s with
        metrics := (packetCommand w p r s).metrics, fifo := (packetCommand w p r s).fifo
        cur := (packetCommand w p r s).cur } := by
  rcases packetCommand_cases w p r s with ⟨-, h⟩ | ⟨-, h⟩ <;> rw [h]
  · rfl
  · rw [addPacket_frame]
    rfl

theorem packetCommand_metric_other {q : Pid} (hq : q ≠ p) (w : Word) (r : RecView) (s : State) :
    (packetCommand w p r s).metric q = s.metric q := by
  rcases packetCommand_cases w p r s with ⟨-, h⟩ | ⟨-, h⟩ <;> rw [h]
  · rfl
  · exact addPacket_metric_other hq r s

/-- Rule R152's range of a slot operand. -/
theorem slotInRange_iff {c : Config} : slotInRange c k = true ↔ k.toNat < c.bufMax / 188 := decide_eq_true_iff

/-- Rule R152: a slot operand out of range. -/
theorem not_lt_of_slotInRange {c : Config} (h : slotInRange c k = false) : ¬ k.toNat < c.bufMax / 188 :=
  decide_eq_false_iff_not.1 h

/-- Settles O40, by the cases of each command. -/
theorem packetCommandFrame : Obligations.PacketCommandFrame := by
  unfold Obligations.PacketCommandFrame
  refine ⟨fun s t k p h => ?addPacket, fun s t k h => ?dispatch, fun s t h => ?dispatchAll⟩
  case addPacket =>
    rcases execAddPacket_cases k p s with ⟨hslot, he⟩ | ⟨-, ⟨f, -, he⟩ | ⟨r, hr, ⟨-, he⟩ | ⟨hne, he⟩⟩⟩ <;>
      cases he.symm.trans h
    · exact ⟨rfl, fun hk => absurd hk (not_lt_of_slotInRange hslot), fun _ _ _ => rfl, fun _ _ => rfl⟩
    · have hframe := packetCommand_frame (encode (.addPacket k p)) p r s
      have husage := congrArg State.usageErr hframe
      have hcmd := congrArg State.cmdErr hframe
      refine ⟨?_, fun _ => hcmd, fun _ _ _ => husage, fun q hq => packetCommand_metric_other hq _ r s⟩
      rw [husage, hcmd]
      exact hframe
    · refine ⟨rfl, fun _ => rfl, fun r' hr' hp => ?_, fun _ _ => rfl⟩
      cases hr.symm.trans hr'
      exact absurd hp hne
  case dispatch =>
    rcases execDispatch_cases k s with ⟨hslot, he⟩ | ⟨-, ⟨f, -, he⟩ | ⟨r, hr, he⟩⟩ <;> cases he.symm.trans h
    · exact ⟨rfl, fun hk => absurd hk (not_lt_of_slotInRange hslot), fun _ _ => rfl⟩
    · have hframe := packetCommand_frame (encode (.dispatch k)) r.pid r s
      have hcmd := congrArg State.cmdErr hframe
      refine ⟨?_, fun _ => hcmd, fun q hq => packetCommand_metric_other (hq r hr) _ r s⟩
      rw [hcmd]
      exact hframe
  case dispatchAll =>
    rcases execDispatchAll_cases s with ⟨-, he⟩ | ⟨-, ⟨f, -, he⟩ | ⟨r, hr, ⟨-, he⟩ | ⟨-, he⟩⟩⟩ <;>
      cases he.symm.trans h
    · exact ⟨rfl, fun _ _ => rfl⟩
    · exact ⟨rfl, fun _ _ => rfl⟩
    · refine ⟨?_, fun q hq => addPacket_metric_other (hq r hr) r s⟩
      rw [addPacket_frame]
      rfl

/-! ### An unwritten record -/

theorem readRecWord_written {recs : List (Nat × Word)} {m y : Nat} (h : Memory.read recs (recKey m y) ≠ none) :
    ∃ v, readRecWord recs m y = .ok v := by
  obtain ⟨v, hv⟩ := Option.ne_none_iff_exists'.1 h
  exact ⟨v, readRecWord_ok.2 hv⟩

/-- A record's read stops on the first unwritten word of W0 to W3 (rule R64, log entry 11). -/
theorem readRecord_stops {recs : List (Nat × Word)} {m x : Nat} (hx : x < 4)
    (hnone : Memory.read recs (recKey m x) = none)
    (hbefore : ∀ y < x, Memory.read recs (recKey m y) ≠ none) :
    readRecord recs m = .error (.recUnwritten m x) := by
  have hstop := readRecWord_error.2 ⟨hnone, rfl⟩
  have hcases : x = 0 ∨ x = 1 ∨ x = 2 ∨ x = 3 := by omega
  unfold readRecord
  rcases hcases with rfl | rfl | rfl | rfl
  · rw [hstop]
    rfl
  · obtain ⟨w0, h0⟩ := readRecWord_written (hbefore 0 (by decide))
    rw [h0, ok_bind, hstop]
    rfl
  · obtain ⟨w0, h0⟩ := readRecWord_written (hbefore 0 (by decide))
    obtain ⟨w1, h1⟩ := readRecWord_written (hbefore 1 (by decide))
    rw [h0, ok_bind, h1, ok_bind, hstop]
    rfl
  · obtain ⟨w0, h0⟩ := readRecWord_written (hbefore 0 (by decide))
    obtain ⟨w1, h1⟩ := readRecWord_written (hbefore 1 (by decide))
    obtain ⟨w2, h2⟩ := readRecWord_written (hbefore 2 (by decide))
    rw [h0, ok_bind, h1, ok_bind, h2, ok_bind, hstop]
    rfl

theorem exec_addPacket_of_error {f : Fault} (hslot : slotInRange s.cfg k = true)
    (h : readRecord s.recs k.toNat = .error f) (p : Pid) : exec (.addPacket k p) s = .fault f := by
  rw [exec, execAddPacket, if_pos hslot, h]
  rfl

theorem exec_dispatch_of_error {f : Fault} (hslot : slotInRange s.cfg k = true)
    (h : readRecord s.recs k.toNat = .error f) : exec (.dispatch k) s = .fault f := by
  rw [exec, execDispatch, if_pos hslot, h]
  rfl

/-- Settles O41: the record's read stops there (`readRecord_stops`), and the command with it. -/
theorem unwrittenRecordFaults : Obligations.UnwrittenRecordFaults := by
  unfold Obligations.UnwrittenRecordFaults
  intro s k p x hk hx hnone hbefore
  have hread := readRecord_stops hx hnone hbefore
  exact ⟨exec_addPacket_of_error (slotInRange_iff.2 hk) hread p, exec_dispatch_of_error (slotInRange_iff.2 hk) hread⟩

end Sys2Proof.Machine
end

section
/-! A sweep taken to its end in any order (spec/44_windowing.md, section 2): O44. -/
namespace Sys2Proof.Machine
open Sys2Proof.Spec

variable {s t : State} {p : Pid}

/-- Taking an element off both sides of a permutation of a list without repetitions. -/
theorem perm_filter_ne_of_cons {a : Nat} {l m : List Nat} (h : (a :: l).Perm m) (hm : m.Nodup) :
    l.Perm (m.filter (· ≠ a)) := by
  obtain ⟨ha, -⟩ := List.nodup_cons.1 (h.nodup_iff.2 hm)
  have hl : (a :: l).filter (· ≠ a) = l := by
    rw [List.filter_cons_of_neg (by simp)]
    exact List.filter_eq_self.2 fun x hx => decide_eq_true fun hxa => ha (hxa ▸ hx)
  exact hl ▸ h.filter _

theorem pidSetWf.nodup {l : List Nat} (h : pidSetWf l) : l.Nodup :=
  List.Pairwise.imp (fun hlt => Nat.ne_of_lt hlt) h

/-- The entries of a sweep: those pending are swapped once, and the others are kept (rules R314 and R316). -/
def SweptOnce (s t : State) : Prop :=
  ∀ p : Pid, (p.toNat ∈ s.pending → Swapped (s.metric p) (t.metric p)) ∧
    (p.toNat ∉ s.pending → t.metric p = s.metric p)

/-- The swap of one pending PID, and then the sweep of the rest. -/
theorem sweptOnce_of_swapStep (hp : p.toNat ∈ s.pending) (h : SweptOnce (swapStep p s) t) : SweptOnce s t := by
  intro q
  obtain ⟨hin, hout⟩ := h q
  rw [mem_swapStep_pending] at hin hout
  by_cases hq : q = p
  · subst hq
    have hkept := hout fun hmem => hmem.2 rfl
    rw [swapStep_metric_same] at hkept
    exact ⟨fun _ => hkept ▸ swapped_swapMetric _, fun hno => absurd hp hno⟩
  · have hne : q.toNat ≠ p.toNat := fun heq => hq (BitVec.eq_of_toNat_eq heq)
    rw [swapStep_metric_other hq] at hin hout
    exact ⟨fun hmem => hin ⟨hmem, hne⟩, fun hno => hout fun hmem => hno hmem.1⟩

/-- Settles O44, by induction on the turns: each swaps its PID, which is pending, and leaves the others pending. -/
theorem sweepEndsInAnyOrder : Obligations.SweepEndsInAnyOrder := by
  unfold Obligations.SweepEndsInAnyOrder
  intro s l ts hwf hperm hturns
  induction l generalizing s with
  | nil =>
    have hempty : s.pending = [] := hperm.symm.eq_nil
    refine ⟨s, rfl, hempty, hturns, fun p => ⟨fun hp => ?_, fun _ => rfl⟩⟩
    rw [hempty] at hp
    cases hp
  | cons x l ih =>
    obtain ⟨p, w⟩ := x
    have hp : p.toNat ∈ s.pending := hperm.subset (List.mem_cons_self ..)
    have hstep := step_sweeper_of_pending hturns hp
    obtain ⟨t, hrun, hempty, hend, hswept⟩ := ih (swapStep p { s with turns := _, wall := w }) (hwf.filter _)
      (perm_filter_ne_of_cons hperm hwf.nodup) rfl
    refine ⟨t, (run_next _ hstep).trans hrun, hempty, hend, ?_⟩
    exact sweptOnce_of_swapStep (s := { s with turns := _, wall := w }) hp hswept

end Sys2Proof.Machine
end

section
/-! What stops a step (spec/60_exceptions.md, rule R350): the use of memory nothing has written, and nothing else:
O60. -/
namespace Sys2Proof.Machine
open Sys2Proof.Spec

variable {buf : List Host.Cell} {mode : PcrMode} {n start o a d x : Nat} {s s' t : State} {f : Fault} {i : Instr}

/-! ### Nothing else stops a step -/

/-- The outcome is a next state, or the fault of a byte or word of `s` that nothing has written. -/
def StopsOnUnwrittenOnly (s : State) (y : Out) : Prop :=
  (∃ t, y = .next t) ∨
  (∃ i, y = .fault (.bufUnwritten i) ∧ Memory.read s.buf i = none) ∨
  (∃ k x, y = .fault (.recUnwritten k x) ∧ Memory.read s.recs (16 * k + x) = none)

theorem stopsOnUnwrittenOnly_next (s t : State) : StopsOnUnwrittenOnly s (.next t) := .inl ⟨t, rfl⟩

theorem stopsOnUnwrittenOnly_record {k : Nat} (h : readRecord s.recs k = .error f) :
    StopsOnUnwrittenOnly s (.fault f) := by
  obtain ⟨x, -, hnone, rfl⟩ := readRecord_error h
  exact .inr (.inr ⟨k, x, rfl, hnone⟩)

theorem execLocate_stops (start : BitVec 24) (s : State) : StopsOnUnwrittenOnly s (execLocate start s) := by
  unfold execLocate
  cases h : locate s.buf s.bufLen.toNat start.toNat with
  | ok r => exact stopsOnUnwrittenOnly_next s _
  | error f =>
    obtain ⟨a, -, hnone, rfl⟩ := locate_fault h
    exact .inr (.inl ⟨a, rfl, hnone⟩)

theorem execFrame_stops (s : State) : StopsOnUnwrittenOnly s (execFrame s) := by
  rcases execFrame_cases s with ⟨-, he⟩ | ⟨o, rs, -, -, he⟩ | ⟨o, i, code, dts, -, -, -, -, -, he⟩ |
    ⟨a, -, hnone, he⟩ <;> rw [he]
  · exact stopsOnUnwrittenOnly_next s _
  · exact stopsOnUnwrittenOnly_next s _
  · exact stopsOnUnwrittenOnly_next s _
  · exact .inr (.inl ⟨a, rfl, hnone⟩)

theorem execAddPacket_stops (slot : BitVec 12) (pid : Pid) (s : State) :
    StopsOnUnwrittenOnly s (execAddPacket slot pid s) := by
  rcases execAddPacket_cases slot pid s with ⟨-, he⟩ | ⟨-, ⟨f, hf, he⟩ | ⟨r, -, ⟨-, he⟩ | ⟨-, he⟩⟩⟩ <;> rw [he]
  · exact stopsOnUnwrittenOnly_next s _
  · exact stopsOnUnwrittenOnly_record hf
  · exact stopsOnUnwrittenOnly_next s _
  · exact stopsOnUnwrittenOnly_next s _

theorem execDispatch_stops (slot : BitVec 12) (s : State) : StopsOnUnwrittenOnly s (execDispatch slot s) := by
  rcases execDispatch_cases slot s with ⟨-, he⟩ | ⟨-, ⟨f, hf, he⟩ | ⟨r, -, he⟩⟩ <;> rw [he]
  · exact stopsOnUnwrittenOnly_next s _
  · exact stopsOnUnwrittenOnly_record hf
  · exact stopsOnUnwrittenOnly_next s _

theorem execDispatchAll_stops (s : State) : StopsOnUnwrittenOnly s (execDispatchAll s) := by
  rcases execDispatchAll_cases s with ⟨-, he⟩ | ⟨-, ⟨f, hf, he⟩ | ⟨r, -, ⟨-, he⟩ | ⟨-, he⟩⟩⟩ <;> rw [he]
  · exact stopsOnUnwrittenOnly_next s _
  · exact stopsOnUnwrittenOnly_record hf
  · exact stopsOnUnwrittenOnly_next s _
  · exact stopsOnUnwrittenOnly_next s _

theorem exec_stops (i : Instr) (s : State) : StopsOnUnwrittenOnly s (exec i s) := by
  cases i with
  | nop | windowTick | readMetric _ _ | clearSession => exact stopsOnUnwrittenOnly_next s _
  | locate start => exact execLocate_stops start s
  | frame => exact execFrame_stops s
  | addPacket slot pid => exact execAddPacket_stops slot pid s
  | dispatch slot => exact execDispatch_stops slot s
  | dispatchAll => exact execDispatchAll_stops s

theorem runWord_stops (w : Word) (s : State) : StopsOnUnwrittenOnly s (runWord w s) := by
  rcases runWord_cases w s with ⟨i, -, he⟩ | ⟨r, -, he⟩ <;> rw [he]
  · exact exec_stops i s
  · exact stopsOnUnwrittenOnly_next s _

theorem readBuf_stops (i : BitVec 24) (s : State) : StopsOnUnwrittenOnly s (readBuf i s) := by
  by_cases hi : i.toNat < s.cfg.bufMax
  · cases hb : Memory.read s.buf i.toNat with
    | some b => exact readBuf_written hi hb ▸ stopsOnUnwrittenOnly_next s _
    | none => exact .inr (.inl ⟨i.toNat, readBuf_unwritten hi hb, hb⟩)
  · exact readBuf_out_of_range (Nat.le_of_not_lt hi) ▸ stopsOnUnwrittenOnly_next s _

theorem readRec_stops (k : Nat) (x : BitVec 4) (s : State) : StopsOnUnwrittenOnly s (readRec k x s) := by
  by_cases hk : k < s.cfg.recMax
  · cases hv : Memory.read s.recs (16 * k + x.toNat) with
    | some v => exact readRec_written hk hv ▸ stopsOnUnwrittenOnly_next s _
    | none => exact .inr (.inr ⟨k, x.toNat, readRec_unwritten hk hv, hv⟩)
  · exact readRec_out_of_range (Nat.le_of_not_lt hk) x ▸ stopsOnUnwrittenOnly_next s _

theorem hostAccess_stops (acc : HostAccess) (s : State) : StopsOnUnwrittenOnly s (hostAccess runWord acc s) := by
  cases acc with
  | regRead _ | bufWrite _ _ | recWrite _ _ _ => exact stopsOnUnwrittenOnly_next s _
  | regWrite y v =>
    rw [hostAccess]
    split
    · exact runWord_stops v s
    · exact stopsOnUnwrittenOnly_next s _
  | bufRead i => exact readBuf_stops i s
  | recRead k y => exact readRec_stops k y s

/-- What stops a step is unwritten in the state the turn is taken from. -/
theorem step_stops (s : State) : StopsOnUnwrittenOnly s (step s) := by
  obtain ⟨wl, ts, m, hframe⟩ := takeTurn_frame s
  rcases step_cases s with he | ⟨w, s', hissue, he⟩ | ⟨acc, q, -, -, -, -, he⟩ | ⟨p, -, -, he⟩ | ⟨-, he⟩ |
    ⟨-, he⟩ <;> rw [he]
  · exact stopsOnUnwrittenOnly_next s _
  · obtain ⟨wl, ts, m, q, rfl⟩ := exists_eq_of_issues hissue
    have hstops := runWord_stops w { s with wall := wl, turns := ts, freeTurns := m, hostQueue := q }
    exact hstops
  · rw [hframe]
    have hstops := hostAccess_stops acc { s with wall := wl, turns := ts, freeTurns := m, hostQueue := q }
    exact hstops
  · exact stopsOnUnwrittenOnly_next s _
  · exact stopsOnUnwrittenOnly_next s _
  · exact stopsOnUnwrittenOnly_next s _

/-! ### Where the locator stops -/

/-- The confirmation loop stops on the first unwritten in-bounds offset of a candidate: the offsets rise (rule R9). -/
theorem syncConfirmed_stops_first (hd : d ∈ syncConfirmOffsets) (hn : x + d < n)
    (hnone : Memory.read buf (x + d) = none)
    (hbefore : ∀ e ∈ syncConfirmOffsets, e < d → Memory.read buf (x + e) ≠ none) :
    syncConfirmed buf n x syncConfirmOffsets = .error (.bufUnwritten (x + d)) := by
  have hrising : syncConfirmOffsets.Pairwise (· < ·) := by decide
  obtain ⟨pre, post, hsplit⟩ := List.append_of_mem hd
  rw [hsplit] at hrising hbefore ⊢
  obtain ⟨-, -, hpre⟩ := List.pairwise_append.1 hrising
  exact syncConfirmed_stops hn hnone fun e he _ =>
    hbefore e (List.mem_append_left _ he) (hpre e he d (List.mem_cons_self ..))

/-- Rule R63: the locator stops on the unwritten byte its scan comes to. -/
theorem locate_error_of_stops (h : LocatorStopsAt buf n start a) :
    locate buf n start = .error (.bufUnwritten a) := by
  obtain ⟨hnone, hreach | ⟨x, hreach, hsync, d, hd, rfl, hn, hbefore⟩⟩ := h
  · rw [locate_of_scanReaches hreach, locateFrom, readByte_error.2 ⟨hnone, rfl⟩]
    rfl
  · rw [locate_of_scanReaches hreach, locateFrom, show readByte buf x = .ok syncByte from readByte_ok.2 hsync,
      ok_bind, if_pos rfl, syncConfirmed_stops_first hd hn hnone hbefore]
    rfl

theorem exec_locate_of_error {start : BitVec 24} (h : locate s.buf s.bufLen.toNat start.toNat = .error f) :
    exec (.locate start) s = .fault f := by
  rw [exec, execLocate, h]
  rfl

/-! ### Where FRAME stops -/

theorem exec_frame_of_locate_error (h : locate s.buf s.bufLen.toNat 0 = .error f) : exec .frame s = .fault f := by
  rw [exec, execFrame, h]
  rfl

theorem exec_frame_of_fault (hl : locate s.buf s.bufLen.toNat 0 = .ok (some o))
    (hu : frameUnits s.buf s.pcrMode s.bufLen.toNat s.bufLen.toNat o = .error (.fault f)) :
    exec .frame s = .fault f := by
  rw [exec, execFrame, hl]
  simp only [orFault, frameFrom, hu]

/-- Rule R63: the scan finds its offset, and the unit loop stops on the unwritten byte of the unit it comes to. -/
theorem frame_error_of_stops (h : FramerStopsAt buf mode n a) :
    ∃ o, locate buf n 0 = .ok (some o) ∧ frameUnits buf mode n n o = .error (.fault (.bufUnwritten a)) := by
  obtain ⟨hnone, o, k, ⟨-, -, hconf, -⟩, hreach, hoffsets, hunits, hstop⟩ := h
  have hbelow : o + 188 * k < n := by omega
  refine ⟨o, locate_eq_some hreach hconf hoffsets,
    frameUnits_stops k (fun j hj => (hunits j hj).2) (fun j _ hj => (hunits j hj).1) (by omega) ?_⟩
  rcases hstop with ⟨hk, -, rfl, hn⟩ | ⟨hsync, hfits, ⟨y, hy, rfl, hbefore⟩ |
    ⟨rfl, b1, b2, b3, h1, h2, h3, hpl, haf, htei, hpid⟩⟩
  · exact .inr ⟨hk, hn, hnone, rfl⟩
  · exact .inl ⟨hsync, hfits, decodeUnit_header_stops hy hnone hbefore⟩
  · exact .inl ⟨hsync, hfits, decodeUnit_af_stops hsync h1 h2 h3 hnone hpl haf htei hpid⟩

/-! ### Outcomes that more written bytes keep -/

/-- A LOCATE that goes on has used no unwritten byte (`locate_kept`). -/
theorem exec_locate_kept {start : BitVec 24} (h : exec (.locate start) s = .next t) {b : List Host.Cell}
    (hext : Extends s.buf b) : exec (.locate start) { s with buf := b } = .next { t with buf := b } := by
  obtain ⟨r, hr, ht⟩ := orFault_next.1 h
  cases ht
  have hkept : locate b s.bufLen.toNat start.toNat = .ok r :=
    (locate_kept hext fun e _ he => by cases he.symm.trans hr).trans hr
  exact exec_locate_of_ok (s := { s with buf := b }) hkept

theorem exec_frame_of_none (h : locate s.buf s.bufLen.toNat 0 = .ok none) :
    exec .frame s = .next (frameNoSync s) := by
  rw [exec, execFrame, h]
  rfl

theorem exec_frame_of_ok {rs : List UnitRecord} (hl : locate s.buf s.bufLen.toNat 0 = .ok (some o))
    (hu : frameUnits s.buf s.pcrMode s.bufLen.toNat s.bufLen.toNat o = .ok rs) :
    exec .frame s = .next (frameCommit rs s) := by
  rw [exec, execFrame, hl]
  simp only [orFault, frameFrom, hu]

/-- A FRAME that goes on has used no unwritten byte (`locate_kept` and `frameUnits_kept`). -/
theorem exec_frame_kept (h : exec .frame s = .next t) {b : List Host.Cell} (hext : Extends s.buf b) :
    exec .frame { s with buf := b } = .next { t with buf := b } := by
  have hlocate {r : Option Nat} (hr : locate s.buf s.bufLen.toNat 0 = .ok r) :
      locate b s.bufLen.toNat 0 = .ok r :=
    (locate_kept hext fun e _ he => by cases he.symm.trans hr).trans hr
  rcases execFrame_cases s with ⟨hl, he⟩ | ⟨o, rs, hl, hu, he⟩ | ⟨o, i, code, dts, hl, hu, -, -, -, he⟩ |
    ⟨a, -, -, he⟩ <;> cases he.symm.trans h
  · exact exec_frame_of_none (s := { s with buf := b }) (hlocate hl)
  · have hunits := (frameUnits_kept hext fun e _ he => by cases he.symm.trans hu).trans hu
    exact exec_frame_of_ok (s := { s with buf := b }) (hlocate hl) hunits
  · have hunits := (frameUnits_kept hext (fun e hf he => by
      obtain ⟨f, rfl⟩ := hf
      cases he.symm.trans hu)).trans hu
    exact exec_frame_of_fatal (s := { s with buf := b }) (hlocate hl) hunits

/-! ### The obligation -/

theorem exec_dispatchAll_of_error (hcur : s.cur = some (encode .dispatchAll))
    (h : readRecord s.recs s.daNext.toNat = .error f) : exec .dispatchAll s = .fault f := by
  rw [exec, execDispatchAll, if_pos hcur, dispatchAllRecord, h]
  rfl

/-- Settles O60: one lemma for each clause above. -/
theorem onlyUnwrittenMemoryStops : Obligations.OnlyUnwrittenMemoryStops := by
  unfold Obligations.OnlyUnwrittenMemoryStops
  refine ⟨step_stops, fun s start a h => exec_locate_of_error (locate_error_of_stops h), fun s a h => ?frame,
    fun s t i a v hi h hnone => ?kept, fun s x hcur hx hnone hbefore => ?dispatchAll⟩
  case frame =>
    rcases h with hlocator | hframer
    · exact exec_frame_of_locate_error (locate_error_of_stops hlocator)
    · obtain ⟨o, hl, hu⟩ := frame_error_of_stops hframer
      exact exec_frame_of_fault hl hu
  case kept =>
    rcases hi with ⟨start, rfl⟩ | rfl
    · exact exec_locate_kept h (extends_write hnone v)
    · exact exec_frame_kept h (extends_write hnone v)
  case dispatchAll =>
    exact exec_dispatchAll_of_error (encode_dispatchAll ▸ hcur) (readRecord_stops hx hnone hbefore)

end Sys2Proof.Machine
end
